-- ==== Sys2Proof/Word.lean ====
section
/-!
DEFINITION. The value types of VSCP-CB: bytes, 16- and 32-bit values (spec/00_scope.md R11, R12) and the fixed
byte arrays of the register file.
-/

namespace Sys2Proof

/-- Eight bits (R12). -/
abbrev Byte := BitVec 8

/-- Sixteen bits: `CE_VARIANT`, `BS_PAGE`, device codes, class and type ids, the checksum (R11). -/
abbrev Half := BitVec 16

/-- Thirty-two bits: every buffer address and length, block numbers, milliseconds (R11). -/
abbrev Word := BitVec 32

/-- A register-space address. The bus traces of spec/95_test_vectors.md section 7 write it with four hex digits. -/
abbrev RegAddr := BitVec 16

/-- A word of the key schedule: four bytes `[w0, w1, w2, w3]`, never an integer (R18, R66). -/
abbrev CWord := Vector Byte 4

/-- Sixteen bytes in buffer order: a cipher block, the state `S`, an IV (R9, R67). -/
abbrev Block := Vector Byte 16

/-- A node's GUID, `guid[0]` first (R9). -/
abbrev Guid := Vector Byte 16

end Sys2Proof
end

