-- ==== Sys2Proof/Config.lean ====
section
/-!
DEFINITION. What an implementation fixes (the parameters of spec/00_scope.md R10) and the values the spec leaves
open (`opaque`, no body). Nothing here changes while the machine runs (spec/10_state.md R58).
-/

namespace Sys2Proof

/-- A port's status code. `TP_OK` is the one value that means success, "anything else is a failure", and its number is
the transport's business (R52, R112); so the model keeps the one distinction the rules make. -/
inductive PortStatus where
  | ok
  | failed
  deriving DecidableEq, Repr, Inhabited

/-- An event record (R100): `len` is 0 to 512, the number of payload bytes (R9, R90). -/
structure Event where
  cls       : Half
  typ       : Half
  timestamp : Word
  guid      : Guid
  len       : Fin 513
  data      : Vector Byte len.val
  deriving DecidableEq, Repr, Inhabited

/-- The payload bytes, first byte first. -/
def Event.payload (ev : Event) : List Byte := ev.data.toList

/-- A memory-region descriptor `{memtype, begin, end}` (R64): `first` is the spec's `begin`, and `more` the number of
addresses after it, so that "`begin <= end`" holds of every region. -/
structure Region where
  memtype : Byte
  first   : Word
  more    : Fin (2 ^ 32 - 1 - first.toNat + 1)
  deriving DecidableEq, Repr, Inhabited

/-- The spec's `end`: "the last address that belongs to the region" (R64). -/
def Region.last (g : Region) : Word := BitVec.ofNat 32 (g.first.toNat + g.more.val)

/-- The parameters of R10 that are plain data. `N_CE` is `moreCe + 1`, so that it is at least 1; the two sizes are at
most 2^32. The function `crc16_step` is `Config.crc16Step`. -/
structure Params where
  moreCe                : Nat
  bufSize               : Fin (2 ^ 32 + 1)
  fwbSize               : Fin (2 ^ 32 + 1)
  regions               : Vector Region 4
  classProtocol         : Half
  typeEnterBoot         : Half
  typeEnterBootAck      : Half
  typeEnterBootNack     : Half
  typeStartBlock        : Half
  typeStartBlockAck     : Half
  typeStartBlockNack    : Half
  typeBlockData         : Half
  typeBlockDataAck      : Half
  typeBlockDataNack     : Half
  typeProgramBlock      : Half
  typeProgramBlockAck   : Half
  typeProgramBlockNack  : Half
  expectedBootAlgorithm : Byte
  defaultTimeoutMs      : Word
  crc16Init             : Half
  deriving DecidableEq, Repr, Inhabited

/-- `N_CE`, the number of cipher units (R10). -/
def Params.nCe (p : Params) : Nat := p.moreCe + 1

/-- Which HOST-written memory a byte belongs to: BUF of cipher unit `k` (each has its own, R61), or FWB. -/
inductive Space where
  | buf (k : Nat)
  | fwb
  deriving DecidableEq, Repr

/-- The parameter values of the implementation that comes out of reset. Free: most rows of R10 read "none: must be
supplied", and a model "must not hard-wire" them (log entry 1). -/
opaque Config.params : Params

/-- `crc16_step(c, b)`, "a total function of a 16-bit checksum and a byte; the model assumes nothing of it except that
it depends on its two arguments alone" (R56). -/
opaque Config.crc16Step : Half → Byte → Half

/-- What a byte of BUF or FWB holds that nothing has written (R57: unspecified; U14: any value; log entry 2). -/
opaque Config.unwrittenByte : Space → Nat → Byte

/-- The TIMER's count at power-on, unspecified (R50, R57; log entry 3). -/
opaque Config.powerOnTimer : Word

/-! The answers of the environment ports once the answers scripted in `Env` are used up: free draws, one index each
(R50 to R54; log entry 4). -/

/-- An advance of the TIMER between two reads (R50). -/
opaque Config.freeTick : Nat → Word

/-- An answer of `rng_available()` to cipher unit `k` (R51): the unit, then the index. -/
opaque Config.freeRngAvailable : Nat → Nat → Bool

/-- A byte of `rng_draw(n)` to cipher unit `k` (R51, R172): the unit, then the index. -/
opaque Config.freeRngByte : Nat → Nat → Byte

/-- A status returned by `tp_send` (R52). -/
opaque Config.freeSendStatus : Nat → PortStatus

/-- An answer of `tp_count()` (R53). -/
opaque Config.freeCount : Nat → PortStatus × Word

/-- An answer of `tp_receive()` (R53). -/
opaque Config.freeReceive : Nat → PortStatus × Event

/-- An answer of `stdreg_read`: status, algorithm id, device code (R54). -/
opaque Config.freeRegisters : Nat → PortStatus × Byte × Half

end Sys2Proof
end

