-- ==== Sys2Proof/Machine/State.lean ====
section
/-!
DEFINITION. The state of VSCP-CB as plain data: every register, flag, counter and memory of spec/10_state.md, the
pending moves of HOST, the scripted answers of the environment ports, and the state after reset. INVENTORY.md's
'## State' lists each field with its rule.
-/

namespace Sys2Proof.Machine

/-- Why the machine stops. HOST alone can cause one, by a move the spec gives it no right to; no command does. -/
inductive Fault where
  /-- Raised by a HOST memory move that touches bytes a busy unit is using: "What happens if HOST breaks (c) is undefined
  by this spec" (R79, U6). Safe: nothing is claimed of such a run. -/
  | hostTouchesBusyMemory
  /-- Raised by a HOST memory move outside the memory's addresses, or in the BUF of a cipher unit that does not exist
  (R60). Safe. -/
  | hostAddressOutside
  deriving DecidableEq, Repr

/-- Why an instruction has no meaning in the model. -/
inductive Refusal where
  /-- Raised by an arm of `exec` whose instruction has no meaning yet; no arm does. Safe. -/
  | notModelled (mnemonic : String)
  deriving DecidableEq, Repr

/-- The error codes 0 to 12; codes 13 to 255 are never produced (R250). -/
inductive ErrCode where
  | success
  | comm
  | timeout
  | nack
  | parameter
  | size
  | notSupported
  | invalidFrame
  | variant
  | length
  | range
  | state
  | illegalCmd
  deriving DecidableEq, Repr

/-- The nine session states (R109, R220). -/
inductive SessionState where
  | init
  | registersRead
  | bootModeRequested
  | bootModeConfirmed
  | blockStarted
  | blockWritten
  | blockProgrammed
  | rebooted
  | failed
  deriving DecidableEq, Repr

/-- The status messages (R240). -/
inductive MsgId where
  | initStart
  | regsRead
  | devcodeMismatch
  | bootRequested
  | bootConfirmed
  | regionStart
  | blockProgrammed
  | loadDone
  | failed
  deriving DecidableEq, Repr

/-- A status register's flags (R33). `WARN` is BS's alone and stands beside BS's flags; bits 7:5 have no storage. -/
structure Flags where
  busy : Bool
  done : Bool
  err  : Bool
  ovr  : Bool
  deriving DecidableEq, Repr

/-- Byte memory: (address, byte) pairs with rising addresses. An unlisted address has no value: in IMG it is
*unpopulated* (R63), in BUF and FWB nothing has written it (log entry 2). -/
abbrev Memory := List Host.Cell

/-- Where a cipher unit stands in the pseudocode of the command in progress (log entry 6), beside the counters of R31. -/
inductive CePhase where
  /-- no command in progress -/
  | idle
  /-- accepted; the operand checks come next (R160 phase 2), or the one step of `GEN_IV` -/
  | checks
  /-- inside `EXPAND_KEY`'s loop over `i` (R141) -/
  | expand
  /-- at the head of the loop over `off` (R160 phase 4) -/
  | block
  /-- inside `ENC_BLOCK` or `DEC_BLOCK` (R151, R153) -/
  | rounds
  /-- the block's `MemWrite` comes next (R163 to R169) -/
  | store
  deriving DecidableEq, Repr

/-- The random source as one cipher unit meets it (R51): the answers it will give to that unit, soonest first. Each unit has
its own, so that the units' steps share nothing (R275; log entries 4 and 23). -/
structure Rng where
  /-- coming answers of `rng_available()` -/
  available : List Bool
  /-- coming bytes of `rng_draw` -/
  bytes     : List Byte
  /-- index of the next free draw (the model's own) -/
  draws     : Nat
  deriving DecidableEq, Repr

/-- One cipher unit CE[k] with its operand registers (R21), control and status registers (R33, R34), sequencing state
(R31), workspace (R40 to R42) and its own BUF (R61). -/
structure CeUnit where
  /-- `CE_KEY[0..31]` -/
  key     : Vector Byte 32
  /-- `CE_IV[0..15]` -/
  iv      : Block
  /-- `CE_VARIANT` -/
  variant : Half
  /-- `CE_SRC` -/
  src     : Word
  /-- `CE_DST` -/
  dst     : Word
  /-- `CE_LEN` -/
  len     : Word
  /-- `CE_STATUS` -/
  flags   : Flags
  /-- `CE_ERR` -/
  err     : ErrCode
  /-- `CE_RESULT` -/
  result  : Word
  /-- `ce_cmd`, the command in progress -/
  cmd     : Byte
  /-- `Nk` -/
  nk      : Nat
  /-- `Nr` -/
  nr      : Nat
  /-- `i`, the word index of key expansion -/
  i       : Nat
  /-- `round` -/
  round   : Nat
  /-- `off`, held as `nat` -/
  off     : Nat
  /-- `W[0..59]`, the round-key schedule -/
  w       : Vector CWord 60
  /-- `S[0..15]`, the block state -/
  st      : Block
  /-- `CHAIN[0..15]` -/
  chain   : Block
  /-- `TMP[0..15]` -/
  tmp     : Block
  /-- the place in the command's pseudocode (log entry 6) -/
  phase   : CePhase
  /-- BUF of this unit -/
  buf     : Memory
  /-- the environment's random source, as this unit meets it (R51; no register) -/
  rng     : Rng
  deriving DecidableEq, Repr

/-- Which answer a response wait awaits; a start-block wait keeps the block number its ACK records (R182, R200). -/
inductive Await where
  | enterBoot
  | startBlock (n : Word)
  | blockData (k : Nat)
  | programBlock
  deriving DecidableEq, Repr

/-- Where BS stands in the pseudocode of the command in progress (log entry 6): the model's form of "the state that
decides what the unit does next" (R30) beside the registers of R32. -/
inductive BsPoint where
  /-- no command in progress -/
  | idle
  /-- accepted; the guard and the local checks come next (R180 phases 2 and 3) -/
  | checks
  /-- `DEV_INIT`: the register read comes next (R190) -/
  | readRegisters
  /-- `DEV_INIT`: the enter-bootloader request comes next (R190) -/
  | sendEnterBoot
  /-- `START_BLOCK_OP(n, m)` comes next (R200) -/
  | sendStartBlock (n : Word) (m : Byte)
  /-- `WRITE_CHUNK_OP` of chunk `k` comes next (R203, R206) -/
  | sendChunk (k : Nat)
  /-- `PROGRAM_BLOCK_OP(n)` comes next (R210) -/
  | sendProgramBlock (n : Word)
  /-- inside the loop of `CHECK_RESPONSE` (R182) -/
  | wait (a : Await)
  /-- `DEV_LOAD`: region `r` comes next, or the end of the load when `r` is 4 (R225) -/
  | loadRegion (r : Nat)
  deriving DecidableEq, Repr

/-- The bootloader sequencer BS with its operand registers (R22), control and status registers (R33, R35, R36),
sequencing state (R32) and the session's latched operands (R43). -/
structure BsUnit where
  /-- `BS_GUID[0..15]` -/
  guid          : Guid
  /-- `BS_NICKNAME` -/
  nickname      : Byte
  /-- `BS_PAGE` -/
  page          : Half
  /-- `BS_DEVCODE` -/
  devcode       : Half
  /-- `BS_TIMEOUT` -/
  timeout       : Word
  /-- `BS_CTRL` -/
  ctrl          : Byte
  /-- `BS_BLOCKNO` -/
  blockNo       : Word
  /-- `BS_MEMTYPE` -/
  memtype       : Byte
  /-- `BS_SRC` -/
  src           : Word
  /-- `BS_CHUNKLEN` -/
  chunkLen      : Word
  /-- `BS_STATUS` but for `WARN` -/
  flags         : Flags
  /-- `BS_STATUS.WARN` -/
  warn          : Bool
  /-- `BS_ERR` -/
  err           : ErrCode
  /-- `BS_STATE` -/
  state         : SessionState
  /-- `BS_BLOCKSIZE` -/
  blockSize     : Word
  /-- `BS_NUMBLOCKS` -/
  numBlocks     : Word
  /-- `BS_CHUNKSIZE` -/
  chunkSize     : Word
  /-- `BS_CHECKSUM` -/
  checksum      : Half
  /-- `BS_REGION` -/
  region        : Byte
  /-- `BS_BLOCKIDX` -/
  blockIdx      : Word
  /-- `BS_CURBLOCK` -/
  curBlock      : Word
  /-- `BS_CHUNKIDX` -/
  chunkIdx      : Word
  /-- `BS_REMOTE_ALG` -/
  remoteAlg     : Byte
  /-- `BS_REMOTE_DEVCODE` -/
  remoteDevcode : Half
  /-- `S_GUID[0..15]` -/
  sGuid         : Guid
  /-- `S_NICKNAME` -/
  sNickname     : Byte
  /-- `S_PAGE` -/
  sPage         : Half
  /-- `S_DEVCODE` -/
  sDevcode      : Half
  /-- `S_TIMEOUT` -/
  sTimeout      : Word
  /-- `S_CTRL` -/
  sCtrl         : Byte
  /-- `bs_cmd`, the command in progress -/
  cmd           : Byte
  /-- `bs_deadline_t0` -/
  deadlineT0    : Word
  /-- the place in the command's pseudocode (log entry 6) -/
  point         : BsPoint
  deriving DecidableEq, Repr

/-- The environment ports (R17, R50 to R55): for each port the answers it will give, soonest first, which a statement
about every state quantifies over (log entry 4); and what the block has handed out, oldest first (log entry 7). -/
structure Env where
  /-- TIMER's present count -/
  timer        : Word
  /-- TIMER's coming advances, one for each read (R50) -/
  ticks        : List Word
  /-- coming statuses of `tp_send` -/
  sendStatus   : List PortStatus
  /-- coming answers of `tp_count()` -/
  counts       : List (PortStatus × Word)
  /-- coming answers of `tp_receive()`: with `counts`, the transport's queue as BS meets it (R45, R53) -/
  receives     : List (PortStatus × Event)
  /-- coming answers of `stdreg_read` -/
  registers    : List (PortStatus × Byte × Half)
  /-- index of the next free draw (the model's own) -/
  draws        : Nat
  /-- events handed to `tp_send` -/
  sent         : List Event
  /-- messages handed to `status_emit`, each with its progress value -/
  messages     : List (Byte × MsgId)
  deriving DecidableEq, Repr

/-- A move of HOST, or time passing between two of them (R20, R37, R79, R99). How HOST reaches BUF, FWB and IMG "is not
specified" (R99): that it fills any number of bytes in one step, reads one byte in a step, and un-populates the whole of
IMG at once are DESIGN CHOICES (log entry 24). -/
inductive Move where
  /-- write a register; to a command register this issues a command (R92) -/
  | write (a : RegAddr) (v : Word)
  /-- read a register -/
  | read (a : RegAddr)
  /-- fill BUF of cipher unit `k` from an address -/
  | bufWrite (k : Nat) (a : Word) (bytes : List Byte)
  /-- read a byte of BUF of cipher unit `k` -/
  | bufRead (k : Nat) (a : Word)
  /-- fill FWB from an address -/
  | fwbWrite (a : Word) (bytes : List Byte)
  /-- read a byte of FWB, also while BS is busy (log entry 26) -/
  | fwbRead (a : Word)
  /-- populate IMG from an address -/
  | imgWrite (a : Word) (bytes : List Byte)
  /-- read an address of IMG: its byte, or that it is unpopulated (R20, R63), also while BS is busy (log entry 26) -/
  | imgRead (a : Word)
  /-- make every address of IMG unpopulated: DESIGN CHOICE, the spec names no way to un-populate one (log entry 24) -/
  | imgClear
  /-- `WAIT CE`: read `CE_STATUS` of unit `k` until `DONE = 1` (R99) -/
  | waitCe (k : Nat)
  /-- `WAIT BS`: read `BS_STATUS` until `DONE = 1` (R99) -/
  | waitBs
  /-- HOST makes no access while every busy unit takes one step -/
  | lapse
  /-- HOST makes no access while cipher unit `k` alone takes one step, if it is busy (R20) -/
  | lapseCe (k : Nat)
  /-- HOST makes no access while BS alone takes one step, if it is busy (R20) -/
  | lapseBs
  /-- the reset input (R290, R291) -/
  | reset
  deriving DecidableEq, Repr

/-- The whole machine. -/
structure State where
  /-- the parameters of the implementation (R10); no step changes them (log entry 1) -/
  params   : Params
  /-- the cipher units CE[0], CE[1], ... (R20, R275) -/
  ces      : List CeUnit
  /-- the bootloader sequencer -/
  bs       : BsUnit
  /-- FWB, the firmware staging buffer (R62) -/
  fwb      : Memory
  /-- IMG, the firmware image (R63) -/
  img      : Memory
  /-- the environment ports -/
  env      : Env
  /-- HOST's coming moves, next first (log entry 8) -/
  moves    : List Move
  /-- how many steps a unit takes after accepting a command before another agent moves (log entry 9) -/
  pace     : Nat
  /-- what HOST's last read returned; `none` for an unpopulated address of IMG (log entry 10) -/
  readData : Option Word
  deriving DecidableEq, Repr

/-- All flags clear (R57). -/
def Flags.reset : Flags := { busy := false, done := false, err := false, ovr := false }

/-- Sixteen zero bytes. -/
def zeroBlock : Block := Vector.replicate 16 0

/-- A schedule word of zeros. -/
def zeroWord : CWord := Vector.replicate 4 0

/-- A cipher unit after reset, but for BUF and the environment, which reset does not touch (R57). -/
def CeUnit.reset (rng : Rng) (buf : Memory) : CeUnit :=
  { key := Vector.replicate 32 0, iv := zeroBlock, variant := 0, src := 0, dst := 0, len := 0,
    flags := Flags.reset, err := .success, result := 0,
    cmd := 0, nk := 0, nr := 0, i := 0, round := 0, off := 0,
    w := Vector.replicate 60 zeroWord, st := zeroBlock, chain := zeroBlock, tmp := zeroBlock,
    phase := .idle, buf := buf, rng := rng }

/-- BS after reset: every register 0, `BS_STATE = Init`, but for `BS_TIMEOUT` (R57). -/
def BsUnit.reset (defaultTimeoutMs : Word) : BsUnit :=
  { guid := Vector.replicate 16 0, nickname := 0, page := 0, devcode := 0, timeout := defaultTimeoutMs,
    ctrl := 0, blockNo := 0, memtype := 0, src := 0, chunkLen := 0,
    flags := Flags.reset, warn := false, err := .success,
    state := .init, blockSize := 0, numBlocks := 0, chunkSize := 0, checksum := 0,
    region := 0, blockIdx := 0, curBlock := 0, chunkIdx := 0, remoteAlg := 0, remoteDevcode := 0,
    sGuid := Vector.replicate 16 0, sNickname := 0, sPage := 0, sDevcode := 0, sTimeout := 0, sCtrl := 0,
    cmd := 0, deadlineT0 := 0, point := .idle }

/-- The environment at power-on: nothing scripted, nothing handed out. -/
def Env.powerOn : Env :=
  { timer := Config.powerOnTimer, ticks := [], sendStatus := [], counts := [], receives := [], registers := [],
    draws := 0, sent := [], messages := [] }

/-- The random source at power-on: nothing scripted. -/
def Rng.powerOn : Rng := { available := [], bytes := [], draws := 0 }

/-- The machine right after reset at power-on (R57, R290): both kinds of unit idle, nothing written to the memories,
no HOST move pending. -/
def State.reset : State :=
  { params := Config.params
    ces := List.replicate (Config.params.moreCe + 1) (CeUnit.reset Rng.powerOn [])
    bs := BsUnit.reset Config.params.defaultTimeoutMs
    fwb := []
    img := []
    env := Env.powerOn
    moves := []
    pace := 4096
    readData := some 0 }

end Sys2Proof.Machine
end

