-- ==== Sys2Proof/Machine/Flags.lean ====
section
/-!
DEFINITION. The status flags: what accepting, completing and overrunning a command does to them (spec/10_state.md R33,
spec/30_encoding.md R92), and the codes HOST reads (R33, R109, R240, R250).
-/

namespace Sys2Proof.Machine

/-- The accept step: "clears `DONE`, `ERR` and `OVR`, sets `BUSY`" (R92). -/
def Flags.accept (_ : Flags) : Flags := { busy := true, done := false, err := false, ovr := false }

/-- Completion, with success or failure: `BUSY` clear, `DONE` set, `ERR` for a failure; `OVR` stays (R33). -/
def Flags.complete (f : Flags) (failed : Bool) : Flags :=
  { busy := false, done := true, err := failed, ovr := f.ovr }

/-- A write to the command register of a busy unit "does nothing except set `OVR`" (R92). -/
def Flags.overrun (f : Flags) : Flags := { f with ovr := true }

/-- One bit as a byte. -/
def bitByte (b : Bool) (k : Nat) : Byte := if b then BitVec.ofNat 8 (2 ^ k) else 0

/-- The status register as HOST reads it: bit 0 `BUSY`, 1 `DONE`, 2 `ERR`, 3 `WARN`, 4 `OVR`, 7:5 zero (R33, R98). -/
def Flags.toByte (f : Flags) (warn : Bool) : Byte :=
  bitByte f.busy 0 ||| bitByte f.done 1 ||| bitByte f.err 2 ||| bitByte warn 3 ||| bitByte f.ovr 4

/-- The number of an error code (R250). -/
def ErrCode.toByte : ErrCode → Byte
  | .success => 0
  | .comm => 1
  | .timeout => 2
  | .nack => 3
  | .parameter => 4
  | .size => 5
  | .notSupported => 6
  | .invalidFrame => 7
  | .variant => 8
  | .length => 9
  | .range => 10
  | .state => 11
  | .illegalCmd => 12

/-- The number of a session state (R109). -/
def SessionState.toByte : SessionState → Byte
  | .init => 0
  | .registersRead => 1
  | .bootModeRequested => 2
  | .bootModeConfirmed => 3
  | .blockStarted => 4
  | .blockWritten => 5
  | .blockProgrammed => 6
  | .rebooted => 7
  | .failed => 8

/-- The id of a status message (R240). -/
def MsgId.toByte : MsgId → Byte
  | .initStart => 1
  | .regsRead => 2
  | .devcodeMismatch => 3
  | .bootRequested => 4
  | .bootConfirmed => 5
  | .regionStart => 6
  | .blockProgrammed => 7
  | .loadDone => 8
  | .failed => 9

end Sys2Proof.Machine
end

