-- ==== Sys2Proof/Machine/Ops.lean ====
section
/-!
DEFINITION. The shared operations: bytes of memory (spec/00_scope.md R15), the environment ports (R17,
spec/10_state.md R50 to R56), accepting a command, completing it, refusing it and raising in it (R16, spec/30_encoding.md
R92, spec/60_exceptions.md R262 to R264), and the send helper (spec/44_bootloader_steps.md R181, R186).
-/

namespace Sys2Proof.Machine

/-! ## Memory -/

/-- The form every memory has: addresses strictly rising, so that equal memories are equal lists. -/
abbrev Memory.wf (m : Memory) : Prop := m.Pairwise fun x y => x.1 < y.1

/-- The byte at an address, if it has a value. -/
def Memory.read? : Memory → Nat → Option Byte
  | [], _ => none
  | (b, v) :: m, a => if a = b then some v else Memory.read? m a

/-- Give an address a byte. -/
def Memory.write : Memory → Nat → Byte → Memory
  | [], a, v => [(a, v)]
  | (b, u) :: m, a, v =>
    if a < b then (a, v) :: (b, u) :: m
    else if a = b then (a, v) :: m
    else (b, u) :: Memory.write m a v

/-- `MemWrite`: the bytes to rising addresses, `v[0]` to `a` (R15). -/
def Memory.writeBytes : Memory → Nat → List Byte → Memory
  | m, _, [] => m
  | m, a, v :: vs => Memory.writeBytes (Memory.write m a v) (a + 1) vs

/-- A byte of BUF or FWB: what was written there last, else the byte's free content (R57, U14; log entry 2). -/
def byteAt (sp : Space) (m : Memory) (a : Nat) : Byte := (m.read? a).getD (Config.unwrittenByte sp a)

/-- `MemRead(space, a, n)`: lowest address first (R15). -/
def memRead (sp : Space) (m : Memory) (a n : Nat) : List Byte := (List.range n).map fun j => byteAt sp m (a + j)

/-- `MemRead(BUF, a, 16)` (R72). -/
def readBlock (sp : Space) (m : Memory) (a : Nat) : Block := Vector.ofFn fun j => byteAt sp m (a + j.val)

/-- `MemWrite(BUF, a, 16, b)` (R72). -/
def writeBlock (m : Memory) (a : Nat) (b : Block) : Memory := m.writeBytes a b.toList

/-! ## Environment ports

Each takes the next scripted answer, or draws a free one when none is left. -/

/-- `now()`: the count after its next advance (R50). -/
def Env.now (e : Env) : Word × Env :=
  match e.ticks with
  | d :: ds => (e.timer + d, { e with timer := e.timer + d, ticks := ds })
  | [] =>
    (e.timer + Config.freeTick e.draws,
      { e with timer := e.timer + Config.freeTick e.draws, draws := e.draws + 1 })

/-- `rng_available()`, asked by cipher unit `k` (R51). -/
def Rng.isAvailable (k : Nat) (r : Rng) : Bool × Rng :=
  match r.available with
  | b :: bs => (b, { r with available := bs })
  | [] => (Config.freeRngAvailable k r.draws, { r with draws := r.draws + 1 })

/-- One byte of `rng_draw` (R51). -/
def Rng.byte (k : Nat) (r : Rng) : Byte × Rng :=
  match r.bytes with
  | b :: bs => (b, { r with bytes := bs })
  | [] => (Config.freeRngByte k r.draws, { r with draws := r.draws + 1 })

/-- `rng_draw(n)`, asked by cipher unit `k` (R51). -/
def Rng.draw (k : Nat) : Nat → Rng → List Byte × Rng
  | 0, r => ([], r)
  | n + 1, r =>
    let b := r.byte k
    let rest := Rng.draw k n b.2
    (b.1 :: rest.1, rest.2)

/-- `tp_send(ev)`: the event goes to the transport, which returns a status (R52). -/
def Env.tpSend (e : Env) (ev : Event) : PortStatus × Env :=
  match e.sendStatus with
  | st :: sts => (st, { e with sendStatus := sts, sent := e.sent ++ [ev] })
  | [] => (Config.freeSendStatus e.draws, { e with draws := e.draws + 1, sent := e.sent ++ [ev] })

/-- `tp_count()` (R53). -/
def Env.tpCount (e : Env) : (PortStatus × Word) × Env :=
  match e.counts with
  | c :: cs => (c, { e with counts := cs })
  | [] => (Config.freeCount e.draws, { e with draws := e.draws + 1 })

/-- `tp_receive()`: it "removes that event from the transport's queue" (R53). -/
def Env.tpReceive (e : Env) : (PortStatus × Event) × Env :=
  match e.receives with
  | r :: rs => (r, { e with receives := rs })
  | [] => (Config.freeReceive e.draws, { e with draws := e.draws + 1 })

/-- `stdreg_read(guid)` (R54). -/
def Env.stdregRead (e : Env) (_guid : Guid) : (PortStatus × Byte × Half) × Env :=
  match e.registers with
  | r :: rs => (r, { e with registers := rs })
  | [] => (Config.freeRegisters e.draws, { e with draws := e.draws + 1 })

/-- `status_emit(progress, msg)` (R55). -/
def Env.statusEmit (e : Env) (progress : Byte) (m : MsgId) : Env :=
  { e with messages := e.messages ++ [(progress, m)] }

/-- `crc16_bytes(c, bs)` "folds it over a byte sequence, first byte first" (R56). -/
def crc16Bytes (c : Half) (bytes : List Byte) : Half := bytes.foldl Config.crc16Step c

/-! ## A command of a cipher unit -/

/-- The accept step of a cipher unit: flags, and `ce_cmd` (R92). The operands are latched by the rule that HOST's writes
to a busy unit are ignored (R23). -/
def CeUnit.accept (c : Byte) (u : CeUnit) : CeUnit := 
  { u with flags := u.flags.accept, cmd := c, phase := .checks }

/-- The epilogue of every CE command: zero to the workspace and the counters, then the error code, the result count and
the flags (R173). -/
def CeUnit.finish (e : ErrCode) (result : Word) (u : CeUnit) : CeUnit :=
  { u with
    w := Vector.replicate 60 zeroWord, st := zeroBlock, chain := zeroBlock, tmp := zeroBlock,
    nk := 0, nr := 0, i := 0, round := 0, off := 0, cmd := 0, phase := .idle,
    err := e, result := result, flags := u.flags.complete (e ≠ .success) }

/-- `complete(v)` (R16, R173). -/
def CeUnit.complete (result : Word) (u : CeUnit) : CeUnit := u.finish .success result

/-- `refuse E` in a cipher unit: the failure entry of R262, `CE_RESULT <- 0`. -/
def CeUnit.refuse (e : ErrCode) (u : CeUnit) : CeUnit := u.finish e 0

/-- Apply a change to cipher unit `k`. A unit that does not exist has no registers, so nothing happens (R37). -/
def State.onCe (s : State) (k : Nat) (f : CeUnit → CeUnit) : State :=
  match s.ces[k]? with
  | none => s
  | some u => { s with ces := s.ces.set k (f u) }

/-! ## A command of the bootloader sequencer

BS and the environment it talks to change together. -/

/-- BS and the environment. -/
abbrev BsWorld := BsUnit × Env

/-- Put BS at a place of its command's pseudocode. -/
def BsWorld.goto (x : BsWorld) (pt : BsPoint) : BsWorld := ({ x.1 with point := pt }, x.2)

/-- The accept step of BS: flags, and `bs_cmd` (R92). -/
def BsUnit.accept (c : Byte) (b : BsUnit) : BsUnit := { b with flags := b.flags.accept, cmd := c }

/-- The end of a BS command: `BS_ERR`, the flags, no command in progress. -/
def BsUnit.finish (e : ErrCode) (b : BsUnit) : BsUnit :=
  { b with err := e, flags := b.flags.complete (e ≠ .success), cmd := 0, point := .idle }

/-- `status(p, m)`: emitted when `S_CTRL.STATUS_EN = 1`, else nothing (R186). -/
def BsWorld.status (x : BsWorld) (progress : Byte) (m : MsgId) : BsWorld :=
  (x.1, if x.1.sCtrl.getLsbD 3 then x.2.statusEmit progress m else x.2)

/-- The progress value -1 of a milestone (R241). -/
def milestone : Byte := 0xFF

/-- `complete` in BS: `BS_ERR <- SUCCESS` (R16). -/
def BsWorld.complete (x : BsWorld) : BsWorld := (x.1.finish .success, x.2)

/-- `refuse E` in BS: nothing but the error report (R264). -/
def BsWorld.refuse (e : ErrCode) (x : BsWorld) : BsWorld := (x.1.finish e, x.2)

/-- `raise E` in BS: `BS_STATE <- Failed`, the error report, and `status(-1, MSG_FAILED)` (R263). -/
def BsWorld.raise (e : ErrCode) (x : BsWorld) : BsWorld :=
  BsWorld.status ({ x.1 with state := .failed }.finish e, x.2) milestone .failed

/-- The event of a request: "`timestamp = 0` and `guid = S_GUID`" (R100, R181). An event holds at most 512 payload bytes
(R9); a session's chunks are never longer, and a longer list is cut to its first 512 (log entry 17). -/
def requestEvent (p : Params) (b : BsUnit) (typ : Half) (payload : List Byte) : Event :=
  { cls := p.classProtocol, typ := typ, timestamp := 0, guid := b.sGuid,
    len := ⟨min 512 payload.length, by omega⟩, data := ⟨(payload.take 512).toArray, by simp⟩ }

/-- `send_req(type, payload)` and what follows it: a status other than `TP_OK` is `raise ERR_COMM` (R181). -/
def BsWorld.sendReq (p : Params) (typ : Half) (payload : List Byte) (x : BsWorld) (next : BsWorld → BsWorld) :
    BsWorld :=
  let r := x.2.tpSend (requestEvent p x.1 typ payload)
  if r.1 = .ok then next (x.1, r.2) else BsWorld.raise .comm (x.1, r.2)

/-- Entry to `CHECK_RESPONSE`: `bs_deadline_t0 <- now()` (R182). -/
def BsWorld.enterWait (a : Await) (x : BsWorld) : BsWorld :=
  ({ x.1 with deadlineT0 := x.2.now.1, point := .wait a }, x.2.now.2)

/-- Apply a change to BS and the environment. -/
def State.onBs (s : State) (f : BsWorld → BsWorld) : State :=
  { s with bs := (f (s.bs, s.env)).1, env := (f (s.bs, s.env)).2 }

end Sys2Proof.Machine
end

