-- ==== Sys2Proof/Machine/Operands.lean ====
section
/-!
DEFINITION. The operand forms: the variant (spec/00_scope.md R8, spec/30_encoding.md R95), base register plus running
offset in BUF and FWB with their range checks (spec/20_memory.md R77), the fields of `BS_CTRL` (spec/10_state.md R36),
the chunks of a block (spec/44_bootloader_steps.md R206), the image as `DEV_LOAD` reads it (spec/45_bootloader_load.md
R226 to R229), and the wire payloads (R14, R101 to R105).
-/

namespace Sys2Proof.Machine

/-- `ceil_div(a, b) = (a + b - 1) div b` in `nat` (R13). The rule asks for `b > 0`; log entry 11 says where 0 could
come in. -/
def ceilDiv (a b : Nat) : Nat := (a + b - 1) / b

/-! ## Cipher operands -/

/-- The two constants a variant fixes (R8). -/
structure Variant where
  nk : Nat
  nr : Nat
  deriving DecidableEq, Repr

/-- The row of R8 that `CE_VARIANT` selects; "every other 16-bit value, 0 included, is invalid variant" (R95). -/
def variantOf (v : Half) : Option Variant :=
  match v.toNat with
  | 128 => some { nk := 4, nr := 10 }
  | 192 => some { nk := 6, nr := 12 }
  | 256 => some { nk := 8, nr := 14 }
  | _ => none

/-- Word `j` of the key: bytes `4j` to `4j+3` of `CE_KEY` (R66). -/
def keyWord (key : Vector Byte 32) (j : Nat) : CWord := Vector.ofFn fun b => key.getD (4 * j + b.val) 0

/-- `a + n <= size` in `nat` (R77). -/
def inRange (a n : Word) (size : Nat) : Bool := a.toNat + n.toNat ≤ size

/-- The checks (a), (b), (c) of a cipher command, in that order: the code of the first that fails, or the variant's
constants (R161, R258). -/
def cipherChecks (p : Params) (u : CeUnit) : Except ErrCode Variant :=
  match variantOf u.variant with
  | none => .error .variant
  | some v =>
    if u.len.toNat % 16 ≠ 0 then .error .length
    else if inRange u.src u.len p.bufSize.val && inRange u.dst u.len p.bufSize.val then .ok v
    else .error .range

/-- Does the command a busy cipher unit runs read this BUF byte (R79, R300)? `GEN_IV` reads none; a cipher command is taken
to read its whole source range from accept to completion, before its checks have run as after (DESIGN CHOICE, log entry
25). -/
def CeUnit.reads (u : CeUnit) (a : Nat) : Bool :=
  u.cmd ≠ 5 && u.src.toNat ≤ a && a < u.src.toNat + u.len.toNat

/-- Does the command a busy cipher unit runs write this BUF byte (R79, R300)? It is taken to write its whole destination
range from accept to completion, also if its checks will refuse it or `GEN_IV` will find no source (DESIGN CHOICE, log
entry 25). -/
def CeUnit.writes (u : CeUnit) (a : Nat) : Bool := u.dst.toNat ≤ a && a < u.dst.toNat + u.len.toNat

/-! ## Bootloader operands -/

/-- `ADDRMODE` of `BS_CTRL` (R36). -/
def addrMode (ctrl : Byte) : Bool := ctrl.getLsbD 0

/-- `ABORT_MISMATCH` of `BS_CTRL` (R36). -/
def abortMismatch (ctrl : Byte) : Bool := ctrl.getLsbD 1

/-- `ABORT_FWCODE` of `BS_CTRL` (R36). -/
def abortFwcode (ctrl : Byte) : Bool := ctrl.getLsbD 2

/-- `STATUS_EN` of `BS_CTRL` (R36). -/
def statusEn (ctrl : Byte) : Bool := ctrl.getLsbD 3

/-- A write to `BS_CTRL`: bits 7:4 "read 0 and writes to them are ignored" (R36). -/
def ctrlWrite (v : Byte) : Byte := v &&& 0x0F

/-- The chunk size of an addressing mode: 8 for nickname-addressed nodes, 512 for GUID-addressed nodes (R9, R191). -/
def chunkSizeOf (ctrl : Byte) : Word := if addrMode ctrl then 512 else 8

/-- `DEV_LOAD` "re-latches only `S_CTRL.ABORT_FWCODE` and `S_CTRL.STATUS_EN` from `BS_CTRL`" (R43). -/
def relatchCtrl (sCtrl ctrl : Byte) : Byte := (sCtrl &&& 0xF3) ||| (ctrl &&& 0x0C)

/-- How many chunks a block has: `ceil_div(BS_BLOCKSIZE, BS_CHUNKSIZE)` (R207). -/
def chunkCount (b : BsUnit) : Nat := ceilDiv b.blockSize.toNat b.chunkSize.toNat

/-- Where chunk `k` begins in its block: `k * BS_CHUNKSIZE` (R206). -/
def chunkLo (b : BsUnit) (k : Nat) : Nat := k * b.chunkSize.toNat

/-- Where chunk `k` ends in its block: `min(lo + BS_CHUNKSIZE, BS_BLOCKSIZE)`, exclusive (R206). -/
def chunkHi (b : BsUnit) (k : Nat) : Nat := min (chunkLo b k + b.chunkSize.toNat) b.blockSize.toNat

/-! ## The image -/

/-- The descriptor of region `r` (R64). -/
def regionOf (p : Params) (r : Nat) : Region := p.regions.getD r default

/-- Is the address in the region, both ends included (R64)? -/
def regionHolds (g : Region) (a : Nat) : Bool := g.first.toNat ≤ a && a ≤ g.last.toNat

/-- `FW_r(a)`: the image's byte if the address is in the region and populated, else the erase value `0xFF` (R226). -/
def fwByte (img : Memory) (g : Region) (a : Nat) : Byte :=
  if regionHolds g a then (img.read? a).getD 0xFF else 0xFF

/-- The addresses of `P_r`: populated and in the region (R227). -/
def populated (img : Memory) (g : Region) : List Nat := (img.filter fun c => regionHolds g c.1).map fun c => c.1

/-- `span(r)`: the lowest address of `P_r` and the highest plus 1, or none when `P_r` is empty (R227). -/
def span (img : Memory) (g : Region) : Option (Nat × Nat) :=
  match populated img g with
  | [] => none
  | a :: as => some (as.foldl min a, as.foldl max a + 1)

/-- The first block's address and the block count of a written span (R228). -/
def loadBlocks (blockSize lo hi : Nat) : Nat × Nat :=
  (lo - lo % blockSize, ceilDiv (hi - (lo - lo % blockSize)) blockSize)

/-! ## Wire payloads -/

/-- `be32(b0, b1, b2, b3)` (R14). -/
def be32 (b0 b1 b2 b3 : Byte) : Word := b0 ++ b1 ++ b2 ++ b3

/-- `be32_bytes(v)` (R14). -/
def be32Bytes (v : Word) : List Byte :=
  [v.extractLsb' 24 8, v.extractLsb' 16 8, v.extractLsb' 8 8, v.extractLsb' 0 8]

/-- Enter-bootloader request (R101). -/
def enterBootPayload (p : Params) (b : BsUnit) : List Byte :=
  [b.sNickname, p.expectedBootAlgorithm, b.sGuid[0], b.sGuid[3], b.sGuid[5], b.sGuid[7],
    b.sPage.extractLsb' 8 8, b.sPage.extractLsb' 0 8]

/-- Start-block request: block number, memory type, three zero bytes (R103). -/
def startBlockPayload (n : Word) (m : Byte) : List Byte := be32Bytes n ++ [m, 0, 0, 0]

/-- Program-block request: the block number (R104). -/
def programBlockPayload (n : Word) : List Byte := be32Bytes n

/-- `blockSize` of an enter-bootloader ACK (R102). The caller has checked that the payload has 8 bytes (R194). -/
def ackBlockSize (data : List Byte) : Word :=
  be32 (data.getD 0 0) (data.getD 1 0) (data.getD 2 0) (data.getD 3 0)

/-- `numBlocks` of an enter-bootloader ACK (R102). -/
def ackNumBlocks (data : List Byte) : Word :=
  be32 (data.getD 4 0) (data.getD 5 0) (data.getD 6 0) (data.getD 7 0)

end Sys2Proof.Machine
end

