-- ==== Sys2Proof/Machine/BootSteps.lean ====
section
/-!
DEFINITION. The bootloader's micro-operations and step commands (spec/44_bootloader_steps.md) and the load driver
(spec/45_bootloader_load.md). BS runs its command in steps, each ending where a port call or a poll comes next; `exec`
accepts the command and lets BS take `pace` steps (log entry 9).
-/

namespace Sys2Proof.Machine

/-! ## START_BLOCK_OP, WRITE_CHUNK_OP, PROGRAM_BLOCK_OP up to their waits -/

/-- The request of `START_BLOCK_OP(n, m)` (R200). -/
def startBlockSend (p : Params) (n : Word) (m : Byte) (x : BsWorld) : BsWorld :=
  x.sendReq p p.typeStartBlock (startBlockPayload n m) (BsWorld.enterWait (.startBlock n))

/-- `WRITE_CHUNK_OP(data)` up to its wait: the size check, the checksum, the event (R203). `k` is the chunk's number. -/
def writeChunkSend (p : Params) (k : Nat) (data : List Byte) (x : BsWorld) : BsWorld :=
  if x.1.chunkSize.toNat < data.length then x.raise .size
  else BsWorld.sendReq p p.typeBlockData data
    ({ x.1 with checksum := crc16Bytes x.1.checksum data }, x.2) (BsWorld.enterWait (.blockData k))

/-- The request of `PROGRAM_BLOCK_OP(n)` (R210). -/
def programBlockSend (p : Params) (n : Word) (x : BsWorld) : BsWorld :=
  x.sendReq p p.typeProgramBlock (programBlockPayload n) (BsWorld.enterWait .programBlock)

/-! ## What DEV_LOAD does between the block operations -/

/-- The blocks of the region `DEV_LOAD` is at: first address and count, none for a region without data (R227, R228). -/
def currentBlocks (p : Params) (img : Memory) (b : BsUnit) : Option (Nat × Nat) :=
  (span img (regionOf p b.region.toNat)).map fun r => loadBlocks b.blockSize.toNat r.1 r.2

/-- The address of the region's block `BS_BLOCKIDX`: `start + k * BS_BLOCKSIZE` in `nat` (R225). -/
def currentBlockAddr (p : Params) (img : Memory) (b : BsUnit) : Nat :=
  ((currentBlocks p img b).getD (0, 0)).1 + b.blockIdx.toNat * b.blockSize.toNat

/-- The block number: `a div BS_BLOCKSIZE` (R229). -/
def currentBlockNo (p : Params) (img : Memory) (b : BsUnit) : Word :=
  BitVec.ofNat 32 (currentBlockAddr p img b / b.blockSize.toNat)

/-- On to `START_BLOCK_OP` of the region's block `BS_BLOCKIDX` (R225). -/
def loadNextBlock (p : Params) (img : Memory) (x : BsWorld) : BsWorld :=
  x.goto (.sendStartBlock (currentBlockNo p img x.1) (regionOf p x.1.region.toNat).memtype)

/-- The head of `DEV_LOAD`'s loop over regions at `r`, and its end at `r = 4` (R225, R231). -/
def loadRegion (p : Params) (img : Memory) (r : Nat) (x : BsWorld) : BsWorld :=
  if r < 4 then
    let y : BsWorld := ({ x.1 with region := BitVec.ofNat 8 r, blockIdx := 0 }, x.2)
    match currentBlocks p img y.1 with
    | none => y.goto (.loadRegion (r + 1))
    | some _ => loadNextBlock p img (y.status milestone .regionStart)
  else
    let y : BsWorld := ({ x.1 with region := 4, state := .rebooted }, x.2)
    (y.status 100 .loadDone).complete

/-- The progress value of a block: `(100 * (k + 1)) div nblk` (R241). -/
def progressOf (done nblk : Nat) : Byte := BitVec.ofNat 8 ((100 * done) / nblk)

/-- After `PROGRAM_BLOCK_OP` in `DEV_LOAD`: `BS_BLOCKIDX <- k + 1`, the progress message, the next block or the next
region (R225). -/
def loadBlockDone (p : Params) (img : Memory) (x : BsWorld) : BsWorld :=
  let nblk := ((currentBlocks p img x.1).getD (0, 0)).2
  let k1 := x.1.blockIdx.toNat + 1
  let y : BsWorld := BsWorld.status ({ x.1 with blockIdx := x.1.blockIdx + 1 }, x.2) (progressOf k1 nblk) .blockProgrammed
  if k1 < nblk then loadNextBlock p img y else y.goto (.loadRegion (x.1.region.toNat + 1))

/-! ## The data of a chunk -/

/-- Bytes `lo` to `hi - 1` of the current block of `DEV_LOAD` (R225, R226). -/
def loadChunkData (p : Params) (img : Memory) (b : BsUnit) (k : Nat) : List Byte :=
  (List.range (chunkHi b k - chunkLo b k)).map fun j =>
    fwByte img (regionOf p b.region.toNat) (currentBlockAddr p img b + chunkLo b k + j)

/-- What chunk `k` of the command in progress carries: FWB at `BS_SRC` for `CHUNK_WRITE` (R204) and for chunk `k` of
`BLK_WRITE` (R206), the image for `DEV_LOAD` (R225). -/
def chunkData (p : Params) (fwb img : Memory) (b : BsUnit) (k : Nat) : List Byte :=
  match b.cmd.toNat with
  | 0x13 => memRead .fwb fwb b.src.toNat b.chunkLen.toNat
  | 0x12 => memRead .fwb fwb (b.src.toNat + chunkLo b k) (chunkHi b k - chunkLo b k)
  | _ => loadChunkData p img b k

/-! ## After an ACK -/

/-- A start-block request is acknowledged (R200). -/
def blockAcknowledged (n : Word) (b : BsUnit) : BsUnit :=
  { b with curBlock := n, chunkIdx := 0, state := .blockStarted }

/-- After `START_BLOCK_OP`: `BLK_START` is complete, `DEV_LOAD` goes on to the block's chunks (R200, R225). -/
def afterStartBlock (n : Word) (x : BsWorld) : BsWorld :=
  let y : BsWorld := (blockAcknowledged n x.1, x.2)
  match y.1.cmd.toNat with
  | 0x11 => y.complete
  | _ => if 0 < chunkCount y.1 then y.goto (.sendChunk 0) else y.goto (.sendProgramBlock n)

/-- A chunk is acknowledged: the count, and `BlockWritten` at the last chunk (R203). -/
def chunkAcknowledged (b : BsUnit) : BsUnit :=
  { b with
    chunkIdx := b.chunkIdx + 1
    state := if (b.chunkIdx + 1).toNat = chunkCount b then .blockWritten else b.state }

/-- After `WRITE_CHUNK_OP` of chunk `k`: `CHUNK_WRITE` is complete, `BLK_WRITE` and `DEV_LOAD` go on with their loop over
chunks (R204, R206, R225). -/
def afterChunk (k : Nat) (x : BsWorld) : BsWorld :=
  let y : BsWorld := (chunkAcknowledged x.1, x.2)
  match y.1.cmd.toNat with
  | 0x13 => y.complete
  | 0x12 => if k + 1 < chunkCount y.1 then y.goto (.sendChunk (k + 1)) else y.complete
  | _ => if k + 1 < chunkCount y.1 then y.goto (.sendChunk (k + 1)) else y.goto (.sendProgramBlock y.1.curBlock)

/-- A program-block request is acknowledged (R210). -/
def programAcknowledged (b : BsUnit) : BsUnit := { b with state := .blockProgrammed }

/-- After `PROGRAM_BLOCK_OP`: `BLK_PROGRAM` is complete, `DEV_LOAD` goes on to the next block or region (R210,
R225). -/
def afterProgramBlock (p : Params) (img : Memory) (x : BsWorld) : BsWorld :=
  let y : BsWorld := (programAcknowledged x.1, x.2)
  match y.1.cmd.toNat with
  | 0x14 => y.complete
  | _ => loadBlockDone p img y

/-- `DEV_INIT` after its wait: parsing the ACK, the size invariant, the confirmed session (R190, R194, R195). -/
def afterEnterBoot (ev : Event) (x : BsWorld) : BsWorld :=
  if ev.len.val < 8 then x.raise .invalidFrame
  else
    let y : BsWorld :=
      ({ x.1 with blockSize := ackBlockSize ev.payload, numBlocks := ackNumBlocks ev.payload }, x.2)
    if y.1.blockSize.toNat < y.1.chunkSize.toNat then y.raise .size
    else (BsWorld.status ({ y.1 with state := .bootModeConfirmed }, y.2) milestone .bootConfirmed).complete

/-- The command goes on with the matching event of its wait (R182). -/
def afterAck (p : Params) (img : Memory) (a : Await) (ev : Event) (x : BsWorld) : BsWorld :=
  match a with
  | .enterBoot => afterEnterBoot ev x
  | .startBlock n => afterStartBlock n x
  | .blockData k => afterChunk k x
  | .programBlock => afterProgramBlock p img x

/-! ## CHECK_RESPONSE -/

/-- `ackType` of a wait (R190, R200, R203, R210). -/
def ackType (p : Params) : Await → Half
  | .enterBoot => p.typeEnterBootAck
  | .startBlock _ => p.typeStartBlockAck
  | .blockData _ => p.typeBlockDataAck
  | .programBlock => p.typeProgramBlockAck

/-- `nackType` of a wait (R190, R200, R203, R210). -/
def nackType (p : Params) : Await → Half
  | .enterBoot => p.typeEnterBootNack
  | .startBlock _ => p.typeStartBlockNack
  | .blockData _ => p.typeBlockDataNack
  | .programBlock => p.typeProgramBlockNack

/-- The verdict on a received event (R183). -/
inductive Verdict where
  | ack
  | nack
  | dropped
  deriving DecidableEq, Repr

/-- Classification: class and GUID must match, the ACK type is tested before the NACK type (R182, R183). -/
def classify (p : Params) (a : Await) (sGuid : Guid) (ev : Event) : Verdict :=
  if ev.cls = p.classProtocol ∧ ev.guid = sGuid then
    if ev.typ = ackType p a then .ack
    else if ev.typ = nackType p a then .nack
    else .dropped
  else .dropped

/-- The deadline test that ends an iteration: strict, modulo 2^32 (R184). -/
def deadlineTest (x : BsWorld) : BsWorld :=
  let t := x.2.now
  if x.1.sTimeout.toNat < (t.1 - x.1.deadlineT0).toNat then BsWorld.raise .timeout (x.1, t.2) else (x.1, t.2)

/-- One iteration of `CHECK_RESPONSE`'s loop (R182, R185): at most one event is received, and it is classified before
the deadline is tested. -/
def checkResponse (p : Params) (img : Memory) (a : Await) (x : BsWorld) : BsWorld :=
  let c := x.2.tpCount
  if c.1.1 = .ok ∧ c.1.2 ≠ 0 then
    let r := c.2.tpReceive
    if r.1.1 = .ok then
      match classify p a x.1.sGuid r.1.2 with
      | .ack => afterAck p img a r.1.2 (x.1, r.2)
      | .nack => BsWorld.raise .nack (x.1, r.2)
      | .dropped => deadlineTest (x.1, r.2)
    else deadlineTest (x.1, r.2)
  else deadlineTest (x.1, c.2)

/-! ## DEV_INIT -/

/-- `session_clear ; latch`, and the chunk size of the addressing mode (R191, R43). -/
def sessionOpen (p : Params) (b : BsUnit) : BsUnit :=
  { b with
    state := .init, blockSize := 0, numBlocks := 0, region := 0, blockIdx := 0, curBlock := 0, chunkIdx := 0,
    remoteAlg := 0, remoteDevcode := 0, checksum := p.crc16Init, warn := false,
    sGuid := b.guid, sNickname := b.nickname, sPage := b.page, sDevcode := b.devcode,
    sTimeout := b.timeout, sCtrl := b.ctrl, chunkSize := chunkSizeOf b.ctrl,
    point := .readRegisters }

/-- `DEV_INIT`'s two checks on the registers read: the algorithm first, then the device code (R192, R193). -/
def devInitCompare (p : Params) (y : BsWorld) : BsWorld :=
  if y.1.remoteAlg ≠ p.expectedBootAlgorithm then y.raise .notSupported
  else if y.1.remoteDevcode ≠ y.1.sDevcode then
    if abortMismatch y.1.sCtrl then y.raise .parameter
    else (BsWorld.status ({ y.1 with warn := true }, y.2) milestone .devcodeMismatch).goto .sendEnterBoot
  else y.goto .sendEnterBoot

/-- `DEV_INIT`'s register read (R190, R192). -/
def devInitRead (p : Params) (x : BsWorld) : BsWorld :=
  let y := x.status milestone .initStart
  let r := y.2.stdregRead y.1.sGuid
  if r.1.1 = .ok then
    devInitCompare p (BsWorld.status
      ({ y.1 with remoteAlg := r.1.2.1, remoteDevcode := r.1.2.2, state := .registersRead }, r.2) milestone .regsRead)
  else BsWorld.raise .comm (y.1, r.2)

/-- `DEV_INIT`'s request: `BS_STATE <- BootModeRequested`, and the wait (R190). -/
def devInitSend (p : Params) (x : BsWorld) : BsWorld :=
  x.sendReq p p.typeEnterBoot (enterBootPayload p x.1) fun y =>
    (BsWorld.status ({ y.1 with state := .bootModeRequested }, y.2) milestone .bootRequested).enterWait .enterBoot

/-! ## The guards and local checks of the other commands -/

/-- `BLK_START`: from `BootModeConfirmed` or `BlockProgrammed` (R200, R222). -/
def blkStartChecks (x : BsWorld) : BsWorld :=
  if x.1.state = .bootModeConfirmed ∨ x.1.state = .blockProgrammed then
    x.goto (.sendStartBlock x.1.blockNo x.1.memtype)
  else x.refuse .state

/-- `BLK_WRITE`: from `BlockStarted` with no chunk acknowledged; then the range (R206, R222). -/
def blkWriteChecks (p : Params) (x : BsWorld) : BsWorld :=
  if x.1.state ≠ .blockStarted ∨ x.1.chunkIdx ≠ 0 then x.refuse .state
  else if inRange x.1.src x.1.blockSize p.fwbSize.val then
    if 0 < chunkCount x.1 then x.goto (.sendChunk 0) else x.complete
  else x.refuse .range

/-- `CHUNK_WRITE`: from `BlockStarted`; then the size; then the range (R204, R222). -/
def chunkWriteChecks (p : Params) (x : BsWorld) : BsWorld :=
  if x.1.state ≠ .blockStarted then x.refuse .state
  else if x.1.chunkSize.toNat < x.1.chunkLen.toNat then x.refuse .size
  else if inRange x.1.src x.1.chunkLen p.fwbSize.val then x.goto (.sendChunk x.1.chunkIdx.toNat)
  else x.refuse .range

/-- `BLK_PROGRAM`: from `BlockWritten` (R210, R222). -/
def blkProgramChecks (x : BsWorld) : BsWorld :=
  if x.1.state = .blockWritten then x.goto (.sendProgramBlock x.1.blockNo) else x.refuse .state

/-- `DEV_LOAD`: from `BootModeConfirmed`; `S_CTRL` takes the two bits of `BS_CTRL` (R225, R222, R43). -/
def devLoadChecks (x : BsWorld) : BsWorld :=
  if x.1.state = .bootModeConfirmed then
    BsWorld.goto ({ x.1 with sCtrl := relatchCtrl x.1.sCtrl x.1.ctrl }, x.2) (.loadRegion 0)
  else x.refuse .state

/-- The guard and the local checks of the command in progress. A code that is none of these commands is refused
(R97). -/
def bsChecks (p : Params) (x : BsWorld) : BsWorld :=
  match x.1.cmd.toNat with
  | 0x11 => blkStartChecks x
  | 0x12 => blkWriteChecks p x
  | 0x13 => chunkWriteChecks p x
  | 0x14 => blkProgramChecks x
  | 0x15 => devLoadChecks x
  | _ => x.refuse .illegalCmd

/-! ## Running -/

/-- One step of busy BS, by its place in the pseudocode. -/
def bsStep (p : Params) (fwb img : Memory) (x : BsWorld) : BsWorld :=
  match x.1.point with
  | .idle => x
  | .checks => bsChecks p x
  | .readRegisters => devInitRead p x
  | .sendEnterBoot => devInitSend p x
  | .sendStartBlock n m => startBlockSend p n m x
  | .sendChunk k => writeChunkSend p k (chunkData p fwb img x.1 k) x
  | .sendProgramBlock n => programBlockSend p n x
  | .wait a => checkResponse p img a x
  | .loadRegion r => loadRegion p img r x

/-- Up to `n` steps of BS; idle BS "does nothing" (R276). -/
def bsRun (p : Params) (fwb img : Memory) : Nat → BsWorld → BsWorld
  | 0, x => x
  | n + 1, x => if x.1.flags.busy then bsRun p fwb img n (bsStep p fwb img x) else x

/-- A write of a BS command's code to `BS_CMD` (R92): busy BS only sets `OVR`; idle BS accepts and runs from where
`start` puts it. -/
def issueBs (c : Byte) (start : BsUnit → BsUnit) (s : State) : State :=
  s.onBs fun x =>
    if x.1.flags.busy then ({ x.1 with flags := x.1.flags.overrun }, x.2)
    else bsRun s.params s.fwb s.img s.pace (start (x.1.accept c), x.2)

/-- The checks come first. -/
def startAtChecks (b : BsUnit) : BsUnit := { b with point := .checks }

/-- `DEV_INIT` (R190): accepted in every state; the accept step opens the session (R221). -/
def execDevInit (s : State) : Host.Outcome State Fault Refusal := .next (issueBs 0x10 (sessionOpen s.params) s)

/-- `BLK_START` (R200). -/
def execBlkStart (s : State) : Host.Outcome State Fault Refusal := .next (issueBs 0x11 startAtChecks s)

/-- `BLK_WRITE` (R206). -/
def execBlkWrite (s : State) : Host.Outcome State Fault Refusal := .next (issueBs 0x12 startAtChecks s)

/-- `CHUNK_WRITE` (R204). -/
def execChunkWrite (s : State) : Host.Outcome State Fault Refusal := .next (issueBs 0x13 startAtChecks s)

/-- `BLK_PROGRAM` (R210). -/
def execBlkProgram (s : State) : Host.Outcome State Fault Refusal := .next (issueBs 0x14 startAtChecks s)

/-- `DEV_LOAD` (R225). -/
def execDevLoad (s : State) : Host.Outcome State Fault Refusal := .next (issueBs 0x15 startAtChecks s)

end Sys2Proof.Machine
end

