-- ==== Sys2Proof/Machine/Cipher.lean ====
section
/-!
DEFINITION. The cipher's micro-operations: GF(2^8) arithmetic, the constant tables, the round transforms and their
inverses (spec/40_cipher_primitives.md), key expansion (spec/41_key_expansion.md), the block transforms
(spec/42_block_transforms.md).
-/

namespace Sys2Proof.Machine

/-! ## Arithmetic in GF(2^8) -/

/-- Multiplication by `0x02` (R121). -/
def xtime (a : Byte) : Byte := (a <<< 1) ^^^ (if a.getLsbD 7 then 0x1B else 0x00)

/-- The loop of `gmul`: `n` bits of `c` are left, the next is bit `k`; `t` and `p` are the pseudocode's (R122). -/
def gmulLoop (c : Byte) : (n k : Nat) → (t p : Byte) → Byte
  | 0, _, _, p => p
  | n + 1, k, t, p => gmulLoop c n (k + 1) (xtime t) (if c.getLsbD k then p ^^^ t else p)

/-- `gmul(a, c)` (R122). -/
def gmul (a c : Byte) : Byte := gmulLoop c 8 0 a 0x00

/-! ## The constant tables -/

/-- `SBOX[0..255]`, a row of R123's table a line. -/
def sboxTable : List Byte :=
  [0x63, 0x7c, 0x77, 0x7b, 0xf2, 0x6b, 0x6f, 0xc5, 0x30, 0x01, 0x67, 0x2b, 0xfe, 0xd7, 0xab, 0x76] ++
  [0xca, 0x82, 0xc9, 0x7d, 0xfa, 0x59, 0x47, 0xf0, 0xad, 0xd4, 0xa2, 0xaf, 0x9c, 0xa4, 0x72, 0xc0] ++
  [0xb7, 0xfd, 0x93, 0x26, 0x36, 0x3f, 0xf7, 0xcc, 0x34, 0xa5, 0xe5, 0xf1, 0x71, 0xd8, 0x31, 0x15] ++
  [0x04, 0xc7, 0x23, 0xc3, 0x18, 0x96, 0x05, 0x9a, 0x07, 0x12, 0x80, 0xe2, 0xeb, 0x27, 0xb2, 0x75] ++
  [0x09, 0x83, 0x2c, 0x1a, 0x1b, 0x6e, 0x5a, 0xa0, 0x52, 0x3b, 0xd6, 0xb3, 0x29, 0xe3, 0x2f, 0x84] ++
  [0x53, 0xd1, 0x00, 0xed, 0x20, 0xfc, 0xb1, 0x5b, 0x6a, 0xcb, 0xbe, 0x39, 0x4a, 0x4c, 0x58, 0xcf] ++
  [0xd0, 0xef, 0xaa, 0xfb, 0x43, 0x4d, 0x33, 0x85, 0x45, 0xf9, 0x02, 0x7f, 0x50, 0x3c, 0x9f, 0xa8] ++
  [0x51, 0xa3, 0x40, 0x8f, 0x92, 0x9d, 0x38, 0xf5, 0xbc, 0xb6, 0xda, 0x21, 0x10, 0xff, 0xf3, 0xd2] ++
  [0xcd, 0x0c, 0x13, 0xec, 0x5f, 0x97, 0x44, 0x17, 0xc4, 0xa7, 0x7e, 0x3d, 0x64, 0x5d, 0x19, 0x73] ++
  [0x60, 0x81, 0x4f, 0xdc, 0x22, 0x2a, 0x90, 0x88, 0x46, 0xee, 0xb8, 0x14, 0xde, 0x5e, 0x0b, 0xdb] ++
  [0xe0, 0x32, 0x3a, 0x0a, 0x49, 0x06, 0x24, 0x5c, 0xc2, 0xd3, 0xac, 0x62, 0x91, 0x95, 0xe4, 0x79] ++
  [0xe7, 0xc8, 0x37, 0x6d, 0x8d, 0xd5, 0x4e, 0xa9, 0x6c, 0x56, 0xf4, 0xea, 0x65, 0x7a, 0xae, 0x08] ++
  [0xba, 0x78, 0x25, 0x2e, 0x1c, 0xa6, 0xb4, 0xc6, 0xe8, 0xdd, 0x74, 0x1f, 0x4b, 0xbd, 0x8b, 0x8a] ++
  [0x70, 0x3e, 0xb5, 0x66, 0x48, 0x03, 0xf6, 0x0e, 0x61, 0x35, 0x57, 0xb9, 0x86, 0xc1, 0x1d, 0x9e] ++
  [0xe1, 0xf8, 0x98, 0x11, 0x69, 0xd9, 0x8e, 0x94, 0x9b, 0x1e, 0x87, 0xe9, 0xce, 0x55, 0x28, 0xdf] ++
  [0x8c, 0xa1, 0x89, 0x0d, 0xbf, 0xe6, 0x42, 0x68, 0x41, 0x99, 0x2d, 0x0f, 0xb0, 0x54, 0xbb, 0x16]

/-- `INV_SBOX[0..255]`, a row of R124's table a line. -/
def invSboxTable : List Byte :=
  [0x52, 0x09, 0x6a, 0xd5, 0x30, 0x36, 0xa5, 0x38, 0xbf, 0x40, 0xa3, 0x9e, 0x81, 0xf3, 0xd7, 0xfb] ++
  [0x7c, 0xe3, 0x39, 0x82, 0x9b, 0x2f, 0xff, 0x87, 0x34, 0x8e, 0x43, 0x44, 0xc4, 0xde, 0xe9, 0xcb] ++
  [0x54, 0x7b, 0x94, 0x32, 0xa6, 0xc2, 0x23, 0x3d, 0xee, 0x4c, 0x95, 0x0b, 0x42, 0xfa, 0xc3, 0x4e] ++
  [0x08, 0x2e, 0xa1, 0x66, 0x28, 0xd9, 0x24, 0xb2, 0x76, 0x5b, 0xa2, 0x49, 0x6d, 0x8b, 0xd1, 0x25] ++
  [0x72, 0xf8, 0xf6, 0x64, 0x86, 0x68, 0x98, 0x16, 0xd4, 0xa4, 0x5c, 0xcc, 0x5d, 0x65, 0xb6, 0x92] ++
  [0x6c, 0x70, 0x48, 0x50, 0xfd, 0xed, 0xb9, 0xda, 0x5e, 0x15, 0x46, 0x57, 0xa7, 0x8d, 0x9d, 0x84] ++
  [0x90, 0xd8, 0xab, 0x00, 0x8c, 0xbc, 0xd3, 0x0a, 0xf7, 0xe4, 0x58, 0x05, 0xb8, 0xb3, 0x45, 0x06] ++
  [0xd0, 0x2c, 0x1e, 0x8f, 0xca, 0x3f, 0x0f, 0x02, 0xc1, 0xaf, 0xbd, 0x03, 0x01, 0x13, 0x8a, 0x6b] ++
  [0x3a, 0x91, 0x11, 0x41, 0x4f, 0x67, 0xdc, 0xea, 0x97, 0xf2, 0xcf, 0xce, 0xf0, 0xb4, 0xe6, 0x73] ++
  [0x96, 0xac, 0x74, 0x22, 0xe7, 0xad, 0x35, 0x85, 0xe2, 0xf9, 0x37, 0xe8, 0x1c, 0x75, 0xdf, 0x6e] ++
  [0x47, 0xf1, 0x1a, 0x71, 0x1d, 0x29, 0xc5, 0x89, 0x6f, 0xb7, 0x62, 0x0e, 0xaa, 0x18, 0xbe, 0x1b] ++
  [0xfc, 0x56, 0x3e, 0x4b, 0xc6, 0xd2, 0x79, 0x20, 0x9a, 0xdb, 0xc0, 0xfe, 0x78, 0xcd, 0x5a, 0xf4] ++
  [0x1f, 0xdd, 0xa8, 0x33, 0x88, 0x07, 0xc7, 0x31, 0xb1, 0x12, 0x10, 0x59, 0x27, 0x80, 0xec, 0x5f] ++
  [0x60, 0x51, 0x7f, 0xa9, 0x19, 0xb5, 0x4a, 0x0d, 0x2d, 0xe5, 0x7a, 0x9f, 0x93, 0xc9, 0x9c, 0xef] ++
  [0xa0, 0xe0, 0x3b, 0x4d, 0xae, 0x2a, 0xf5, 0xb0, 0xc8, 0xeb, 0xbb, 0x3c, 0x83, 0x53, 0x99, 0x61] ++
  [0x17, 0x2b, 0x04, 0x7e, 0xba, 0x77, 0xd6, 0x26, 0xe1, 0x69, 0x14, 0x63, 0x55, 0x21, 0x0c, 0x7d]

/-- `RCON[0..10]` (R125). -/
def rconTable : List Byte :=
  [0x00, 0x01, 0x02, 0x04, 0x08, 0x10, 0x20, 0x40, 0x80, 0x1B, 0x36]

/-- `SBOX[a]` (R123). -/
def sbox (a : Byte) : Byte := sboxTable.getD a.toNat 0

/-- `INV_SBOX[a]` (R124). -/
def invSbox (a : Byte) : Byte := invSboxTable.getD a.toNat 0

/-- `RCON[j]` (R125); key expansion reads entries 1 to 10. -/
def rcon (j : Nat) : Byte := rconTable.getD j 0

/-! ## Words and blocks -/

/-- `^` on words, byte by byte (R141). -/
def xorWord (x y : CWord) : CWord := Vector.ofFn fun b => x[b] ^^^ y[b]

/-- `^` on 16-byte values, byte by byte (R166). -/
def xorBlock (x y : Block) : Block := Vector.ofFn fun k => x[k] ^^^ y[k]

/-- Column `c` of the state: `S[4c]` to `S[4c+3]` (R67). -/
def column (S : Block) (c : Fin 4) : CWord := Vector.ofFn fun r => S[4 * c.val + r.val]

/-- The state of four columns (R67). -/
def ofColumns (f : Fin 4 → CWord) : Block :=
  Vector.ofFn fun k => (f ⟨k.val / 4, by omega⟩)[k.val % 4]'(Nat.mod_lt _ (by decide))

/-- Word `j` of the schedule. -/
def scheduleWord (W : Vector CWord 60) (j : Nat) : CWord := W.getD j zeroWord

/-! ## The round transforms and their inverses -/

/-- `SUB_BYTES` (R126). -/
def subBytes (S : Block) : Block := Vector.ofFn fun k => sbox S[k]

/-- `SHIFT_ROWS`: byte `r + 4c` comes from `r + 4*((c + r) mod 4)` (R127). -/
def shiftRows (S : Block) : Block :=
  Vector.ofFn fun k => S[k.val % 4 + 4 * ((k.val / 4 + k.val % 4) % 4)]

/-- `MIX_COLUMNS` on one column (R128). -/
def mixColumn (a : CWord) : CWord :=
  #v[gmul a[0] 0x02 ^^^ gmul a[1] 0x03 ^^^ a[2] ^^^ a[3],
     a[0] ^^^ gmul a[1] 0x02 ^^^ gmul a[2] 0x03 ^^^ a[3],
     a[0] ^^^ a[1] ^^^ gmul a[2] 0x02 ^^^ gmul a[3] 0x03,
     gmul a[0] 0x03 ^^^ a[1] ^^^ a[2] ^^^ gmul a[3] 0x02]

/-- `MIX_COLUMNS` (R128). -/
def mixColumns (S : Block) : Block := ofColumns fun c => mixColumn (column S c)

/-- `ADD_ROUND_KEY(r)`: byte `k` of the state meets byte `k mod 4` of `W[4r + k div 4]` (R129). -/
def addRoundKey (W : Vector CWord 60) (r : Nat) (S : Block) : Block :=
  Vector.ofFn fun k => S[k] ^^^ (scheduleWord W (4 * r + k.val / 4))[k.val % 4]'(Nat.mod_lt _ (by decide))

/-- `INV_SUB_BYTES` (R130). -/
def invSubBytes (S : Block) : Block := Vector.ofFn fun k => invSbox S[k]

/-- `INV_SHIFT_ROWS`: byte `r + 4c` comes from `r + 4*((c + 4 - r) mod 4)` (R131). -/
def invShiftRows (S : Block) : Block :=
  Vector.ofFn fun k => S[k.val % 4 + 4 * ((k.val / 4 + 4 - k.val % 4) % 4)]

/-- `INV_MIX_COLUMNS` on one column (R132). -/
def invMixColumn (a : CWord) : CWord :=
  #v[gmul a[0] 0x0E ^^^ gmul a[1] 0x0B ^^^ gmul a[2] 0x0D ^^^ gmul a[3] 0x09,
     gmul a[0] 0x09 ^^^ gmul a[1] 0x0E ^^^ gmul a[2] 0x0B ^^^ gmul a[3] 0x0D,
     gmul a[0] 0x0D ^^^ gmul a[1] 0x09 ^^^ gmul a[2] 0x0E ^^^ gmul a[3] 0x0B,
     gmul a[0] 0x0B ^^^ gmul a[1] 0x0D ^^^ gmul a[2] 0x09 ^^^ gmul a[3] 0x0E]

/-- `INV_MIX_COLUMNS` (R132). -/
def invMixColumns (S : Block) : Block := ofColumns fun c => invMixColumn (column S c)

/-! ## Key expansion -/

/-- `ROT_WORD` (R133). -/
def rotWord (x : CWord) : CWord := #v[x[1], x[2], x[3], x[0]]

/-- `SUB_WORD` (R133). -/
def subWord (x : CWord) : CWord := Vector.ofFn fun b => sbox x[b]

/-- `temp` of the expansion loop at word `i`, from the word before it (R141). -/
def expandTemp (nk i : Nat) (prev : CWord) : CWord :=
  if i % nk = 0 then
    let t := subWord (rotWord prev)
    #v[t[0] ^^^ rcon (i / nk), t[1], t[2], t[3]]
  else if nk = 8 ∧ i % nk = 4 then subWord prev
  else prev

/-- One pass of the expansion loop: `W[i] <- W[i-Nk] ^ temp` (R141). -/
def expandStep (nk : Nat) (W : Vector CWord 60) (i : Nat) : Vector CWord 60 :=
  W.setIfInBounds i (xorWord (scheduleWord W (i - nk)) (expandTemp nk i (scheduleWord W (i - 1))))

/-- The first `Nk` words, "copied directly from the key" (R141). -/
def copyKey (key : Vector Byte 32) (nk : Nat) : Vector CWord 60 :=
  (List.range nk).foldl (fun W j => W.setIfInBounds j (keyWord key j)) (Vector.replicate 60 zeroWord)

/-- `EXPAND_KEY`'s schedule: `i` from `Nk` to `4*(Nr+1) - 1`, ascending (R141). -/
def expandKey (key : Vector Byte 32) (v : Variant) : Vector CWord 60 :=
  (List.range' v.nk (4 * (v.nr + 1) - v.nk)).foldl (expandStep v.nk) (copyKey key v.nk)

/-! ## The block transforms -/

/-- A round of `ENC_BLOCK` before the last (R151). -/
def encRound (W : Vector CWord 60) (S : Block) (r : Nat) : Block :=
  addRoundKey W r (mixColumns (shiftRows (subBytes S)))

/-- `ENC_BLOCK` (R151). -/
def encBlock (W : Vector CWord 60) (nr : Nat) (S : Block) : Block :=
  addRoundKey W nr (shiftRows (subBytes ((List.range' 1 (nr - 1)).foldl (encRound W) (addRoundKey W 0 S))))

/-- A round of `DEC_BLOCK` between the first and the last round key (R153). -/
def decRound (W : Vector CWord 60) (S : Block) (r : Nat) : Block :=
  invMixColumns (addRoundKey W r (invSubBytes (invShiftRows S)))

/-- `DEC_BLOCK` (R153): round keys `Nr` down to 0. -/
def decBlock (W : Vector CWord 60) (nr : Nat) (S : Block) : Block :=
  addRoundKey W 0 (invSubBytes (invShiftRows
    ((List.range' 1 (nr - 1)).reverse.foldl (decRound W) (addRoundKey W nr S))))

end Sys2Proof.Machine
end

