-- ==== Sys2Proof/Machine/CipherCommands.lean ====
section
/-!
DEFINITION. The five cipher commands (spec/43_cipher_modes.md). A cipher unit runs its command in steps: the checks, one
word of the key schedule, the load of a block, one round, the store of a block. `exec` accepts the command and lets the
unit take `pace` steps (log entry 9).
-/

namespace Sys2Proof.Machine

/-- What sets the four cipher commands apart in their common shape (R160). -/
structure CipherOps where
  /-- before the block loop: `CHAIN <- IV`, or nothing -/
  start : CeUnit → CeUnit
  /-- from the 16 bytes read: `S` (and `TMP`) -/
  load  : Block → CeUnit → CeUnit
  /-- the first `ADD_ROUND_KEY` of the block transform -/
  first : CeUnit → CeUnit
  /-- one round of the block transform, the last one included -/
  round : CeUnit → CeUnit
  /-- between the block transform and `MemWrite` -/
  fixup : CeUnit → CeUnit
  /-- after `MemWrite`: the next `CHAIN` -/
  next  : CeUnit → CeUnit

/-- `ENC_BLOCK`'s start: `round <- 0`, `ADD_ROUND_KEY(0)` (R151). -/
def encFirst (u : CeUnit) : CeUnit := { u with round := 0, st := addRoundKey u.w 0 u.st, phase := .rounds }

/-- `ENC_BLOCK`'s next round: a full one while `round` stays below `Nr`, else the last, without `MIX_COLUMNS` (R151). -/
def encNext (u : CeUnit) : CeUnit :=
  if u.round + 1 < u.nr then { u with round := u.round + 1, st := encRound u.w u.st (u.round + 1) }
  else { u with round := u.nr, st := addRoundKey u.w u.nr (shiftRows (subBytes u.st)), phase := .store }

/-- `DEC_BLOCK`'s start: `round <- Nr`, `ADD_ROUND_KEY(Nr)` (R153). -/
def decFirst (u : CeUnit) : CeUnit := { u with round := u.nr, st := addRoundKey u.w u.nr u.st, phase := .rounds }

/-- `DEC_BLOCK`'s next round: a full one down to `round = 1`, then the last, without `INV_MIX_COLUMNS` (R153). -/
def decNext (u : CeUnit) : CeUnit :=
  if 1 < u.round then { u with round := u.round - 1, st := decRound u.w u.st (u.round - 1) }
  else { u with round := 0, st := addRoundKey u.w 0 (invSubBytes (invShiftRows u.st)), phase := .store }

/-- One step of a cipher command on cipher unit `k` (R160; the pseudocode of R163 to R169). -/
def cipherStep (m : CipherOps) (p : Params) (k : Nat) (u : CeUnit) : CeUnit :=
  match u.phase with
  | .idle => u
  | .checks =>
    match cipherChecks p u with
    | .error e => u.refuse e
    | .ok v => { u with nk := v.nk, nr := v.nr, i := v.nk, w := copyKey u.key v.nk, phase := .expand }
  | .expand =>
    if u.i < 4 * (u.nr + 1) then { u with w := expandStep u.nk u.w u.i, i := u.i + 1 }
    else m.start { u with off := 0, phase := .block }
  | .block =>
    if u.off < u.len.toNat then
      m.first (m.load (readBlock (.buf k) u.buf (u.src.toNat + u.off)) u)
    else u.complete u.len
  | .rounds => m.round u
  | .store =>
    let v := m.fixup u
    m.next { v with buf := writeBlock v.buf (v.dst.toNat + v.off) v.st, off := v.off + 16, phase := .block }

/-- `ECB_ENC` (R163). -/
def ecbEncOps : CipherOps where
  start u := u
  load blk u := { u with st := blk }
  first := encFirst
  round := encNext
  fixup u := u
  next u := u

/-- `ECB_DEC` (R164). -/
def ecbDecOps : CipherOps where
  start u := u
  load blk u := { u with st := blk }
  first := decFirst
  round := decNext
  fixup u := u
  next u := u

/-- `CBC_ENC`: the block is exclusive-ored with `CHAIN` before `ENC_BLOCK`, and `CHAIN` becomes the ciphertext
(R166). -/
def cbcEncOps : CipherOps where
  start u := { u with chain := u.iv }
  load blk u := { u with st := xorBlock blk u.chain }
  first := encFirst
  round := encNext
  fixup u := u
  next u := { u with chain := u.st }

/-- `CBC_DEC`: `TMP` keeps the ciphertext block, `S` is exclusive-ored with `CHAIN` after `DEC_BLOCK`, and `CHAIN`
becomes `TMP` (R169). -/
def cbcDecOps : CipherOps where
  start u := { u with chain := u.iv }
  load blk u := { u with tmp := blk, st := blk }
  first := decFirst
  round := decNext
  fixup u := { u with st := xorBlock u.st u.chain }
  next u := { u with chain := u.tmp }

/-- The one step of `GEN_IV` (R171): the range check, then the draws, then nothing else; "there is no fallback"
(R172). -/
def genIvStep (p : Params) (k : Nat) (u : CeUnit) : CeUnit :=
  if inRange u.dst u.len p.bufSize.val then
    let av := u.rng.isAvailable k
    if av.1 then
      let d := Rng.draw k u.len.toNat av.2
      CeUnit.complete u.len { u with rng := d.2, buf := u.buf.writeBytes u.dst.toNat d.1 }
    else CeUnit.complete 0 { u with rng := av.2 }
  else u.refuse .range

/-- One step of a busy cipher unit, by the command in progress (R31, R93): it reads and changes that unit alone (R275). A
code that is no cipher command is refused (R97). -/
def ceStep (p : Params) (k : Nat) (u : CeUnit) : CeUnit :=
  match u.cmd.toNat with
  | 0x01 => cipherStep ecbEncOps p k u
  | 0x02 => cipherStep ecbDecOps p k u
  | 0x03 => cipherStep cbcEncOps p k u
  | 0x04 => cipherStep cbcDecOps p k u
  | 0x05 => genIvStep p k u
  | _ => u.refuse .illegalCmd

/-- Up to `n` steps of a cipher unit; an idle unit "does nothing" (R276). -/
def ceRun (p : Params) (k : Nat) : Nat → CeUnit → CeUnit
  | 0, u => u
  | n + 1, u => if u.flags.busy then ceRun p k n (ceStep p k u) else u

/-- A write of a CE command's code to the command register of cipher unit `k` (R92): a busy unit only sets `OVR`; an
idle one accepts and runs. -/
def issueCe (k : Nat) (c : Byte) (s : State) : State :=
  s.onCe k fun u =>
    if u.flags.busy then { u with flags := u.flags.overrun }
    else ceRun s.params k s.pace (u.accept c)

/-- `ECB_ENC` (R163). -/
def execEcbEnc (k : Nat) (s : State) : Host.Outcome State Fault Refusal := .next (issueCe k 0x01 s)

/-- `ECB_DEC` (R164). -/
def execEcbDec (k : Nat) (s : State) : Host.Outcome State Fault Refusal := .next (issueCe k 0x02 s)

/-- `CBC_ENC` (R166). -/
def execCbcEnc (k : Nat) (s : State) : Host.Outcome State Fault Refusal := .next (issueCe k 0x03 s)

/-- `CBC_DEC` (R169). -/
def execCbcDec (k : Nat) (s : State) : Host.Outcome State Fault Refusal := .next (issueCe k 0x04 s)

/-- `GEN_IV` (R171). -/
def execGenIv (k : Nat) (s : State) : Host.Outcome State Fault Refusal := .next (issueCe k 0x05 s)

end Sys2Proof.Machine
end

