-- ==== Sys2Proof/Syntax.lean ====
section
/-!
DEFINITION. The eleven host commands, one constructor per row of spec/opcode_table.json (spec/30_encoding.md R93).
-/

namespace Sys2Proof

/-- A host command. Its operands are in the unit's operand registers, not in the command word (R92). A cipher command
names the cipher unit `k` whose command register HOST writes (spec/10_state.md R37: base `0x1000 * k`); there is one
bootloader sequencer, so its commands name none. -/
inductive Instr where
  /-- `ECB_ENC`, code 0x01 (R163). -/
  | ecbEnc (k : Nat)
  /-- `ECB_DEC`, code 0x02 (R164). -/
  | ecbDec (k : Nat)
  /-- `CBC_ENC`, code 0x03 (R166). -/
  | cbcEnc (k : Nat)
  /-- `CBC_DEC`, code 0x04 (R169). -/
  | cbcDec (k : Nat)
  /-- `GEN_IV`, code 0x05 (R171). -/
  | genIv (k : Nat)
  /-- `DEV_INIT`, code 0x10 (R190). -/
  | devInit
  /-- `BLK_START`, code 0x11 (R200). -/
  | blkStart
  /-- `BLK_WRITE`, code 0x12 (R206). -/
  | blkWrite
  /-- `CHUNK_WRITE`, code 0x13 (R204). -/
  | chunkWrite
  /-- `BLK_PROGRAM`, code 0x14 (R210). -/
  | blkProgram
  /-- `DEV_LOAD`, code 0x15 (R225). -/
  | devLoad
  deriving DecidableEq, Repr

end Sys2Proof
end

