-- ==== Sys2Proof/Machine/Dispatch.lean ====
section
/-!
DEFINITION. The meaning of every instruction: one arm per constructor of `Instr`, each one call.
-/

namespace Sys2Proof.Machine

def exec (i : Instr) (s : State) : Host.Outcome State Fault Refusal :=
  match i with
  | .ecbEnc k => Sys2Proof.Machine.execEcbEnc k s
  | .ecbDec k => Sys2Proof.Machine.execEcbDec k s
  | .cbcEnc k => Sys2Proof.Machine.execCbcEnc k s
  | .cbcDec k => Sys2Proof.Machine.execCbcDec k s
  | .genIv k => Sys2Proof.Machine.execGenIv k s
  | .devInit => Sys2Proof.Machine.execDevInit s
  | .blkStart => Sys2Proof.Machine.execBlkStart s
  | .blkWrite => Sys2Proof.Machine.execBlkWrite s
  | .chunkWrite => Sys2Proof.Machine.execChunkWrite s
  | .blkProgram => Sys2Proof.Machine.execBlkProgram s
  | .devLoad => Sys2Proof.Machine.execDevLoad s

end Sys2Proof.Machine
end

