-- ==== Sys2Proof/WellFormed.lean ====
section
/-!
DEFINITION. When a command is one HOST can issue through the register map.
-/

namespace Sys2Proof

/-- A cipher unit's number fits the register map: its base `0x1000 * k` lies below BS's base `0xF000`
(spec/10_state.md R37; log entry 5). -/
def ceIndexFits (k : Nat) : Bool := k < 15

/-- The check on a command's one field. Commands of the bootloader sequencer have none. -/
def Instr.wellFormed : Instr → Bool
  | .ecbEnc k => ceIndexFits k
  | .ecbDec k => ceIndexFits k
  | .cbcEnc k => ceIndexFits k
  | .cbcDec k => ceIndexFits k
  | .genIv k => ceIndexFits k
  | .devInit => true
  | .blkStart => true
  | .blkWrite => true
  | .chunkWrite => true
  | .blkProgram => true
  | .devLoad => true

end Sys2Proof
end

