-- ==== Sys2Proof/Decode.lean ====
section
/-!
DEFINITION. Command codes (spec/30_encoding.md R92, R93, R97): the decoder, total on every register write, the encoder
written from the same table, and the reading of an opcode-table word.

A command is one HOST write of an 8-bit code to a unit's command register, so what is decoded is the pair of the
register address and the code.
-/

namespace Sys2Proof

/-- Why a register write is no command, by name. -/
inductive DecodeError where
  /-- The address is not a unit's command register (offset 0x000, R34, R35). -/
  | notCommandRegister
  /-- `c[7:4]` is 2 to 15 (R92, R97). -/
  | reservedGroup
  /-- The group is the unit's own and R93 lists no such function (R97). -/
  | reservedFunction
  /-- A CE code on `BS_CMD` or a BS code on `CE_CMD` (R97). -/
  | wrongUnit
  deriving DecidableEq, Repr

/-- The unit number of an address: its base is `0x1000` times it (R37). -/
def unitOf (a : RegAddr) : Nat := a.toNat / 0x1000

/-- The offset of an address from its unit's base (R37). -/
def offsetOf (a : RegAddr) : Nat := a.toNat % 0x1000

/-- The unit number of the bootloader sequencer, whose base is `0xF000` (R37). -/
def bsUnit : Nat := 15

/-- The register address at `offset` of unit `u`, which is below 16: the map has no other (R37; log entry 5). -/
def regAddr (u offset : Nat) : RegAddr := BitVec.ofNat 16 (0x1000 * u + offset)

/-- Bits 7:4 of a command code (R92). -/
def groupField (c : Byte) : Nat := c.toNat / 16

/-- Bits 3:0 of a command code (R92). -/
def funcField (c : Byte) : Nat := c.toNat % 16

/-- Group 0: the cipher commands of R93, on cipher unit `k`. -/
def decodeCe (k : Nat) (func : Nat) : Except DecodeError Instr :=
  match func with
  | 0x1 => .ok (.ecbEnc k)
  | 0x2 => .ok (.ecbDec k)
  | 0x3 => .ok (.cbcEnc k)
  | 0x4 => .ok (.cbcDec k)
  | 0x5 => .ok (.genIv k)
  | _ => .error .reservedFunction

/-- Group 1: the bootloader commands of R93. -/
def decodeBs (func : Nat) : Except DecodeError Instr :=
  match func with
  | 0x0 => .ok .devInit
  | 0x1 => .ok .blkStart
  | 0x2 => .ok .blkWrite
  | 0x3 => .ok .chunkWrite
  | 0x4 => .ok .blkProgram
  | 0x5 => .ok .devLoad
  | _ => .error .reservedFunction

/-- The command that a write of `c` to `a` starts (R92, R93, R97). -/
def decode (a : RegAddr) (c : Byte) : Except DecodeError Instr :=
  if offsetOf a ≠ 0 then .error .notCommandRegister
  else if groupField c = 0 then
    if unitOf a = bsUnit then .error .wrongUnit else decodeCe (unitOf a) (funcField c)
  else if groupField c = 1 then
    if unitOf a = bsUnit then decodeBs (funcField c) else .error .wrongUnit
  else .error .reservedGroup

/-- The code of a command (R93). -/
def codeOf : Instr → Byte
  | .ecbEnc _ => 0x01
  | .ecbDec _ => 0x02
  | .cbcEnc _ => 0x03
  | .cbcDec _ => 0x04
  | .genIv _ => 0x05
  | .devInit => 0x10
  | .blkStart => 0x11
  | .blkWrite => 0x12
  | .chunkWrite => 0x13
  | .blkProgram => 0x14
  | .devLoad => 0x15

/-- The number of the unit a command runs on (R37, R93). -/
def targetUnit : Instr → Nat
  | .ecbEnc k => k
  | .ecbDec k => k
  | .cbcEnc k => k
  | .cbcDec k => k
  | .genIv k => k
  | .devInit => bsUnit
  | .blkStart => bsUnit
  | .blkWrite => bsUnit
  | .chunkWrite => bsUnit
  | .blkProgram => bsUnit
  | .devLoad => bsUnit

/-- The bus action that starts a command: the command register's address and the code (R92, R99). -/
def encode (i : Instr) : RegAddr × Byte := (regAddr (targetUnit i) 0, codeOf i)

/-- The command register a table word is written to: `BS_CMD` for group 1, `CE_CMD` of cipher unit 0 for every other
group (R92). -/
def tableCommandRegister (w : Nat) : RegAddr :=
  if groupField (BitVec.ofNat 8 w) = 1 then regAddr bsUnit 0 else regAddr 0 0

/-- The command the decoder reads from a word of spec/opcode_table.json, written to the command register of its
group's unit. A `CMD8` word has eight bits (R90): any other is none. -/
def decodeTableWord (nbits w : Nat) : Option Instr :=
  if nbits = 8 ∧ w < 256 then
    match decode (tableCommandRegister w) (BitVec.ofNat 8 w) with
    | .ok i => some i
    | .error _ => none
  else none

end Sys2Proof
end

