-- ==== Sys2Proof/Machine/HostPort.lean ====
section
/-!
DEFINITION. HOST's side: the register map (spec/10_state.md R34 to R37), what HOST may do while a unit is busy
(spec/20_memory.md R79), illegal command codes (spec/30_encoding.md R97), the reset input (spec/70_reset_and_hazards.md
R290, R291), the fetch of a command from HOST's coming moves, and the pseudo-commands (R99, R111).
-/

namespace Sys2Proof.Machine

/-! ## Register reads -/

/-- The register at an offset of a cipher unit, as HOST reads it (R34). The command register and every offset no
register occupies read 0 (R34, R37). -/
def ceRead (u : CeUnit) (o : Nat) : Word :=
  match o with
  | 0x004 => (u.flags.toByte false).setWidth 32
  | 0x008 => u.err.toByte.setWidth 32
  | 0x00C => u.result
  | 0x010 => u.variant.setWidth 32
  | 0x014 => u.src
  | 0x018 => u.dst
  | 0x01C => u.len
  | _ =>
    if 0x020 ≤ o ∧ o < 0x040 then (u.key.getD (o - 0x020) 0).setWidth 32
    else if 0x040 ≤ o ∧ o < 0x050 then (u.iv.getD (o - 0x040) 0).setWidth 32
    else 0

/-- The register at an offset of BS, as HOST reads it (R35), but for `BS_TIMER`. -/
def bsRead (b : BsUnit) (o : Nat) : Word :=
  match o with
  | 0x004 => (b.flags.toByte b.warn).setWidth 32
  | 0x008 => b.err.toByte.setWidth 32
  | 0x00C => b.state.toByte.setWidth 32
  | 0x010 => b.blockSize
  | 0x014 => b.numBlocks
  | 0x018 => b.chunkSize
  | 0x01C => b.checksum.setWidth 32
  | 0x020 => b.region.setWidth 32
  | 0x024 => b.blockIdx
  | 0x028 => b.curBlock
  | 0x02C => b.chunkIdx
  | 0x030 => b.remoteAlg.setWidth 32
  | 0x034 => b.remoteDevcode.setWidth 32
  | 0x040 => b.timeout
  | 0x044 => b.ctrl.setWidth 32
  | 0x048 => b.nickname.setWidth 32
  | 0x04C => b.page.setWidth 32
  | 0x050 => b.devcode.setWidth 32
  | 0x054 => b.blockNo
  | 0x058 => b.memtype.setWidth 32
  | 0x05C => b.src
  | 0x060 => b.chunkLen
  | _ => if 0x070 ≤ o ∧ o < 0x080 then (b.guid.getD (o - 0x070) 0).setWidth 32 else 0

/-- A HOST register read (R37, R79). `BS_TIMER` gives "the value `now()` would return at the moment of the read"
(R35); every other read changes nothing but HOST's own data (R75). -/
def hostRead (a : RegAddr) (s : State) : State :=
  if unitOf a = bsUnit then
    if offsetOf a = 0x0F0 then { s with readData := some s.env.now.1, env := s.env.now.2 }
    else { s with readData := some (bsRead s.bs (offsetOf a)) }
  else
    match s.ces[unitOf a]? with
    | some u => { s with readData := some (ceRead u (offsetOf a)) }
    | none => { s with readData := some 0 }

/-! ## Register writes -/

/-- A HOST write to an operand register of an idle cipher unit; the read-only registers and the offsets no register
occupies ignore it (R21, R34, R37). -/
def ceWrite (u : CeUnit) (o : Nat) (v : Word) : CeUnit :=
  match o with
  | 0x010 => { u with variant := v.setWidth 16 }
  | 0x014 => { u with src := v }
  | 0x018 => { u with dst := v }
  | 0x01C => { u with len := v }
  | _ =>
    if 0x020 ≤ o ∧ o < 0x040 then { u with key := u.key.setIfInBounds (o - 0x020) (v.setWidth 8) }
    else if 0x040 ≤ o ∧ o < 0x050 then { u with iv := u.iv.setIfInBounds (o - 0x040) (v.setWidth 8) }
    else u

/-- A HOST write to an operand register of idle BS (R22, R35, R36, R37). -/
def bsWrite (b : BsUnit) (o : Nat) (v : Word) : BsUnit :=
  match o with
  | 0x040 => { b with timeout := v }
  | 0x044 => { b with ctrl := ctrlWrite (v.setWidth 8) }
  | 0x048 => { b with nickname := v.setWidth 8 }
  | 0x04C => { b with page := v.setWidth 16 }
  | 0x050 => { b with devcode := v.setWidth 16 }
  | 0x054 => { b with blockNo := v }
  | 0x058 => { b with memtype := v.setWidth 8 }
  | 0x05C => { b with src := v }
  | 0x060 => { b with chunkLen := v }
  | _ =>
    if 0x070 ≤ o ∧ o < 0x080 then { b with guid := b.guid.setIfInBounds (o - 0x070) (v.setWidth 8) }
    else b

/-- A HOST register write that is no command; a busy unit's operand registers ignore it (R21, R22, R79). -/
def hostWrite (a : RegAddr) (v : Word) (s : State) : State :=
  if unitOf a = bsUnit then
    s.onBs fun x => (if x.1.flags.busy then x.1 else bsWrite x.1 (offsetOf a) v, x.2)
  else
    s.onCe (unitOf a) fun u => if u.flags.busy then u else ceWrite u (offsetOf a) v

/-- A write of a code that R93 does not list for the unit: an idle unit accepts it and "completes at once by
`refuse ERR_ILLEGAL_CMD`" (R97); a busy one only sets `OVR` (R92). -/
def refuseIllegal (a : RegAddr) (c : Byte) (s : State) : State :=
  if unitOf a = bsUnit then
    s.onBs fun x =>
      if x.1.flags.busy then ({ x.1 with flags := x.1.flags.overrun }, x.2)
      else BsWorld.refuse .illegalCmd (x.1.accept c, x.2)
  else
    s.onCe (unitOf a) fun u =>
      if u.flags.busy then { u with flags := u.flags.overrun } else (u.accept c).refuse .illegalCmd

/-! ## Time passing and reset -/

/-- Every busy unit takes one step; idle units keep all their state (R276). The units share no state, so their order
does not matter (R275). -/
def lapse (s : State) : State :=
  let y := bsRun s.params s.fwb s.img 1 (s.bs, s.env)
  { s with ces := s.ces.mapIdx fun k u => ceRun s.params k 1 u, bs := y.1, env := y.2 }

/-- Cipher unit `k` alone takes one step, if it is busy (R20). -/
def lapseCe (k : Nat) (s : State) : State := s.onCe k (ceRun s.params k 1)

/-- BS alone takes one step, if it is busy (R20). -/
def lapseBs (s : State) : State := s.onBs fun x => bsRun s.params s.fwb s.img 1 x

/-- The reset input (R57, R290, R291): every register of both kinds of unit to its reset value, a command in progress
abandoned where it was. The memories and the environment are not reset (log entry 12). -/
def resetInput (s : State) : State :=
  { s with ces := s.ces.map fun u => CeUnit.reset u.rng u.buf, bs := BsUnit.reset s.params.defaultTimeoutMs }

/-! ## HOST's waits -/

/-- The cipher unit whose `CE_STATUS` a `WAIT` on unit `k` reads: there is none when the unit does not exist (log entry 15)
or the register map has no room for it, `k` being 15 or more (log entry 5). -/
def mappedCe (k : Nat) (s : State) : Option CeUnit := if k < bsUnit then s.ces[k]? else none

/-- One read of a `WAIT CE` (R99): the wait is over when it shows `DONE = 1`; else time passes and HOST reads again. Where
no register is, the read gives 0 (R37). -/
def waitCe (k : Nat) (s : State) : State :=
  match mappedCe k s with
  | some u =>
    if u.flags.done then { s with readData := some (ceRead u 0x004) }
    else lapse { s with readData := some (ceRead u 0x004), moves := .waitCe k :: s.moves }
  | none => lapse { s with readData := some 0, moves := .waitCe k :: s.moves }

/-- One read of a `WAIT BS` (R99). -/
def waitBs (s : State) : State :=
  if s.bs.flags.done then { s with readData := some (bsRead s.bs 0x004) }
  else lapse { s with readData := some (bsRead s.bs 0x004), moves := .waitBs :: s.moves }

/-! ## HOST's memory moves -/

/-- May HOST access bytes `a` to `a + n - 1` of a cipher unit's BUF now? Not those a busy unit writes, and for a write
not those it reads either (R79). DESIGN CHOICE: the bytes are the whole operand ranges from accept on, also of a command
that its checks will refuse or whose random source will be unavailable (log entry 25). -/
def ceFree (u : CeUnit) (a n : Nat) (forWrite : Bool) : Bool :=
  (List.range n).all fun j => !(u.flags.busy && (u.writes (a + j) || (forWrite && u.reads (a + j))))

/-- A move of HOST that is no command. A read of FWB or IMG while BS is busy, and of a busy cipher unit's source bytes, goes
on and gives the byte: R79 (c) and R300 forbid only writes there, while R20 and U6 would leave such a read undefined
(DESIGN CHOICE, log entry 26). -/
def hostMove (m : Move) (s : State) : Host.Outcome State Fault Refusal :=
  match m with
  | .write a v => .next (hostWrite a v s)
  | .read a => .next (hostRead a s)
  | .bufWrite k a bytes =>
    match s.ces[k]? with
    | none => .fault .hostAddressOutside
    | some u =>
      if s.params.bufSize.val < a.toNat + bytes.length then .fault .hostAddressOutside
      else if ceFree u a.toNat bytes.length true then
        .next (s.onCe k fun v => { v with buf := v.buf.writeBytes a.toNat bytes })
      else .fault .hostTouchesBusyMemory
  | .bufRead k a =>
    match s.ces[k]? with
    | none => .fault .hostAddressOutside
    | some u =>
      if s.params.bufSize.val ≤ a.toNat then .fault .hostAddressOutside
      else if ceFree u a.toNat 1 false then
        .next { s with readData := some ((byteAt (.buf k) u.buf a.toNat).setWidth 32) }
      else .fault .hostTouchesBusyMemory
  | .fwbWrite a bytes =>
    if s.params.fwbSize.val < a.toNat + bytes.length then .fault .hostAddressOutside
    else if s.bs.flags.busy then .fault .hostTouchesBusyMemory
    else .next { s with fwb := s.fwb.writeBytes a.toNat bytes }
  | .fwbRead a =>
    if s.params.fwbSize.val ≤ a.toNat then .fault .hostAddressOutside
    else .next { s with readData := some ((byteAt .fwb s.fwb a.toNat).setWidth 32) }
  | .imgWrite a bytes =>
    if 2 ^ 32 < a.toNat + bytes.length then .fault .hostAddressOutside
    else if s.bs.flags.busy then .fault .hostTouchesBusyMemory
    else .next { s with img := s.img.writeBytes a.toNat bytes }
  | .imgRead a => .next { s with readData := (s.img.read? a.toNat).map fun v => v.setWidth 32 }
  | .imgClear =>
    if s.bs.flags.busy then .fault .hostTouchesBusyMemory else .next { s with img := [] }
  | .waitCe k => .next (waitCe k s)
  | .waitBs => .next (waitBs s)
  | .lapse => .next (lapse s)
  | .lapseCe k => .next (lapseCe k s)
  | .lapseBs => .next (lapseBs s)
  | .reset => .next (resetInput s)

/-! ## Fetching a command -/

/-- What HOST's next move is to the machine. -/
inductive Fetched where
  /-- no move is pending -/
  | nothing
  /-- a write to a command register that R93 lists -/
  | command (i : Instr)
  /-- a write to a command register that R93 does not list -/
  | illegal (a : RegAddr) (c : Byte)
  /-- any other move -/
  | other (m : Move)
  deriving DecidableEq, Repr

/-- Read HOST's next move: a write to a unit's command register is a command of 8 bits (R92). -/
def fetch (moves : List Move) : Fetched :=
  match moves with
  | [] => .nothing
  | .write a v :: _ =>
    match decode a (v.setWidth 8) with
    | .ok i => .command i
    | .error .notCommandRegister => .other (.write a v)
    | .error _ => .illegal a (v.setWidth 8)
  | m :: _ => .other m

/-- HOST's next move has been taken. -/
def takeMove (s : State) : State := { s with moves := s.moves.tail }

/-- The HOST move that issues a word of spec/opcode_table.json. -/
def moveOfTableWord (w : Nat) : Move := .write (tableCommandRegister w) (BitVec.ofNat 32 (w % 256))

/-! ## The line notation and the pseudo-commands (R99, R111) -/

/-- `REG = value`: write register `offset` of unit `u`, which the register map must have (log entry 5). -/
def regLine (u offset : Nat) (v : Nat) : Move := .write (regAddr u offset) (BitVec.ofNat 32 v)

/-- `REG[] = hexstring`: "one 8-bit write per byte, ascending offsets". -/
def regBytesLine (u offset : Nat) : List Byte → List Move
  | [] => []
  | b :: bs => regLine u offset b.toNat :: regBytesLine u (offset + 1) bs

/-- `MNEMONIC`: write the command's code to its command register. -/
def commandLine (i : Instr) : Move := .write (encode i).1 ((encode i).2.setWidth 32)

/-- `ECB_ENCRYPT(variant, input, key, output, length)` on cipher unit `k`. -/
def ecbEncryptCall (k variant input : Nat) (key : List Byte) (output length : Nat) : List Move :=
  [regLine k 0x010 variant, regLine k 0x014 input] ++ regBytesLine k 0x020 key ++
    [regLine k 0x018 output, regLine k 0x01C length, commandLine (.ecbEnc k), .waitCe k]

/-- `ECB_DECRYPT(variant, input, key, output, length)`. -/
def ecbDecryptCall (k variant input : Nat) (key : List Byte) (output length : Nat) : List Move :=
  [regLine k 0x010 variant, regLine k 0x014 input] ++ regBytesLine k 0x020 key ++
    [regLine k 0x018 output, regLine k 0x01C length, commandLine (.ecbDec k), .waitCe k]

/-- `CBC_ENCRYPT_BUFFER(variant, output, input, length, key, iv)`. -/
def cbcEncryptBufferCall (k variant output input length : Nat) (key iv : List Byte) : List Move :=
  [regLine k 0x010 variant, regLine k 0x018 output, regLine k 0x014 input, regLine k 0x01C length] ++
    regBytesLine k 0x020 key ++ regBytesLine k 0x040 iv ++ [commandLine (.cbcEnc k), .waitCe k]

/-- `CBC_DECRYPT_BUFFER(variant, output, input, length, key, iv)`. -/
def cbcDecryptBufferCall (k variant output input length : Nat) (key iv : List Byte) : List Move :=
  [regLine k 0x010 variant, regLine k 0x018 output, regLine k 0x014 input, regLine k 0x01C length] ++
    regBytesLine k 0x020 key ++ regBytesLine k 0x040 iv ++ [commandLine (.cbcDec k), .waitCe k]

/-- `GET_RANDOM_IV(buffer, length)`; "the value is `CE_RESULT`", which the last line reads. -/
def getRandomIvCall (k buffer length : Nat) : List Move :=
  [regLine k 0x018 buffer, regLine k 0x01C length, commandLine (.genIv k), .waitCe k, .read (regAddr k 0x00C)]

end Sys2Proof.Machine
end

