-- ==== Sys2Proof/Machine/Step.lean ====
section
/-!
DEFINITION. One step of the machine: HOST's next move, or time passing when HOST has none.
-/

namespace Sys2Proof.Machine

/-- One step. A command that HOST issues is run by `exec` at the state with that move taken. -/
def step (s : State) : Host.Outcome State Fault Refusal :=
  match fetch s.moves with
  | .nothing => .next (lapse s)
  | .command i => exec i (takeMove s)
  | .illegal a c => .next (refuseIllegal a c (takeMove s))
  | .other m => hostMove m (takeMove s)

/-- `s` with a word of spec/opcode_table.json as HOST's very next move, a write to the command register of its group's
unit (log entry 8). -/
def State.withFetchWord (s : State) (_nbits w : Nat) : State := { s with moves := moveOfTableWord w :: s.moves }

end Sys2Proof.Machine
end

