-- ==== Sys2Proof/Safety.lean ====
section
/-!
DEFINITION. The terms claims are made in: what a well-kept unit and a well-kept machine are, the whole-buffer form of the
cipher commands, the events a load sends. No step uses these.
-/

namespace Sys2Proof.Machine

/-! ## The invariant -/

/-- "`W`, `S`, `CHAIN`, `TMP`, `Nk`, `Nr`, `i`, `round`, `off`" are all zero (R46). -/
def CeUnit.workspaceClear (u : CeUnit) : Prop :=
  u.w = Vector.replicate 60 zeroWord ∧ u.st = zeroBlock ∧ u.chain = zeroBlock ∧ u.tmp = zeroBlock ∧
    u.nk = 0 ∧ u.nr = 0 ∧ u.i = 0 ∧ u.round = 0 ∧ u.off = 0

/-- An idle cipher unit: no command in progress and a clear workspace (R46). -/
def CeUnit.idleClear (u : CeUnit) : Prop :=
  u.flags.busy = false ∧ u.cmd = 0 ∧ u.phase = .idle ∧ u.workspaceClear

/-- A cipher unit inside a cipher command: the checks of R161 hold, and the counters are in their ranges (R31). -/
def CeUnit.working (p : Params) (u : CeUnit) : Prop :=
  1 ≤ u.cmd.toNat ∧ u.cmd.toNat ≤ 4 ∧
    variantOf u.variant = some { nk := u.nk, nr := u.nr } ∧
    u.len.toNat % 16 = 0 ∧ u.src.toNat + u.len.toNat ≤ p.bufSize.val ∧ u.dst.toNat + u.len.toNat ≤ p.bufSize.val ∧
    u.nk ≤ u.i ∧ u.i ≤ 4 * (u.nr + 1) ∧ u.round ≤ u.nr ∧
    u.off % 16 = 0 ∧ u.off ≤ u.len.toNat ∧
    (u.phase = .rounds ∨ u.phase = .store → u.off < u.len.toNat)

/-- What holds of a cipher unit between any two of its steps. -/
structure CeUnit.Inv (p : Params) (u : CeUnit) : Prop where
  bufWf        : u.buf.wf
  bufInside    : ∀ c ∈ u.buf, c.1 < p.bufSize.val
  exclusive    : ¬(u.flags.busy = true ∧ u.flags.done = true)
  errDone      : u.flags.err = true → u.flags.done = true
  errCode      : u.flags.done = true → (u.flags.err = true ↔ u.err ≠ .success)
  failedResult : u.flags.err = true → u.result = 0
  idle         : u.flags.busy = false → u.cmd = 0 ∧ u.phase = .idle ∧ u.workspaceClear
  checks       : u.flags.busy = true → u.phase = .checks → 1 ≤ u.cmd.toNat ∧ u.cmd.toNat ≤ 5 ∧ u.workspaceClear
  running      : u.flags.busy = true → u.phase ≠ .checks → u.phase ≠ .idle ∧ u.working p

/-- The session states in which a session is confirmed and alive. -/
def SessionState.live (st : SessionState) : Bool :=
  match st with
  | .bootModeConfirmed | .blockStarted | .blockWritten | .blockProgrammed => true
  | .init | .registersRead | .bootModeRequested | .rebooted | .failed => false

/-- The states BS passes only inside `DEV_INIT` (R220). -/
def SessionState.transient (st : SessionState) : Bool :=
  match st with
  | .registersRead | .bootModeRequested => true
  | .init | .bootModeConfirmed | .blockStarted | .blockWritten | .blockProgrammed | .rebooted | .failed => false

/-- The session state and the command that belong to each place of the pseudocode. -/
def BsUnit.pointOk (b : BsUnit) : Prop :=
  match b.point with
  | .idle => True
  | .checks => 0x11 ≤ b.cmd.toNat ∧ b.cmd.toNat ≤ 0x15 ∧ b.state.transient = false
  | .readRegisters => b.cmd = 0x10 ∧ b.state = .init ∧ b.chunkSize = chunkSizeOf b.sCtrl
  | .sendEnterBoot => b.cmd = 0x10 ∧ b.state = .registersRead ∧ b.chunkSize = chunkSizeOf b.sCtrl
  | .wait .enterBoot => b.cmd = 0x10 ∧ b.state = .bootModeRequested ∧ b.chunkSize = chunkSizeOf b.sCtrl
  | .sendStartBlock _ _ =>
    (b.cmd = 0x11 ∨ b.cmd = 0x15) ∧ (b.state = .bootModeConfirmed ∨ b.state = .blockProgrammed)
  | .wait (.startBlock _) =>
    (b.cmd = 0x11 ∨ b.cmd = 0x15) ∧ (b.state = .bootModeConfirmed ∨ b.state = .blockProgrammed)
  | .sendChunk k =>
    (b.cmd = 0x12 ∨ b.cmd = 0x13 ∨ b.cmd = 0x15) ∧ b.state = .blockStarted ∧ k = b.chunkIdx.toNat
  | .wait (.blockData k) =>
    (b.cmd = 0x12 ∨ b.cmd = 0x13 ∨ b.cmd = 0x15) ∧ b.state = .blockStarted ∧ k = b.chunkIdx.toNat
  | .sendProgramBlock _ => (b.cmd = 0x14 ∨ b.cmd = 0x15) ∧ b.state = .blockWritten
  | .wait .programBlock => (b.cmd = 0x14 ∨ b.cmd = 0x15) ∧ b.state = .blockWritten
  | .loadRegion _ => b.cmd = 0x15 ∧ (b.state = .bootModeConfirmed ∨ b.state = .blockProgrammed)

/-- What holds of BS between any two of its steps. -/
structure BsUnit.Inv (b : BsUnit) : Prop where
  exclusive : ¬(b.flags.busy = true ∧ b.flags.done = true)
  errDone   : b.flags.err = true → b.flags.done = true
  errCode   : b.flags.done = true → (b.flags.err = true ↔ b.err ≠ .success)
  idle      : b.flags.busy = false → b.cmd = 0 ∧ b.point = .idle ∧ b.state.transient = false
  busy      : b.flags.busy = true → b.point ≠ .idle ∧ b.pointOk
  ctrlBits  : b.ctrl &&& 0xF0 = 0
  sCtrlBits : b.sCtrl &&& 0xF0 = 0
  region    : b.region.toNat ≤ 4
  session   : b.state.live = true → b.chunkSize = chunkSizeOf b.sCtrl ∧ b.chunkSize.toNat ≤ b.blockSize.toNat
  started   : b.state = .blockStarted → b.chunkIdx.toNat < chunkCount b
  failed    : b.state = .failed → b.flags.busy = false → b.flags.err = true
  written   : b.state = .blockWritten ∨ b.state = .blockProgrammed → b.chunkIdx.toNat = chunkCount b

/-- What holds of the machine between any two steps. -/
structure State.Inv (s : State) : Prop where
  units     : ∀ u ∈ s.ces, u.Inv s.params
  unitCount : s.ces.length = s.params.nCe
  bs        : s.bs.Inv
  fwbWf     : s.fwb.wf
  fwbInside : ∀ c ∈ s.fwb, c.1 < s.params.fwbSize.val
  imgWf     : s.img.wf
  imgInside : ∀ c ∈ s.img, c.1 < 2 ^ 32

/-! ## HOST's memory moves -/

/-- The move reaches past the end of its memory, or BUF of a cipher unit that does not exist (R60, R61). -/
def State.outside (s : State) : Move → Prop
  | .bufWrite k a bytes => s.ces[k]? = none ∨ s.params.bufSize.val < a.toNat + bytes.length
  | .bufRead k a => s.ces[k]? = none ∨ s.params.bufSize.val ≤ a.toNat
  | .fwbWrite a bytes => s.params.fwbSize.val < a.toNat + bytes.length
  | .fwbRead a => s.params.fwbSize.val ≤ a.toNat
  | .imgWrite a bytes => 2 ^ 32 < a.toNat + bytes.length
  | .write _ _ | .read _ | .imgRead _ | .imgClear | .waitCe _ | .waitBs | .lapse | .lapseCe _ | .lapseBs | .reset => False

/-- A BUF byte in the source range of the command in progress; `GEN_IV` has none (log entry 25). -/
def CeUnit.inSource (u : CeUnit) (x : Nat) : Prop :=
  u.cmd ≠ 0x05 ∧ u.src.toNat ≤ x ∧ x < u.src.toNat + u.len.toNat

/-- A BUF byte in the destination range of the command in progress (log entry 25). -/
def CeUnit.inDestination (u : CeUnit) (x : Nat) : Prop := u.dst.toNat ≤ x ∧ x < u.dst.toNat + u.len.toNat

/-- The move is one that R79 (c) forbids: a write to a byte a busy unit reads or writes, a read of a byte it writes, a
change of FWB or IMG while BS is busy. Other reads of a busy unit's memory are let through (log entry 26). -/
def State.touchesBusy (s : State) : Move → Prop
  | .bufWrite k a bytes => ∃ u, s.ces[k]? = some u ∧ u.flags.busy = true ∧
      ∃ j, j < bytes.length ∧ (u.inSource (a.toNat + j) ∨ u.inDestination (a.toNat + j))
  | .bufRead k a => ∃ u, s.ces[k]? = some u ∧ u.flags.busy = true ∧ u.inDestination a.toNat
  | .fwbWrite _ _ | .imgWrite _ _ | .imgClear => s.bs.flags.busy = true
  | .write _ _ | .read _ | .fwbRead _ | .imgRead _ | .waitCe _ | .waitBs | .lapse | .lapseCe _ | .lapseBs | .reset => False

/-- The move that lets a command's own unit alone take a step. -/
def soloLapse : Instr → Move
  | .ecbEnc k | .ecbDec k | .cbcEnc k | .cbcDec k | .genIv k => .lapseCe k
  | .devInit | .blkStart | .blkWrite | .chunkWrite | .blkProgram | .devLoad => .lapseBs

/-- A run of `n` steps is safe when HOST makes no move the spec gives it no right to: it reaches a state (R79, U6). -/
def SafeRun (n : Nat) (s : State) : Prop := ∃ t, Host.Core.run Sys2Proof.core n s = .next t

/-! ## The cipher commands on a whole buffer -/

/-- The loop over `off`: `n` blocks, from offset `off`, with `ch` in `CHAIN`. `xf` takes `CHAIN` and the block read to the
block written and the next `CHAIN`. Each block is read whole and written whole before the next is read (R73). -/
def bufferLoop (xf : Block → Block → Block × Block) (sp : Space) (src dst : Nat) :
    (n off : Nat) → Block → Memory → Memory
  | 0, _, _, m => m
  | n + 1, off, ch, m =>
    let r := xf ch (readBlock sp m (src + off))
    bufferLoop xf sp src dst n (off + 16) r.2 (writeBlock m (dst + off) r.1)

/-- `ECB_ENC` on one block (R163). -/
def ecbEncXf (W : Vector CWord 60) (nr : Nat) (ch b : Block) : Block × Block := (encBlock W nr b, ch)

/-- `ECB_DEC` on one block (R164). -/
def ecbDecXf (W : Vector CWord 60) (nr : Nat) (ch b : Block) : Block × Block := (decBlock W nr b, ch)

/-- `CBC_ENC` on one block (R166). -/
def cbcEncXf (W : Vector CWord 60) (nr : Nat) (ch b : Block) : Block × Block :=
  (encBlock W nr (xorBlock b ch), encBlock W nr (xorBlock b ch))

/-- `CBC_DEC` on one block (R169). -/
def cbcDecXf (W : Vector CWord 60) (nr : Nat) (ch b : Block) : Block × Block := (xorBlock (decBlock W nr b) ch, b)

/-- BUF after a cipher command whose checks have passed. -/
def cipherBuffer (xf : Block → Block → Block × Block) (k : Nat) (u : CeUnit) : Memory :=
  bufferLoop xf (.buf k) u.src.toNat u.dst.toNat (u.len.toNat / 16) 0 u.iv u.buf

/-- A cipher unit after a command that succeeded: the report, the result count and BUF; nothing else differs. -/
def CeUnit.succeeded (u : CeUnit) (result : Word) (buf : Memory) : CeUnit :=
  { u with flags := { busy := false, done := true, err := false, ovr := false }, err := .success, result := result,
           buf := buf }

/-- A cipher unit after a command that was refused: the report, and `CE_RESULT = 0`; nothing else differs (R264). -/
def CeUnit.refused (u : CeUnit) (e : ErrCode) : CeUnit :=
  { u with flags := { busy := false, done := true, err := true, ovr := false }, err := e, result := 0 }

/-- The machine with cipher unit `k` replaced. -/
def State.setCe (s : State) (k : Nat) (u : CeUnit) : State := { s with ces := s.ces.set k u }

/-! ## The bootloader's reports -/

/-- BS after a command that succeeded, but for what the command itself wrote. -/
def BsUnit.succeeded (b : BsUnit) : BsUnit :=
  { b with flags := { busy := false, done := true, err := false, ovr := false }, err := .success, cmd := 0,
           point := .idle }

/-- BS after a command that was refused (R264). -/
def BsUnit.refused (b : BsUnit) (e : ErrCode) : BsUnit :=
  { b with flags := { busy := false, done := true, err := true, ovr := false }, err := e, cmd := 0, point := .idle }

/-- BS after a raise (R263), but for what the command wrote before it. -/
def BsUnit.raised (b : BsUnit) (e : ErrCode) : BsUnit := { b with state := .failed }.refused e

/-- Idle BS: no command in progress. -/
def BsUnit.idleClear (b : BsUnit) : Prop := b.flags.busy = false ∧ b.cmd = 0 ∧ b.point = .idle

/-- The messages after a status helper call: one more when `S_CTRL.STATUS_EN = 1` (R186). -/
def messagesAfter (ctrl : Byte) (msgs : List (Byte × MsgId)) (more : List (Byte × MsgId)) : List (Byte × MsgId) :=
  if statusEn ctrl then msgs ++ more else msgs

/-! ## The events of a block and of a load -/

/-- Bytes `k * chunk` to `min((k+1) * chunk, block) - 1` of a block's data (R206). -/
def chunkSlice (data : List Byte) (chunk k : Nat) : List Byte := (data.drop (k * chunk)).take chunk

/-- The chunks of a block, in order (R206, R207). -/
def blockChunks (data : List Byte) (chunk : Nat) : List (List Byte) :=
  (List.range (ceilDiv data.length chunk)).map (chunkSlice data chunk)

/-- The block-data requests of a block, each with the type of its ACK (R105, R206). -/
def blockDataRequests (p : Params) (b : BsUnit) (data : List Byte) : List (Event × Half) :=
  (blockChunks data b.chunkSize.toNat).map fun c => (requestEvent p b p.typeBlockData c, p.typeBlockDataAck)

/-- The block of `FW_r` that starts at `a` (R225, R226). -/
def imageBlock (img : Memory) (g : Region) (blockSize a : Nat) : List Byte :=
  (List.range blockSize).map fun j => fwByte img g (a + j)

/-- The address of block `k` of a region whose first block starts at `start` (R225). -/
def blockAddr (b : BsUnit) (start k : Nat) : Nat := start + k * b.blockSize.toNat

/-- The requests `DEV_LOAD` sends for block `k` of a region: start-block, block-data, program-block, each with the type
of its ACK (R225, R229). -/
def loadBlockRequests (p : Params) (img : Memory) (b : BsUnit) (g : Region) (start k : Nat) : List (Event × Half) :=
  let n : Word := BitVec.ofNat 32 (blockAddr b start k / b.blockSize.toNat)
  (requestEvent p b p.typeStartBlock (startBlockPayload n g.memtype), p.typeStartBlockAck) ::
    (blockDataRequests p b (imageBlock img g b.blockSize.toNat (blockAddr b start k)) ++
      [(requestEvent p b p.typeProgramBlock (programBlockPayload n), p.typeProgramBlockAck)])

/-- The written span of region `r` as blocks: first address and count, none for a region without data (R227, R228). -/
def regionBlocks (p : Params) (img : Memory) (b : BsUnit) (r : Nat) : Option (Nat × Nat) :=
  (span img (regionOf p r)).map fun s => loadBlocks b.blockSize.toNat s.1 s.2

/-- The requests `DEV_LOAD` sends for region `r` (R225). -/
def loadRegionRequests (p : Params) (img : Memory) (b : BsUnit) (r : Nat) : List (Event × Half) :=
  match regionBlocks p img b r with
  | none => []
  | some (start, nblk) => (List.range nblk).flatMap (loadBlockRequests p img b (regionOf p r) start)

/-- The requests of a whole `DEV_LOAD`: regions 0, 1, 2, 3 in order (R225, R233). -/
def loadRequests (p : Params) (img : Memory) (b : BsUnit) : List (Event × Half) :=
  (List.range 4).flatMap (loadRegionRequests p img b)

/-- The bytes a load sends as block data, over all blocks and regions (R230). -/
def loadBytes (p : Params) (img : Memory) (b : BsUnit) : List Byte :=
  (List.range 4).flatMap fun r =>
    match regionBlocks p img b r with
    | none => []
    | some (start, nblk) =>
      (List.range nblk).flatMap fun k => imageBlock img (regionOf p r) b.blockSize.toNat (blockAddr b start k)

/-- What a load hands to the status port (R240, R241). -/
def loadMessages (p : Params) (img : Memory) (b : BsUnit) : List (Byte × MsgId) :=
  ((List.range 4).flatMap fun r =>
    match regionBlocks p img b r with
    | none => []
    | some (_, nblk) =>
      (milestone, MsgId.regionStart) ::
        (List.range nblk).map fun k => (progressOf (k + 1) nblk, MsgId.blockProgrammed)) ++
    [(100, MsgId.loadDone)]

/-- The transport and the node agree with a list of requests: every send succeeds, and the queue then holds the ACK of
each request, from the session's node, in the order sent (R52, R53). -/
def Env.agrees (e : Env) (p : Params) (b : BsUnit) (reqs : List (Event × Half)) (sends : List PortStatus)
    (counts : List (PortStatus × Word)) (receives : List (PortStatus × Event)) : Prop :=
  e.sendStatus = List.replicate reqs.length .ok ++ sends ∧
    (∃ cs, cs.length = reqs.length ∧ (∀ c ∈ cs, c.1 = .ok ∧ c.2 ≠ 0) ∧ e.counts = cs ++ counts) ∧
    ∃ evs, evs.map (fun r => (r.1, r.2.cls, r.2.typ, r.2.guid)) =
        reqs.map (fun q => (PortStatus.ok, p.classProtocol, q.2, b.sGuid)) ∧
      e.receives = evs ++ receives

/-- One exchange: the send succeeds, the first poll finds an event pending, and the event received is `ev`, of the
session's class, node and the type given (R182, R183). -/
def Env.oneAnswer (e : Env) (p : Params) (guid : Guid) (typ : Half) (ev : Event) (sends : List PortStatus)
    (counts : List (PortStatus × Word)) (receives : List (PortStatus × Event)) : Prop :=
  e.sendStatus = .ok :: sends ∧ (∃ c, c ≠ 0 ∧ e.counts = (.ok, c) :: counts) ∧ e.receives = (.ok, ev) :: receives ∧
    ev.cls = p.classProtocol ∧ ev.typ = typ ∧ ev.guid = guid

/-- The environment after one exchange whose request was `req`: one event sent, the timer read once. -/
def Env.afterExchange (e : Env) (req : Event) (sends : List PortStatus) (counts : List (PortStatus × Word))
    (receives : List (PortStatus × Event)) : Env :=
  { e.now.2 with sendStatus := sends, counts := counts, receives := receives, sent := e.sent ++ [req] }

/-- The environment with messages handed out when `ctrl` has `STATUS_EN` (R186). -/
def Env.withMessages (e : Env) (ctrl : Byte) (more : List (Byte × MsgId)) : Env :=
  { e with messages := messagesAfter ctrl e.messages more }

/-! ## DEV_INIT -/

/-- BS inside `DEV_INIT` once the registers have been read and both checks on them have passed, but for its state
(R190 to R193). -/
def BsUnit.registersPassed (p : Params) (b : BsUnit) (alg : Byte) (code : Half) : BsUnit :=
  { sessionOpen p b with remoteAlg := alg, remoteDevcode := code, warn := code ≠ b.devcode }

/-- The messages of `DEV_INIT` up to its request (R240). -/
def devInitMessages (mismatch : Bool) : List (Byte × MsgId) :=
  [(milestone, .initStart), (milestone, .regsRead)] ++ (if mismatch then [(milestone, .devcodeMismatch)] else [])

/-- The enter-bootloader request of a session that `b`'s operands open (R101). -/
def enterBootRequest (p : Params) (b : BsUnit) : Event :=
  requestEvent p (sessionOpen p b) p.typeEnterBoot (enterBootPayload p (sessionOpen p b))

/-! ## What a command leaves alone -/

/-- "No CE command writes any of them" (R21). -/
def CeUnit.sameOperands (u t : CeUnit) : Prop :=
  t.key = u.key ∧ t.iv = u.iv ∧ t.variant = u.variant ∧ t.src = u.src ∧ t.dst = u.dst ∧ t.len = u.len

/-- "No BS command writes any of them" (R22). -/
def BsUnit.sameOperands (b t : BsUnit) : Prop :=
  t.guid = b.guid ∧ t.nickname = b.nickname ∧ t.page = b.page ∧ t.devcode = b.devcode ∧ t.timeout = b.timeout ∧
    t.ctrl = b.ctrl ∧ t.blockNo = b.blockNo ∧ t.memtype = b.memtype ∧ t.src = b.src ∧ t.chunkLen = b.chunkLen

/-- The latched operands but `S_CTRL`, the negotiated sizes, the registers read and `WARN`: what `DEV_INIT` alone writes
(R43, R191, R35). -/
def BsUnit.sameSession (b t : BsUnit) : Prop :=
  t.sGuid = b.sGuid ∧ t.sNickname = b.sNickname ∧ t.sPage = b.sPage ∧ t.sDevcode = b.sDevcode ∧
    t.sTimeout = b.sTimeout ∧ t.blockSize = b.blockSize ∧ t.numBlocks = b.numBlocks ∧ t.chunkSize = b.chunkSize ∧
    t.remoteAlg = b.remoteAlg ∧ t.remoteDevcode = b.remoteDevcode ∧ t.warn = b.warn

/-- The arrows of the transition table that one step of BS's pseudocode can take; `DEV_INIT`'s accept step is not among
them (R221). -/
def SessionState.arrow (a b : SessionState) : Prop :=
  (a = .init ∧ b = .registersRead) ∨ (a = .registersRead ∧ b = .bootModeRequested) ∨
    (a = .bootModeRequested ∧ b = .bootModeConfirmed) ∨
    ((a = .bootModeConfirmed ∨ a = .blockProgrammed) ∧ b = .blockStarted) ∨
    (a = .blockStarted ∧ b = .blockWritten) ∨ (a = .blockWritten ∧ b = .blockProgrammed) ∨
    ((a = .bootModeConfirmed ∨ a = .blockProgrammed) ∧ b = .rebooted) ∨ b = .failed

end Sys2Proof.Machine
end

