-- ==== Sys2Proof/Certificates/Slice0/Obligations.lean ====
section
/-!
DEFINITION. The statements for the provers. Each docstring names the rule of spec/ or the sections its statement rests
on; where a clause rests on a choice of the model, the docstring names the log entry.

`pace` is how many steps of its pseudocode a unit takes after it accepts a command before another agent moves (log entry
9, a choice of the model); a hypothesis on it says that the command has the steps it needs.
-/

section

open Sys2Proof Sys2Proof.Machine

/-! ## Codes -/

/-- R93: on the command register of a cipher unit the codes 0x01 to 0x05 and no others are legal, on `BS_CMD` the codes
0x10 to 0x15 and no others; the codes are those of the table. That a cipher unit's number is below 15 is the register map's (R37, log entry 5). -/
def Obligations.CommandMap : Prop :=
  (∀ k, k < 15 →
    decode (regAddr k 0) 0x01 = .ok (.ecbEnc k) ∧ decode (regAddr k 0) 0x02 = .ok (.ecbDec k) ∧
    decode (regAddr k 0) 0x03 = .ok (.cbcEnc k) ∧ decode (regAddr k 0) 0x04 = .ok (.cbcDec k) ∧
    decode (regAddr k 0) 0x05 = .ok (.genIv k) ∧
    ∀ c : Byte, ¬(1 ≤ c.toNat ∧ c.toNat ≤ 5) → ∀ i, decode (regAddr k 0) c ≠ .ok i) ∧
  decode 0xF000 0x10 = .ok .devInit ∧ decode 0xF000 0x11 = .ok .blkStart ∧ decode 0xF000 0x12 = .ok .blkWrite ∧
  decode 0xF000 0x13 = .ok .chunkWrite ∧ decode 0xF000 0x14 = .ok .blkProgram ∧ decode 0xF000 0x15 = .ok .devLoad ∧
  ∀ c : Byte, ¬(0x10 ≤ c.toNat ∧ c.toNat ≤ 0x15) → ∀ i, decode 0xF000 c ≠ .ok i

/-- Every well-formed command, on every cipher unit, is read back from its register write. -/
def Obligations.DecodeInvertsEncode : Prop :=
  ∀ i : Instr, i.wellFormed = true → decode (encode i).1 (encode i).2 = .ok i

/-- Every register write the decoder reads as a command is that command's own: no two writes mean one command, and no
other address or code means any. -/
def Obligations.EncodeInvertsDecode : Prop :=
  ∀ (a : RegAddr) (c : Byte) (i : Instr), decode a c = .ok i → i.wellFormed = true ∧ encode i = (a, c)

/-! ## A step -/

/-- R92: HOST's write of a command's code is the step that runs the command, with that move taken. The second clause says
the same of `withFetchWord`. That HOST's moves stand in a list is the model's form (log entry 8); that the code is the low
byte of a value wider than the command register is deduced (log entry 14). -/
def Obligations.StepRunsDecodedCommand : Prop :=
  (∀ (s : State) (a : RegAddr) (v : Word) (rest : List Move) (i : Instr), s.moves = .write a v :: rest →
    decode a (v.setWidth 8) = .ok i → step s = exec i { s with moves := rest }) ∧
  ∀ (s : State) (nbits w : Nat) (i : Instr), decodeTableWord nbits w = some i →
    step (s.withFetchWord nbits w) = exec i s

/-- R97: a write of any other code to a command register is accepted, and completes at once as a refusal with
`ERR_ILLEGAL_CMD`; "No state other than the status and error registers changes" (`CE_RESULT` becomes 0, R264).
That the code is the low byte of a wider value, and that the refusal falls in the accept step, are deduced (log entries 14
and 19). -/
def Obligations.ReservedCodeIsRefused : Prop :=
  (∀ (s : State) (k : Nat) (u : CeUnit) (v : Word) (rest : List Move), k < 15 →
    s.moves = .write (regAddr k 0) v :: rest → s.ces[k]? = some u → u.idleClear →
    ¬(1 ≤ (v.setWidth 8).toNat ∧ (v.setWidth 8).toNat ≤ 5) →
    step s = .next ({ s with moves := rest }.setCe k (u.refused .illegalCmd))) ∧
  ∀ (s : State) (v : Word) (rest : List Move), s.moves = .write 0xF000 v :: rest → s.bs.idleClear →
    ¬(0x10 ≤ (v.setWidth 8).toNat ∧ (v.setWidth 8).toNat ≤ 0x15) →
    step s = .next { s with moves := rest, bs := s.bs.refused .illegalCmd }

/-- R92: "When the unit has `BUSY = 1` the write does nothing except set `OVR`", for every command. -/
def Obligations.BusyUnitOverrun : Prop :=
  (∀ (s : State) (k : Nat) (u : CeUnit) (i : Instr), i ∈ [.ecbEnc k, .ecbDec k, .cbcEnc k, .cbcDec k, .genIv k] →
    s.ces[k]? = some u → u.flags.busy = true →
    exec i s = .next (s.setCe k { u with flags := { u.flags with ovr := true } })) ∧
  ∀ (s : State) (i : Instr), i ∈ [.devInit, .blkStart, .blkWrite, .chunkWrite, .blkProgram, .devLoad] →
    s.bs.flags.busy = true →
    exec i s = .next { s with bs := { s.bs with flags := { s.bs.flags with ovr := true } } }

/-- R92, R33: whatever the command then does, its accept step clears `OVR` and the old report. So after a command issued
to an idle unit `OVR` is clear. -/
def Obligations.AcceptClearsOverrun : Prop :=
  (∀ (s t : State) (k : Nat) (u w : CeUnit) (i : Instr),
    i ∈ [.ecbEnc k, .ecbDec k, .cbcEnc k, .cbcDec k, .genIv k] → s.ces[k]? = some u → u.flags.busy = false →
    exec i s = .next t → t.ces[k]? = some w →
    w.flags.ovr = false ∧ w.flags.busy = !w.flags.done ∧ (w.flags.busy = true → w.cmd = (encode i).2)) ∧
  ∀ (s t : State) (i : Instr), i ∈ [.devInit, .blkStart, .blkWrite, .chunkWrite, .blkProgram, .devLoad] →
    s.bs.flags.busy = false → exec i s = .next t →
    t.bs.flags.ovr = false ∧ t.bs.flags.busy = !t.bs.flags.done ∧ (t.bs.flags.busy = true → t.bs.cmd = (encode i).2)

/-! ## The cipher's arithmetic -/

/-- R122's identities in terms of `xtime`, and its corner cases. -/
def Obligations.FieldMultiplication : Prop :=
  (∀ a : Byte, gmul a 0x01 = a ∧ gmul a 0x02 = xtime a ∧ gmul a 0x03 = xtime a ^^^ a ∧
    gmul a 0x09 = xtime (xtime (xtime a)) ^^^ a ∧
    gmul a 0x0B = xtime (xtime (xtime a)) ^^^ xtime a ^^^ a ∧
    gmul a 0x0D = xtime (xtime (xtime a)) ^^^ xtime (xtime a) ^^^ a ∧
    gmul a 0x0E = xtime (xtime (xtime a)) ^^^ xtime (xtime a) ^^^ xtime a ∧
    gmul a 0x00 = 0 ∧ gmul 0x00 a = 0) ∧
  (∀ a b : Byte, gmul a b = gmul b a) ∧ ∀ a b c : Byte, gmul (a ^^^ b) c = gmul a c ^^^ gmul b c

/-- R124: `INV_SBOX` is the inverse permutation of `SBOX`. -/
def Obligations.SubstitutionTablesInvert : Prop :=
  ∀ a : Byte, invSbox (sbox a) = a ∧ sbox (invSbox a) = a

/-- R134: each round transform and its inverse undo each other, in both orders; the substitutions commute with the
rotations. -/
def Obligations.RoundTransformsInvert : Prop :=
  ∀ (S : Block) (W : Vector CWord 60) (r : Nat),
    invSubBytes (subBytes S) = S ∧ subBytes (invSubBytes S) = S ∧
    invShiftRows (shiftRows S) = S ∧ shiftRows (invShiftRows S) = S ∧
    invMixColumns (mixColumns S) = S ∧ mixColumns (invMixColumns S) = S ∧
    addRoundKey W r (addRoundKey W r S) = S ∧
    subBytes (shiftRows S) = shiftRows (subBytes S) ∧ invSubBytes (invShiftRows S) = invShiftRows (invSubBytes S)

/-- R154: under the schedule of one key, for each of the three variants, `DEC_BLOCK` and `ENC_BLOCK` undo each other on
every block. -/
def Obligations.BlockTransformsInvert : Prop :=
  ∀ (key : Vector Byte 32) (x : Half) (v : Variant) (B : Block), variantOf x = some v →
    decBlock (expandKey key v) v.nr (encBlock (expandKey key v) v.nr B) = B ∧
    encBlock (expandKey key v) v.nr (decBlock (expandKey key v) v.nr B) = B

/-- R8, R95, R140: the three legal variants and their constants. R141, R142: the words of the schedule. The first `Nk` come from the key, each later one from two earlier ones; words
from `4*(Nr+1)` on are not written; bytes of the key past `4*Nk` are not read. -/
def Obligations.KeyScheduleWords : Prop :=
  (∀ (x : Half) (v : Variant), variantOf x = some v ↔
    (x.toNat = 128 ∧ v = { nk := 4, nr := 10 }) ∨ (x.toNat = 192 ∧ v = { nk := 6, nr := 12 }) ∨
      (x.toNat = 256 ∧ v = { nk := 8, nr := 14 })) ∧
  ∀ (key : Vector Byte 32) (x : Half) (v : Variant), variantOf x = some v →
    (∀ j, j < v.nk → scheduleWord (expandKey key v) j = keyWord key j) ∧
    (∀ i, v.nk ≤ i → i < 4 * (v.nr + 1) →
      scheduleWord (expandKey key v) i =
        xorWord (scheduleWord (expandKey key v) (i - v.nk))
          (expandTemp v.nk i (scheduleWord (expandKey key v) (i - 1)))) ∧
    (∀ i, 4 * (v.nr + 1) ≤ i → scheduleWord (expandKey key v) i = zeroWord) ∧
    ∀ key' : Vector Byte 32, (∀ j, j < 4 * v.nk → key'.getD j 0 = key.getD j 0) → expandKey key' v = expandKey key v

/-! ## The cipher commands -/

/-- R161, R258, R262: the three checks and their order, for each of the four cipher commands. Nothing but the report
changes, BUF included. -/
def Obligations.CipherRefusals : Prop :=
  ∀ (s : State) (k : Nat) (u : CeUnit) (i : Instr), i ∈ [.ecbEnc k, .ecbDec k, .cbcEnc k, .cbcDec k] →
    s.ces[k]? = some u → u.idleClear → 1 ≤ s.pace →
    (u.variant.toNat ∉ [128, 192, 256] → exec i s = .next (s.setCe k (u.refused .variant))) ∧
    (u.variant.toNat ∈ [128, 192, 256] → u.len.toNat % 16 ≠ 0 → exec i s = .next (s.setCe k (u.refused .length))) ∧
    (u.variant.toNat ∈ [128, 192, 256] → u.len.toNat % 16 = 0 →
      s.params.bufSize.val < u.src.toNat + u.len.toNat ∨ s.params.bufSize.val < u.dst.toNat + u.len.toNat →
      exec i s = .next (s.setCe k (u.refused .range)))

/-- R163: `ECB_ENC` on operands that pass the checks. The unit afterwards differs in its report, `CE_RESULT = LEN` and
BUF alone. -/
def Obligations.EcbEncResult : Prop :=
  ∀ (s : State) (k : Nat) (u : CeUnit) (v : Variant), s.ces[k]? = some u → u.idleClear →
    variantOf u.variant = some v → u.len.toNat % 16 = 0 → u.src.toNat + u.len.toNat ≤ s.params.bufSize.val →
    u.dst.toNat + u.len.toNat ≤ s.params.bufSize.val → u.len.toNat + 64 ≤ s.pace →
    exec (.ecbEnc k) s =
      .next (s.setCe k (u.succeeded u.len (cipherBuffer (ecbEncXf (expandKey u.key v) v.nr) k u)))

/-- R164: `ECB_DEC`. -/
def Obligations.EcbDecResult : Prop :=
  ∀ (s : State) (k : Nat) (u : CeUnit) (v : Variant), s.ces[k]? = some u → u.idleClear →
    variantOf u.variant = some v → u.len.toNat % 16 = 0 → u.src.toNat + u.len.toNat ≤ s.params.bufSize.val →
    u.dst.toNat + u.len.toNat ≤ s.params.bufSize.val → u.len.toNat + 64 ≤ s.pace →
    exec (.ecbDec k) s =
      .next (s.setCe k (u.succeeded u.len (cipherBuffer (ecbDecXf (expandKey u.key v) v.nr) k u)))

/-- R166, R167: `CBC_ENC`; `CE_IV` is unchanged. -/
def Obligations.CbcEncResult : Prop :=
  ∀ (s : State) (k : Nat) (u : CeUnit) (v : Variant), s.ces[k]? = some u → u.idleClear →
    variantOf u.variant = some v → u.len.toNat % 16 = 0 → u.src.toNat + u.len.toNat ≤ s.params.bufSize.val →
    u.dst.toNat + u.len.toNat ≤ s.params.bufSize.val → u.len.toNat + 64 ≤ s.pace →
    exec (.cbcEnc k) s =
      .next (s.setCe k (u.succeeded u.len (cipherBuffer (cbcEncXf (expandKey u.key v) v.nr) k u)))

/-- R169, R167: `CBC_DEC`; `CE_IV` is unchanged. -/
def Obligations.CbcDecResult : Prop :=
  ∀ (s : State) (k : Nat) (u : CeUnit) (v : Variant), s.ces[k]? = some u → u.idleClear →
    variantOf u.variant = some v → u.len.toNat % 16 = 0 → u.src.toNat + u.len.toNat ≤ s.params.bufSize.val →
    u.dst.toNat + u.len.toNat ≤ s.params.bufSize.val → u.len.toNat + 64 ≤ s.pace →
    exec (.cbcDec k) s =
      .next (s.setCe k (u.succeeded u.len (cipherBuffer (cbcDecXf (expandKey u.key v) v.nr) k u)))

/-- What `EcbEncResult` and `EcbDecResult` leave in BUF, block by block, in place or between disjoint ranges: each block
is transformed independently (R163, R164, R73, R74). The hypothesis on BUF is the canonical form every run keeps. -/
def Obligations.EcbBlocks : Prop :=
  ∀ (u : CeUnit) (k nr j : Nat) (W : Vector CWord 60), u.buf.wf → j < u.len.toNat / 16 →
    u.src = u.dst ∨ u.src.toNat + u.len.toNat ≤ u.dst.toNat ∨ u.dst.toNat + u.len.toNat ≤ u.src.toNat →
    readBlock (.buf k) (cipherBuffer (ecbEncXf W nr) k u) (u.dst.toNat + 16 * j) =
      encBlock W nr (readBlock (.buf k) u.buf (u.src.toNat + 16 * j)) ∧
    readBlock (.buf k) (cipherBuffer (ecbDecXf W nr) k u) (u.dst.toNat + 16 * j) =
      decBlock W nr (readBlock (.buf k) u.buf (u.src.toNat + 16 * j))

/-- What `CbcEncResult` and `CbcDecResult` leave in BUF: block 0 is chained to the IV, block `j + 1` to ciphertext block
`j`, which is output when encrypting and input when decrypting (R166, R167, R169). -/
def Obligations.CbcBlocks : Prop :=
  ∀ (u : CeUnit) (k nr : Nat) (W : Vector CWord 60), u.buf.wf →
    u.src = u.dst ∨ u.src.toNat + u.len.toNat ≤ u.dst.toNat ∨ u.dst.toNat + u.len.toNat ≤ u.src.toNat →
    let inp := fun j => readBlock (.buf k) u.buf (u.src.toNat + 16 * j)
    let enc := fun j => readBlock (.buf k) (cipherBuffer (cbcEncXf W nr) k u) (u.dst.toNat + 16 * j)
    let dec := fun j => readBlock (.buf k) (cipherBuffer (cbcDecXf W nr) k u) (u.dst.toNat + 16 * j)
    (0 < u.len.toNat / 16 →
      enc 0 = encBlock W nr (xorBlock (inp 0) u.iv) ∧ dec 0 = xorBlock (decBlock W nr (inp 0)) u.iv) ∧
    ∀ j, j + 1 < u.len.toNat / 16 →
      enc (j + 1) = encBlock W nr (xorBlock (inp (j + 1)) (enc j)) ∧
      dec (j + 1) = xorBlock (decBlock W nr (inp (j + 1))) (inp j)

/-- The frame of the five cipher-unit commands, however far a command gets before another agent moves: on a unit that is
idle or busy, that unit alone changes; no operand register is written (R21); every byte of BUF outside
`DST .. DST + LEN - 1` reads as before; a unit left idle has a clear workspace (R46); and `GEN_IV` alone uses the unit's
random source. -/
def Obligations.CipherCommandFrame : Prop :=
  ∀ (s t : State) (k : Nat) (u : CeUnit) (i : Instr),
    i ∈ [.ecbEnc k, .ecbDec k, .cbcEnc k, .cbcDec k, .genIv k] → s.ces[k]? = some u →
    (u.flags.busy = false → u.idleClear) → exec i s = .next t →
    ∃ w : CeUnit, t = s.setCe k w ∧ u.sameOperands w ∧
      (∀ a, ¬(u.dst.toNat ≤ a ∧ a < u.dst.toNat + u.len.toNat) →
        byteAt (.buf k) w.buf a = byteAt (.buf k) u.buf a) ∧
      (w.flags.busy = false → w.idleClear) ∧ (i ≠ .genIv k → w.rng = u.rng)

/-- R171, R172: `GEN_IV` in all its cases. With the source available `LEN` bytes of BUF at `DST` are the bytes drawn, and
`CE_RESULT = LEN`; with the source unavailable nothing is written and `CE_RESULT = 0` with `SUCCESS`; out of range it is
refused and nothing is drawn. `CE_VARIANT` and the other operands do not matter. The last clause says that the bytes drawn
are the source's own answers in order, as long as it has them: no fallback (R51). That the source answers each unit by a
list of its own is the model's form (log entry 4). -/
def Obligations.GenIvResult : Prop :=
  ∀ (s : State) (k : Nat) (u : CeUnit), s.ces[k]? = some u → u.idleClear → 1 ≤ s.pace →
    let av := u.rng.isAvailable k
    let d := Rng.draw k u.len.toNat av.2
    (u.dst.toNat + u.len.toNat ≤ s.params.bufSize.val → av.1 = true →
      exec (.genIv k) s =
        .next (s.setCe k { u.succeeded u.len (u.buf.writeBytes u.dst.toNat d.1) with rng := d.2 }) ∧
      d.1.length = u.len.toNat) ∧
    (u.dst.toNat + u.len.toNat ≤ s.params.bufSize.val → av.1 = false →
      exec (.genIv k) s = .next (s.setCe k { u.succeeded 0 u.buf with rng := av.2 })) ∧
    (s.params.bufSize.val < u.dst.toNat + u.len.toNat → exec (.genIv k) s = .next (s.setCe k (u.refused .range))) ∧
    ∀ (r : Rng) (bytes rest : List Byte), r.bytes = bytes ++ rest →
      Rng.draw k bytes.length r = (bytes, { r with bytes := rest })

/-- R165: `ECB_ENC` and then `ECB_DEC` from its destination to a third address, with the same variant and key, give back
the bytes that were at the first source, for equal or disjoint ranges. HOST rewrites `CE_SRC` and `CE_DST` in between. -/
def Obligations.EcbRoundTrip : Prop :=
  ∀ (s : State) (k : Nat) (u : CeUnit) (v : Variant) (d2 : Word), s.ces[k]? = some u → u.idleClear → u.buf.wf →
    variantOf u.variant = some v → u.len.toNat % 16 = 0 → u.src.toNat + u.len.toNat ≤ s.params.bufSize.val →
    u.dst.toNat + u.len.toNat ≤ s.params.bufSize.val → d2.toNat + u.len.toNat ≤ s.params.bufSize.val →
    u.len.toNat + 64 ≤ s.pace →
    u.src = u.dst ∨ u.src.toNat + u.len.toNat ≤ u.dst.toNat ∨ u.dst.toNat + u.len.toNat ≤ u.src.toNat →
    u.dst = d2 ∨ u.dst.toNat + u.len.toNat ≤ d2.toNat ∨ d2.toNat + u.len.toNat ≤ u.dst.toNat →
    ∃ (t t' : State) (w w' : CeUnit), exec (.ecbEnc k) s = .next t ∧ t.ces[k]? = some w ∧
      exec (.ecbDec k) (t.setCe k { w with src := u.dst, dst := d2 }) = .next t' ∧ t'.ces[k]? = some w' ∧
      w'.err = .success ∧ w'.flags.done = true ∧ w'.result = u.len ∧
      ∀ j, j < u.len.toNat → byteAt (.buf k) w'.buf (d2.toNat + j) = byteAt (.buf k) u.buf (u.src.toNat + j)

/-- R170: the same of `CBC_ENC` and `CBC_DEC`, with the same `CE_IV` for both, which `CBC_ENC` leaves unchanged. -/
def Obligations.CbcRoundTrip : Prop :=
  ∀ (s : State) (k : Nat) (u : CeUnit) (v : Variant) (d2 : Word), s.ces[k]? = some u → u.idleClear → u.buf.wf →
    variantOf u.variant = some v → u.len.toNat % 16 = 0 → u.src.toNat + u.len.toNat ≤ s.params.bufSize.val →
    u.dst.toNat + u.len.toNat ≤ s.params.bufSize.val → d2.toNat + u.len.toNat ≤ s.params.bufSize.val →
    u.len.toNat + 64 ≤ s.pace →
    u.src = u.dst ∨ u.src.toNat + u.len.toNat ≤ u.dst.toNat ∨ u.dst.toNat + u.len.toNat ≤ u.src.toNat →
    u.dst = d2 ∨ u.dst.toNat + u.len.toNat ≤ d2.toNat ∨ d2.toNat + u.len.toNat ≤ u.dst.toNat →
    ∃ (t t' : State) (w w' : CeUnit), exec (.cbcEnc k) s = .next t ∧ t.ces[k]? = some w ∧
      exec (.cbcDec k) (t.setCe k { w with src := u.dst, dst := d2 }) = .next t' ∧ t'.ces[k]? = some w' ∧
      w'.err = .success ∧ w'.flags.done = true ∧ w'.result = u.len ∧
      ∀ j, j < u.len.toNat → byteAt (.buf k) w'.buf (d2.toNat + j) = byteAt (.buf k) u.buf (u.src.toNat + j)

/-- R174: with `LEN = 0` a cipher command reads and writes no byte and completes with `CE_RESULT = 0`; an invalid variant
is still refused first. -/
def Obligations.ZeroLengthCipher : Prop :=
  ∀ (s : State) (k : Nat) (u : CeUnit) (i : Instr), i ∈ [.ecbEnc k, .ecbDec k, .cbcEnc k, .cbcDec k] →
    s.ces[k]? = some u → u.idleClear → u.len = 0 → 64 ≤ s.pace →
    (u.variant.toNat ∈ [128, 192, 256] → u.src.toNat ≤ s.params.bufSize.val → u.dst.toNat ≤ s.params.bufSize.val →
      exec i s = .next (s.setCe k (u.succeeded 0 u.buf))) ∧
    (u.variant.toNat ∉ [128, 192, 256] → exec i s = .next (s.setCe k (u.refused .variant)))

/-! ## Wire formats and the image -/

/-- R14, R101, R103, R104, R102: the payloads, byte by byte; `be32` and `be32_bytes` undo each other. R9, R90, R100: an
event has at most 512 payload bytes, `len` of them, and a request of no more carries its payload whole. -/
def Obligations.PayloadLayouts : Prop :=
  (∀ (p : Params) (b : BsUnit), enterBootPayload p b =
    [b.sNickname, p.expectedBootAlgorithm, b.sGuid[0], b.sGuid[3], b.sGuid[5], b.sGuid[7],
      BitVec.ofNat 8 (b.sPage.toNat / 256), BitVec.ofNat 8 b.sPage.toNat]) ∧
  (∀ (n : Word) (m : Byte), startBlockPayload n m =
    [BitVec.ofNat 8 (n.toNat / 2 ^ 24), BitVec.ofNat 8 (n.toNat / 2 ^ 16), BitVec.ofNat 8 (n.toNat / 2 ^ 8),
      BitVec.ofNat 8 n.toNat, m, 0, 0, 0]) ∧
  (∀ n : Word, programBlockPayload n =
    [BitVec.ofNat 8 (n.toNat / 2 ^ 24), BitVec.ofNat 8 (n.toNat / 2 ^ 16), BitVec.ofNat 8 (n.toNat / 2 ^ 8),
      BitVec.ofNat 8 n.toNat]) ∧
  (∀ (m n : Word) (rest : List Byte), ackBlockSize (be32Bytes m ++ be32Bytes n ++ rest) = m ∧
    ackNumBlocks (be32Bytes m ++ be32Bytes n ++ rest) = n) ∧
  (∀ b0 b1 b2 b3 : Byte, be32Bytes (be32 b0 b1 b2 b3) = [b0, b1, b2, b3]) ∧
  (∀ ev : Event, ev.payload.length = ev.len.val ∧ ev.payload.length ≤ 512) ∧
  ∀ (p : Params) (b : BsUnit) (typ : Half) (payload : List Byte), payload.length ≤ 512 →
    let ev := requestEvent p b typ payload
    ev.payload = payload ∧ ev.cls = p.classProtocol ∧ ev.typ = typ ∧ ev.timestamp = 0 ∧ ev.guid = b.sGuid

/-- R64: the first address of a region is at most its last. R227: `span` is empty exactly when the region holds no
populated address; else its ends are the smallest one and one past the largest. -/
def Obligations.SpanOfRegion : Prop :=
  ∀ (img : Memory) (g : Region), img.wf →
    let inP := fun a => g.first.toNat ≤ a ∧ a ≤ g.last.toNat ∧ img.read? a ≠ none
    g.first.toNat ≤ g.last.toNat ∧ (span img g = none ↔ ∀ a, ¬inP a) ∧
    ∀ lo hi, span img g = some (lo, hi) → lo < hi ∧ inP lo ∧ inP (hi - 1) ∧ ∀ a, inP a → lo ≤ a ∧ a < hi

/-- R228: the first block starts at the block boundary at or below the span, the blocks cover the span, and one block
fewer would not. -/
def Obligations.BlocksCoverSpan : Prop :=
  ∀ bs lo hi : Nat, 0 < bs → lo < hi →
    let r := loadBlocks bs lo hi
    r.1 % bs = 0 ∧ r.1 ≤ lo ∧ lo < r.1 + bs ∧ 1 ≤ r.2 ∧ hi ≤ r.1 + r.2 * bs ∧ r.1 + (r.2 - 1) * bs < hi

/-- R206, R207: the chunks of a block carry each byte exactly once and in order; there are `ceil_div(blockSize,
chunkSize)` of them; every one but the last has `chunkSize` bytes, and the last at least one. -/
def Obligations.ChunksPartitionBlock : Prop :=
  ∀ (data : List Byte) (c : Nat), 0 < c → 0 < data.length →
    (blockChunks data c).flatten = data ∧ (blockChunks data c).length = ceilDiv data.length c ∧
    (∀ k, k + 1 < ceilDiv data.length c → ((blockChunks data c)[k]?).map List.length = some c) ∧
    ∃ last, (blockChunks data c).getLast? = some last ∧ 0 < last.length ∧ last.length ≤ c

/-! ## DEV_INIT -/

/-- R191, R43, R221: `DEV_INIT` clears the session and latches the operands, seen however far the command gets.
`BS_CHUNKSIZE` is 8 or 512 by `ADDRMODE`. That this falls in the accept step, which the clause on `pace = 0` says, is
deduced from the transition table (R221; log entry 19). -/
def Obligations.DevInitOpensSession : Prop :=
  ∀ (s t : State), s.bs.flags.busy = false → exec .devInit s = .next t →
    t.bs.sGuid = s.bs.guid ∧ t.bs.sNickname = s.bs.nickname ∧ t.bs.sPage = s.bs.page ∧
    t.bs.sDevcode = s.bs.devcode ∧ t.bs.sTimeout = s.bs.timeout ∧ t.bs.sCtrl = s.bs.ctrl ∧
    t.bs.chunkSize = (if s.bs.ctrl.getLsbD 0 then 512 else 8) ∧ t.bs.checksum = s.params.crc16Init ∧
    t.bs.region = 0 ∧ t.bs.blockIdx = 0 ∧ t.bs.curBlock = 0 ∧ t.bs.chunkIdx = 0 ∧
    (s.pace = 0 → t.bs.state = .init ∧ t.bs.blockSize = 0 ∧ t.bs.numBlocks = 0 ∧ t.bs.remoteAlg = 0 ∧
      t.bs.remoteDevcode = 0 ∧ t.bs.warn = false ∧ t.bs.flags = { busy := true, done := false, err := false, ovr := false })

/-- R190: `DEV_INIT` from any session state, when the register read succeeds with the expected algorithm, the device codes
agree or the mismatch is soft, and the node answers the one request with an ACK of at least 8 bytes whose block size is at
least the chunk size. -/
def Obligations.DevInitResult : Prop :=
  ∀ (s : State) (code : Half) (regs : List (PortStatus × Byte × Half)) (ev : Event) (sends : List PortStatus)
    (counts : List (PortStatus × Word)) (receives : List (PortStatus × Event)),
    s.bs.flags.busy = false → 3 ≤ s.pace →
    s.env.registers = (.ok, s.params.expectedBootAlgorithm, code) :: regs →
    (code = s.bs.devcode ∨ abortMismatch s.bs.ctrl = false) →
    s.env.oneAnswer s.params s.bs.guid s.params.typeEnterBootAck ev sends counts receives →
    8 ≤ ev.len.val → (chunkSizeOf s.bs.ctrl).toNat ≤ (ackBlockSize ev.payload).toNat →
    exec .devInit s = .next { s with
      bs := BsUnit.succeeded
        { s.bs.registersPassed s.params s.params.expectedBootAlgorithm code with
          blockSize := ackBlockSize ev.payload, numBlocks := ackNumBlocks ev.payload, state := .bootModeConfirmed,
          deadlineT0 := s.env.now.1 },
      env := Env.withMessages
        { s.env.afterExchange (enterBootRequest s.params s.bs) sends counts receives with registers := regs }
        s.bs.ctrl
        (devInitMessages (code ≠ s.bs.devcode) ++ [(milestone, .bootRequested), (milestone, .bootConfirmed)]) }

/-- R192, R193, R259: the failures of `DEV_INIT` before it sends anything, in their order: a failing register read, another
algorithm, and a device-code mismatch that `ABORT_MISMATCH` makes hard. No event is sent. -/
def Obligations.DevInitEarlyFailures : Prop :=
  ∀ (s : State) (st : PortStatus) (alg : Byte) (code : Half) (regs : List (PortStatus × Byte × Half)),
    s.bs.flags.busy = false → 1 ≤ s.pace → s.env.registers = (st, alg, code) :: regs →
    (st ≠ .ok → exec .devInit s = .next { s with
      bs := (sessionOpen s.params s.bs).raised .comm,
      env := Env.withMessages { s.env with registers := regs } s.bs.ctrl
        [(milestone, .initStart), (milestone, .failed)] }) ∧
    (st = .ok → alg ≠ s.params.expectedBootAlgorithm → exec .devInit s = .next { s with
      bs := { sessionOpen s.params s.bs with remoteAlg := alg, remoteDevcode := code }.raised .notSupported,
      env := Env.withMessages { s.env with registers := regs } s.bs.ctrl
        [(milestone, .initStart), (milestone, .regsRead), (milestone, .failed)] }) ∧
    (st = .ok → alg = s.params.expectedBootAlgorithm → code ≠ s.bs.devcode → abortMismatch s.bs.ctrl = true →
      exec .devInit s = .next { s with
        bs := { sessionOpen s.params s.bs with remoteAlg := alg, remoteDevcode := code }.raised .parameter,
        env := Env.withMessages { s.env with registers := regs } s.bs.ctrl
          [(milestone, .initStart), (milestone, .regsRead), (milestone, .failed)] })

/-- R181, R182, R194, R195: the failures of `DEV_INIT` from its request on: a failing send, a NACK, an ACK of fewer than 8
bytes, an ACK whose block size is below the chunk size. After the last, `BS_BLOCKSIZE` and `BS_NUMBLOCKS` keep the
received values. -/
def Obligations.DevInitLateFailures : Prop :=
  ∀ (s : State) (code : Half) (regs : List (PortStatus × Byte × Half)) (sends : List PortStatus)
    (counts : List (PortStatus × Word)) (receives : List (PortStatus × Event)),
    s.bs.flags.busy = false → 3 ≤ s.pace →
    s.env.registers = (.ok, s.params.expectedBootAlgorithm, code) :: regs →
    (code = s.bs.devcode ∨ abortMismatch s.bs.ctrl = false) →
    let b := s.bs.registersPassed s.params s.params.expectedBootAlgorithm code
    let req := enterBootRequest s.params s.bs
    let early := devInitMessages (code ≠ s.bs.devcode)
    (s.env.sendStatus = .failed :: sends → exec .devInit s = .next { s with
      bs := b.raised .comm,
      env := Env.withMessages { s.env with registers := regs, sendStatus := sends, sent := s.env.sent ++ [req] }
        s.bs.ctrl (early ++ [(milestone, .failed)]) }) ∧
    (∀ ev, s.env.oneAnswer s.params s.bs.guid s.params.typeEnterBootNack ev sends counts receives →
      s.params.typeEnterBootNack ≠ s.params.typeEnterBootAck → exec .devInit s = .next { s with
        bs := { b with deadlineT0 := s.env.now.1 }.raised .nack,
        env := Env.withMessages { s.env.afterExchange req sends counts receives with registers := regs } s.bs.ctrl
          (early ++ [(milestone, .bootRequested), (milestone, .failed)]) }) ∧
    (∀ ev, s.env.oneAnswer s.params s.bs.guid s.params.typeEnterBootAck ev sends counts receives →
      ev.len.val < 8 → exec .devInit s = .next { s with
        bs := { b with deadlineT0 := s.env.now.1 }.raised .invalidFrame,
        env := Env.withMessages { s.env.afterExchange req sends counts receives with registers := regs } s.bs.ctrl
          (early ++ [(milestone, .bootRequested), (milestone, .failed)]) }) ∧
    ∀ ev, s.env.oneAnswer s.params s.bs.guid s.params.typeEnterBootAck ev sends counts receives →
      8 ≤ ev.len.val → (ackBlockSize ev.payload).toNat < (chunkSizeOf s.bs.ctrl).toNat →
      exec .devInit s = .next { s with
        bs := BsUnit.raised
          { b with deadlineT0 := s.env.now.1, blockSize := ackBlockSize ev.payload, numBlocks := ackNumBlocks ev.payload }
          .size,
        env := Env.withMessages { s.env.afterExchange req sends counts receives with registers := regs } s.bs.ctrl
          (early ++ [(milestone, .bootRequested), (milestone, .failed)]) }

/-! ## The step commands -/

/-- R222: which command may start in which state. Outside its row a command is refused with `ERR_STATE` and nothing else
changes; inside it the command goes on (seen with no step after the one that checks). `DEV_INIT` starts in every state. So
in `Init`, `Rebooted` and `Failed` only `DEV_INIT` is accepted (R223). That the guard is the first step after the accept
step, and that `DEV_INIT`'s accept step already leads to `Init`, is deduced (R221; log entry 19). -/
def Obligations.StateGuards : Prop :=
  ∀ (s : State), s.bs.flags.busy = false →
    (1 ≤ s.pace →
      (s.bs.state ≠ .bootModeConfirmed → s.bs.state ≠ .blockProgrammed →
        exec .blkStart s = .next { s with bs := s.bs.refused .state }) ∧
      (s.bs.state ≠ .blockStarted → exec .chunkWrite s = .next { s with bs := s.bs.refused .state }) ∧
      (s.bs.state ≠ .blockStarted ∨ s.bs.chunkIdx ≠ 0 →
        exec .blkWrite s = .next { s with bs := s.bs.refused .state }) ∧
      (s.bs.state ≠ .blockWritten → exec .blkProgram s = .next { s with bs := s.bs.refused .state }) ∧
      (s.bs.state ≠ .bootModeConfirmed → exec .devLoad s = .next { s with bs := s.bs.refused .state })) ∧
    (s.pace = 1 →
      (s.bs.state = .bootModeConfirmed ∨ s.bs.state = .blockProgrammed →
        ∃ t, exec .blkStart s = .next t ∧ t.bs.flags.busy = true) ∧
      (s.bs.state = .blockWritten → ∃ t, exec .blkProgram s = .next t ∧ t.bs.flags.busy = true) ∧
      (s.bs.state = .bootModeConfirmed → ∃ t, exec .devLoad s = .next t ∧ t.bs.flags.busy = true)) ∧
    (s.pace = 0 → ∃ t, exec .devInit s = .next t ∧ t.bs.flags.busy = true ∧ t.bs.state = .init)

/-- R204, R206, R259: the local checks that refuse, in their order, before any access and any event. -/
def Obligations.LocalRefusals : Prop :=
  ∀ (s : State), s.bs.flags.busy = false → 1 ≤ s.pace → s.bs.state = .blockStarted →
    (s.bs.chunkSize.toNat < s.bs.chunkLen.toNat → exec .chunkWrite s = .next { s with bs := s.bs.refused .size }) ∧
    (s.bs.chunkLen.toNat ≤ s.bs.chunkSize.toNat → s.params.fwbSize.val < s.bs.src.toNat + s.bs.chunkLen.toNat →
      exec .chunkWrite s = .next { s with bs := s.bs.refused .range }) ∧
    (s.bs.chunkIdx = 0 → s.params.fwbSize.val < s.bs.src.toNat + s.bs.blockSize.toNat →
      exec .blkWrite s = .next { s with bs := s.bs.refused .range })

/-- R200: `BLK_START` when the node acknowledges at the first poll. -/
def Obligations.BlkStartResult : Prop :=
  ∀ (s : State) (ev : Event) (sends : List PortStatus) (counts : List (PortStatus × Word))
    (receives : List (PortStatus × Event)),
    s.bs.flags.busy = false → 3 ≤ s.pace → (s.bs.state = .bootModeConfirmed ∨ s.bs.state = .blockProgrammed) →
    s.env.oneAnswer s.params s.bs.sGuid s.params.typeStartBlockAck ev sends counts receives →
    exec .blkStart s = .next { s with
      bs := { s.bs with curBlock := s.bs.blockNo, chunkIdx := 0, state := .blockStarted,
                        deadlineT0 := s.env.now.1 }.succeeded,
      env := s.env.afterExchange
        (requestEvent s.params s.bs s.params.typeStartBlock (startBlockPayload s.bs.blockNo s.bs.memtype))
        sends counts receives }

/-- R203, R204: `CHUNK_WRITE` when the node acknowledges at the first poll: the checksum takes in the chunk, the chunk
count goes up by one, and the state is `BlockWritten` when the count reaches `ceil_div(BS_BLOCKSIZE, BS_CHUNKSIZE)`. -/
def Obligations.ChunkWriteResult : Prop :=
  ∀ (s : State) (ev : Event) (sends : List PortStatus) (counts : List (PortStatus × Word))
    (receives : List (PortStatus × Event)),
    s.bs.flags.busy = false → 3 ≤ s.pace → s.bs.state = .blockStarted →
    s.bs.chunkLen.toNat ≤ s.bs.chunkSize.toNat → s.bs.src.toNat + s.bs.chunkLen.toNat ≤ s.params.fwbSize.val →
    s.env.oneAnswer s.params s.bs.sGuid s.params.typeBlockDataAck ev sends counts receives →
    let data := memRead .fwb s.fwb s.bs.src.toNat s.bs.chunkLen.toNat
    exec .chunkWrite s = .next { s with
      bs := { s.bs with
        checksum := crc16Bytes s.bs.checksum data, chunkIdx := s.bs.chunkIdx + 1,
        state := (if (s.bs.chunkIdx + 1).toNat = ceilDiv s.bs.blockSize.toNat s.bs.chunkSize.toNat then
          .blockWritten else .blockStarted),
        deadlineT0 := s.env.now.1 }.succeeded,
      env := s.env.afterExchange (requestEvent s.params s.bs s.params.typeBlockData data) sends counts receives }

/-- R210: `BLK_PROGRAM` when the node acknowledges at the first poll. -/
def Obligations.BlkProgramResult : Prop :=
  ∀ (s : State) (ev : Event) (sends : List PortStatus) (counts : List (PortStatus × Word))
    (receives : List (PortStatus × Event)),
    s.bs.flags.busy = false → 3 ≤ s.pace → s.bs.state = .blockWritten →
    s.env.oneAnswer s.params s.bs.sGuid s.params.typeProgramBlockAck ev sends counts receives →
    exec .blkProgram s = .next { s with
      bs := { s.bs with state := .blockProgrammed, deadlineT0 := s.env.now.1 }.succeeded,
      env := s.env.afterExchange
        (requestEvent s.params s.bs s.params.typeProgramBlock (programBlockPayload s.bs.blockNo))
        sends counts receives }

/-- R181, R182, R263: a failing send and a NACK at the first poll, in the three commands that make one request. The
checksum of `CHUNK_WRITE` already includes the chunk (R203); the chunk count and the current block do not change. -/
def Obligations.StepCommandFailures : Prop :=
  ∀ (s : State) (i : Instr) (b : BsUnit) (typ nack ack : Half) (payload : List Byte) (sends : List PortStatus)
    (counts : List (PortStatus × Word)) (receives : List (PortStatus × Event)),
    s.bs.flags.busy = false → 3 ≤ s.pace →
    (i = .blkStart ∧ (s.bs.state = .bootModeConfirmed ∨ s.bs.state = .blockProgrammed) ∧ b = s.bs ∧
        typ = s.params.typeStartBlock ∧ ack = s.params.typeStartBlockAck ∧ nack = s.params.typeStartBlockNack ∧
        payload = startBlockPayload s.bs.blockNo s.bs.memtype ∨
      i = .chunkWrite ∧ s.bs.state = .blockStarted ∧ s.bs.chunkLen.toNat ≤ s.bs.chunkSize.toNat ∧
        s.bs.src.toNat + s.bs.chunkLen.toNat ≤ s.params.fwbSize.val ∧
        b = { s.bs with checksum := crc16Bytes s.bs.checksum payload } ∧
        typ = s.params.typeBlockData ∧ ack = s.params.typeBlockDataAck ∧ nack = s.params.typeBlockDataNack ∧
        payload = memRead .fwb s.fwb s.bs.src.toNat s.bs.chunkLen.toNat ∨
      i = .blkProgram ∧ s.bs.state = .blockWritten ∧ b = s.bs ∧
        typ = s.params.typeProgramBlock ∧ ack = s.params.typeProgramBlockAck ∧ nack = s.params.typeProgramBlockNack ∧
        payload = programBlockPayload s.bs.blockNo) →
    (s.env.sendStatus = .failed :: sends → exec i s = .next { s with
      bs := b.raised .comm,
      env := Env.withMessages
        { s.env with sendStatus := sends, sent := s.env.sent ++ [requestEvent s.params s.bs typ payload] }
        s.bs.sCtrl [(milestone, .failed)] }) ∧
    (∀ ev, s.env.oneAnswer s.params s.bs.sGuid nack ev sends counts receives → nack ≠ ack → exec i s = .next { s with
      bs := { b with deadlineT0 := s.env.now.1 }.raised .nack,
      env := Env.withMessages
        (s.env.afterExchange (requestEvent s.params s.bs typ payload) sends counts receives)
        s.bs.sCtrl [(milestone, .failed)] })

/-- R206, R207: `BLK_WRITE` when the node acknowledges every chunk: the chunks of the block are sent in order, one
block-data event each; the checksum takes in the whole block; the chunk count is the number of chunks. The reads of the
timer are the only thing the statement leaves open. -/
def Obligations.BlkWriteResult : Prop :=
  ∀ (s : State) (sends : List PortStatus) (counts : List (PortStatus × Word)) (receives : List (PortStatus × Event)),
    s.bs.flags.busy = false → s.bs.state = .blockStarted → s.bs.chunkIdx = 0 → 0 < s.bs.chunkSize.toNat →
    s.bs.chunkSize.toNat ≤ s.bs.blockSize.toNat →
    s.bs.src.toNat + s.bs.blockSize.toNat ≤ s.params.fwbSize.val →
    let data := memRead .fwb s.fwb s.bs.src.toNat s.bs.blockSize.toNat
    let reqs := blockDataRequests s.params s.bs data
    2 * reqs.length + 1 ≤ s.pace → s.env.agrees s.params s.bs reqs sends counts receives →
    ∃ (t0 tm : Word) (ticks : List Word) (draws : Nat), exec .blkWrite s = .next { s with
      bs := { s.bs with
        checksum := crc16Bytes s.bs.checksum data, chunkIdx := BitVec.ofNat 32 reqs.length,
        state := .blockWritten, deadlineT0 := t0 }.succeeded,
      env := { s.env with
        timer := tm, ticks := ticks, draws := draws, sendStatus := sends, counts := counts, receives := receives,
        sent := s.env.sent ++ reqs.map fun q => q.1 } } ∧
      reqs.length = ceilDiv s.bs.blockSize.toNat s.bs.chunkSize.toNat

/-- R206, R208: `BLK_WRITE` stops at the first chunk whose send fails: the chunks before it have been sent and
acknowledged, nothing is sent after it, and `BS_CHUNKIDX` tells where. -/
def Obligations.BlkWriteStopsAtFailure : Prop :=
  ∀ (s : State) (n : Nat) (sends : List PortStatus) (counts : List (PortStatus × Word))
    (receives : List (PortStatus × Event)),
    s.bs.flags.busy = false → s.bs.state = .blockStarted → s.bs.chunkIdx = 0 → 0 < s.bs.chunkSize.toNat →
    s.bs.chunkSize.toNat ≤ s.bs.blockSize.toNat →
    s.bs.src.toNat + s.bs.blockSize.toNat ≤ s.params.fwbSize.val →
    let data := memRead .fwb s.fwb s.bs.src.toNat s.bs.blockSize.toNat
    let reqs := blockDataRequests s.params s.bs data
    n < reqs.length → 2 * n + 2 ≤ s.pace →
    s.env.agrees s.params s.bs (reqs.take n) (.failed :: sends) counts receives →
    ∃ t, exec .blkWrite s = .next t ∧ t.bs.state = .failed ∧ t.bs.err = .comm ∧ t.bs.flags.err = true ∧
      t.bs.chunkIdx.toNat = n ∧ t.bs.curBlock = s.bs.curBlock ∧
      t.env.sent = s.env.sent ++ (reqs.take (n + 1)).map fun q => q.1

/-! ## The response wait -/

/-- R183, R185: a wait at an iteration in which a poll fails or finds nothing, or a receive fails, or an event of another
class, type or GUID arrives, drops the event and goes on, as long as the elapsed time does not exceed `S_TIMEOUT`; the
first time it does, the wait ends with `ERR_TIMEOUT` (R184). `elapsed` is modulo 2^32. The last clause: with
`S_TIMEOUT = 0xFFFFFFFF` the test never succeeds, so iterations that find nothing leave BS waiting, whatever the timer
does. -/
def Obligations.WaitDropsAndTimesOut : Prop :=
  (∀ (p : Params) (fwb img : Memory) (a : Await) (b : BsUnit) (e : Env) (d : Word) (ds : List Word)
    (c : PortStatus × Word) (cs : List (PortStatus × Word)) (r : PortStatus × Event) (rs : List (PortStatus × Event)),
    b.flags.busy = true → b.point = .wait a → e.ticks = d :: ds → e.counts = c :: cs → e.receives = r :: rs →
    (c.1 ≠ .ok ∨ c.2 = 0 ∨ r.1 ≠ .ok ∨ r.2.cls ≠ p.classProtocol ∨ r.2.guid ≠ b.sGuid ∨
      (r.2.typ ≠ ackType p a ∧ r.2.typ ≠ nackType p a)) →
    let e' : Env := { e with
      timer := e.timer + d, ticks := ds, counts := cs,
      receives := if c.1 = .ok ∧ c.2 ≠ 0 then rs else r :: rs }
    (¬b.sTimeout.toNat < (e.timer + d - b.deadlineT0).toNat → bsRun p fwb img 1 (b, e) = (b, e')) ∧
    (b.sTimeout.toNat < (e.timer + d - b.deadlineT0).toNat → bsRun p fwb img 1 (b, e) =
      ({ b.raised .timeout with flags := { busy := false, done := true, err := true, ovr := b.flags.ovr } },
        e'.withMessages b.sCtrl [(milestone, .failed)]))) ∧
  ∀ (p : Params) (fwb img : Memory) (a : Await) (b : BsUnit) (e : Env) (n : Nat), b.flags.busy = true →
    b.point = .wait a → b.sTimeout = 0xFFFFFFFF → n ≤ e.counts.length →
    (∀ c ∈ e.counts, c.1 ≠ .ok ∨ c.2 = 0) → (bsRun p fwb img n (b, e)).1 = b

/-- R183, R184, R185, R259: in every wait, a matching ACK that is pending behind `n` events that do not match is reached
after `n + 1` iterations "if the deadline allows", whatever the elapsed time is by then: each foreign event is dropped,
and the command goes on with the ACK. The second clause says what that is in `BLK_START`. -/
def Obligations.AckBehindForeignEvents : Prop :=
  ∀ (p : Params) (fwb img : Memory) (a : Await) (b : BsUnit) (e : Env) (foreign : List Event) (ev : Event)
    (polls cs : List (PortStatus × Word)) (rs : List (PortStatus × Event)) (waits ds : List Word),
    b.flags.busy = true → b.point = .wait a →
    (∀ f ∈ foreign, f.cls ≠ p.classProtocol ∨ f.guid ≠ b.sGuid ∨ (f.typ ≠ ackType p a ∧ f.typ ≠ nackType p a)) →
    ev.cls = p.classProtocol → ev.guid = b.sGuid → ev.typ = ackType p a →
    polls.length = foreign.length + 1 → (∀ c ∈ polls, c.1 = .ok ∧ c.2 ≠ 0) → e.counts = polls ++ cs →
    e.receives = foreign.map (fun f => (PortStatus.ok, f)) ++ (.ok, ev) :: rs →
    waits.length = foreign.length → e.ticks = waits ++ ds →
    (∀ n, n < foreign.length →
      (e.timer + (waits.take (n + 1)).sum - b.deadlineT0).toNat ≤ b.sTimeout.toNat) →
    let e' : Env := { e with timer := e.timer + waits.sum, counts := cs, receives := rs, ticks := ds }
    bsRun p fwb img (foreign.length + 1) (b, e) = afterAck p img a ev (b, e') ∧
    ∀ m, a = .startBlock m → b.cmd = 0x11 →
      bsRun p fwb img (foreign.length + 1) (b, e) =
        ({ { b with curBlock := m, chunkIdx := 0, state := .blockStarted }.succeeded with
            flags := { busy := false, done := true, err := false, ovr := b.flags.ovr } }, e')

/-! ## DEV_LOAD -/

/-- R225 to R231, R240, R241: a whole `DEV_LOAD` when the node acknowledges every request: the events sent are, region by
region and block by block, start-block, block-data, program-block; the checksum takes in every byte sent; the session ends
`Rebooted`. -/
def Obligations.DevLoadResult : Prop :=
  ∀ (s : State) (sends : List PortStatus) (counts : List (PortStatus × Word)) (receives : List (PortStatus × Event)),
    s.bs.flags.busy = false → s.bs.state = .bootModeConfirmed → 0 < s.bs.chunkSize.toNat →
    s.bs.chunkSize.toNat ≤ s.bs.blockSize.toNat →
    let reqs := loadRequests s.params s.img s.bs
    2 * reqs.length + 6 ≤ s.pace → s.env.agrees s.params s.bs reqs sends counts receives →
    ∃ t, exec .devLoad s = .next t ∧ t = { s with bs := t.bs, env := t.env } ∧
      t.bs.state = .rebooted ∧ t.bs.err = .success ∧
      t.bs.flags = { busy := false, done := true, err := false, ovr := false } ∧ t.bs.region = 4 ∧
      t.bs.checksum = crc16Bytes s.bs.checksum (loadBytes s.params s.img s.bs) ∧
      t.bs.sCtrl = relatchCtrl s.bs.sCtrl s.bs.ctrl ∧ s.bs.sameSession t.bs ∧ s.bs.sameOperands t.bs ∧
      t.env.sent = s.env.sent ++ reqs.map (fun q => q.1) ∧
      t.env.messages = messagesAfter s.bs.ctrl s.env.messages (loadMessages s.params s.img s.bs) ∧
      t.env.sendStatus = sends ∧ t.env.counts = counts ∧ t.env.receives = receives

/-- R231: a `DEV_LOAD` none of whose four regions holds data "sends no event at all and still ends in `Rebooted`". The last clause says which bits of `S_CTRL` it has taken from
`BS_CTRL`, and that the others stay (R43). -/
def Obligations.EmptyImageLoad : Prop :=
  (∀ s : State, s.bs.flags.busy = false → s.bs.state = .bootModeConfirmed → 6 ≤ s.pace →
    (∀ r, r < 4 → span s.img (regionOf s.params r) = none) →
    exec .devLoad s = .next { s with
      bs := { s.bs with sCtrl := relatchCtrl s.bs.sCtrl s.bs.ctrl, region := 4, blockIdx := 0,
                        state := .rebooted }.succeeded,
      env := s.env.withMessages s.bs.ctrl [(100, .loadDone)] }) ∧
  ∀ sCtrl ctrl : Byte,
    addrMode (relatchCtrl sCtrl ctrl) = addrMode sCtrl ∧ abortMismatch (relatchCtrl sCtrl ctrl) = abortMismatch sCtrl ∧
    abortFwcode (relatchCtrl sCtrl ctrl) = abortFwcode ctrl ∧ statusEn (relatchCtrl sCtrl ctrl) = statusEn ctrl ∧
    relatchCtrl sCtrl ctrl &&& 0xF0 = sCtrl &&& 0xF0

/-! ## The bootloader's frames and whole-machine rules -/

/-- The frame of the six bootloader commands, however far a command gets: only BS and the environment change, no operand
register of BS is written (R22), so no cipher unit's random source is touched, and what is sent is appended (R81). -/
def Obligations.BootCommandFrame : Prop :=
  ∀ (s t : State) (i : Instr), i ∈ [.devInit, .blkStart, .blkWrite, .chunkWrite, .blkProgram, .devLoad] →
    exec i s = .next t →
    t = { s with bs := t.bs, env := t.env } ∧ s.bs.sameOperands t.bs ∧
    (i ≠ .devInit → t.env.registers = s.env.registers) ∧
    (∃ more, t.env.messages = s.env.messages ++ more) ∧ ∃ more, t.env.sent = s.env.sent ++ more

/-- What the commands other than `DEV_INIT` leave alone in BS: the session's latched operands and sizes, and the registers
that each command's rule does not name (R200, R203, R206, R210, R225, R43). -/
def Obligations.SessionFrame : Prop :=
  ∀ (s t : State) (i : Instr), s.bs.flags.busy = false → exec i s = .next t →
    (i ∈ [.blkStart, .blkWrite, .chunkWrite, .blkProgram] → s.bs.sameSession t.bs ∧ t.bs.sCtrl = s.bs.sCtrl ∧
      t.bs.region = s.bs.region ∧ t.bs.blockIdx = s.bs.blockIdx) ∧
    (i = .blkStart ∨ i = .blkProgram → t.bs.checksum = s.bs.checksum) ∧
    (i ∈ [.blkWrite, .chunkWrite, .blkProgram] → t.bs.curBlock = s.bs.curBlock) ∧
    (i = .blkProgram → t.bs.chunkIdx = s.bs.chunkIdx) ∧
    (i = .devLoad → s.bs.sameSession t.bs ∧
      (t.bs.sCtrl = s.bs.sCtrl ∨ t.bs.sCtrl = relatchCtrl s.bs.sCtrl s.bs.ctrl))

/-- R81, R100, R181: a step of BS sends at most one event, of the protocol's class, with timestamp 0 and the session's
GUID; it sends none while it waits; after a send that `tp_send` answers with success it waits, and after any other the
command has failed with `ERR_COMM`. What one step takes in is the model's choice (log entry 6). -/
def Obligations.OneRequestInFlight : Prop :=
  ∀ (p : Params) (fwb img : Memory) (b : BsUnit) (e : Env), b.flags.busy = true →
    let y := bsRun p fwb img 1 (b, e)
    y.2.sent = e.sent ∨
      ∃ ev, y.2.sent = e.sent ++ [ev] ∧ ev.cls = p.classProtocol ∧ ev.timestamp = 0 ∧ ev.guid = b.sGuid ∧
        (∀ a, b.point ≠ .wait a) ∧
        ((e.tpSend ev).1 = .ok → y.1.flags.busy = true ∧ ∃ a, y.1.point = .wait a) ∧
        ((e.tpSend ev).1 ≠ .ok → y.1.flags.busy = false ∧ y.1.state = .failed ∧ y.1.err = .comm)

/-- R186: with the status port not connected no bootloader command hands out a message. `DEV_INIT` and `DEV_LOAD` latch
`STATUS_EN` from `BS_CTRL`; a `DEV_LOAD` that is refused emits nothing either way. -/
def Obligations.StatusPortGated : Prop :=
  ∀ (s t : State) (i : Instr), s.bs.flags.busy = false → exec i s = .next t →
    (i ∈ [.blkStart, .blkWrite, .chunkWrite, .blkProgram] → statusEn s.bs.sCtrl = false →
      t.env.messages = s.env.messages) ∧
    (i = .devInit ∨ i = .devLoad → statusEn s.bs.ctrl = false → t.env.messages = s.env.messages)

/-- R221: the transition table is complete. A step of BS's pseudocode leaves `BS_STATE` alone or follows an arrow of the
table. -/
def Obligations.TransitionTable : Prop :=
  ∀ (p : Params) (fwb img : Memory) (b : BsUnit) (e : Env), b.Inv → b.flags.busy = true →
    let y := bsRun p fwb img 1 (b, e)
    y.1.state = b.state ∨ SessionState.arrow b.state y.1.state

/-! ## HOST's side, reset, and the invariant -/

/-- R33, R34, R35, R98, R109, R250: the status register's bits; the numbers of the error codes and of the session states;
every read-only register as HOST reads it, at any time, busy or idle (R79), the command registers reading 0; a read
changes nothing but HOST's own data (R75), but that of `BS_TIMER`, which is a read of the clock (log entry 22); an idle
unit ignores HOST's writes to its read-only registers. -/
def Obligations.StatusRegisterBits : Prop :=
  (∀ (f : Flags) (w : Bool), (f.toByte w).getLsbD 0 = f.busy ∧ (f.toByte w).getLsbD 1 = f.done ∧
    (f.toByte w).getLsbD 2 = f.err ∧ (f.toByte w).getLsbD 3 = w ∧ (f.toByte w).getLsbD 4 = f.ovr ∧
    (f.toByte w).getLsbD 5 = false ∧ (f.toByte w).getLsbD 6 = false ∧ (f.toByte w).getLsbD 7 = false) ∧
  [ErrCode.success, .comm, .timeout, .nack, .parameter, .size, .notSupported, .invalidFrame, .variant, .length, .range,
    .state, .illegalCmd].map ErrCode.toByte = [0, 1, 2, 3, 4, 5, 6, 7, 8, 9, 10, 11, 12] ∧
  [SessionState.init, .registersRead, .bootModeRequested, .bootModeConfirmed, .blockStarted, .blockWritten,
    .blockProgrammed, .rebooted, .failed].map SessionState.toByte = [0, 1, 2, 3, 4, 5, 6, 7, 8] ∧
  (∀ (s : State) (k : Nat) (u : CeUnit), k < 15 → s.ces[k]? = some u →
    (∀ o r, (o, r) ∈ [(0x000, (0 : Word)), (0x004, (u.flags.toByte false).setWidth 32), (0x008, u.err.toByte.setWidth 32),
        (0x00C, u.result)] → hostRead (regAddr k o) s = { s with readData := some r }) ∧
    (u.flags.busy = false → ∀ o v, o ∈ [0x004, 0x008, 0x00C] → hostWrite (regAddr k o) v s = s)) ∧
  ∀ s : State,
    (∀ o r, (o, r) ∈ [(0x000, (0 : Word)), (0x004, (s.bs.flags.toByte s.bs.warn).setWidth 32),
        (0x008, s.bs.err.toByte.setWidth 32), (0x00C, s.bs.state.toByte.setWidth 32), (0x010, s.bs.blockSize),
        (0x014, s.bs.numBlocks), (0x018, s.bs.chunkSize), (0x01C, s.bs.checksum.setWidth 32),
        (0x020, s.bs.region.setWidth 32), (0x024, s.bs.blockIdx), (0x028, s.bs.curBlock), (0x02C, s.bs.chunkIdx),
        (0x030, s.bs.remoteAlg.setWidth 32), (0x034, s.bs.remoteDevcode.setWidth 32)] →
      hostRead (regAddr 15 o) s = { s with readData := some r }) ∧
    hostRead (regAddr 15 0x0F0) s = { s with readData := some s.env.now.1, env := s.env.now.2 } ∧
    (s.bs.flags.busy = false → ∀ o v, 0 < o ∧ o < 0x040 ∨ o = 0x0F0 → hostWrite (regAddr 15 o) v s = s)

/-- R21, R22, R34, R35, R36, R37: HOST writes an operand register of an idle unit and reads it back: the value at the
register's width, `BS_CTRL` without its reserved bits. An offset from 0x050 on of a cipher unit, or from 0x100 on of BS,
holds no register: the write changes nothing and the read gives 0. That a wider value is cut to the register's width is
deduced (log entry 14). A unit that does not exist holds no register either: that a command written to it does nothing is
deduced too (log entry 15). -/
def Obligations.OperandRegistersReadBack : Prop :=
  (∀ (s : State) (k o : Nat) (u : CeUnit) (v : Word), k < 15 → s.ces[k]? = some u → u.flags.busy = false →
    let r := (hostRead (regAddr k o) (hostWrite (regAddr k o) v s)).readData
    (o = 0x010 → r = some ((v.setWidth 16).setWidth 32)) ∧ (o = 0x014 ∨ o = 0x018 ∨ o = 0x01C → r = some v) ∧
    (0x020 ≤ o → o < 0x050 → r = some ((v.setWidth 8).setWidth 32)) ∧
    (0x050 ≤ o → o < 0x1000 → r = some 0 ∧ hostWrite (regAddr k o) v s = s)) ∧
  (∀ (s : State) (o : Nat) (v : Word), s.bs.flags.busy = false →
    let r := (hostRead (regAddr 15 o) (hostWrite (regAddr 15 o) v s)).readData
    (o = 0x044 → r = some (v &&& 0x0F)) ∧
    (o = 0x048 ∨ o = 0x058 ∨ 0x070 ≤ o ∧ o < 0x080 → r = some ((v.setWidth 8).setWidth 32)) ∧
    (o = 0x04C ∨ o = 0x050 → r = some ((v.setWidth 16).setWidth 32)) ∧
    (o = 0x040 ∨ o = 0x054 ∨ o = 0x05C ∨ o = 0x060 → r = some v) ∧
    (0x100 ≤ o → o < 0x1000 → r = some 0 ∧ hostWrite (regAddr 15 o) v s = s)) ∧
  ∀ (s : State) (k : Nat) (i : Instr), i ∈ [.ecbEnc k, .ecbDec k, .cbcEnc k, .cbcDec k, .genIv k] →
    s.ces[k]? = none → exec i s = .next s

/-- R79: HOST's register writes to a busy unit change nothing. -/
def Obligations.BusyUnitIgnoresWrites : Prop :=
  (∀ (s : State) (k o : Nat) (u : CeUnit) (v : Word) (rest : List Move), k < 15 → 0 < o → o < 0x1000 →
    s.moves = .write (regAddr k o) v :: rest → s.ces[k]? = some u → u.flags.busy = true →
    step s = .next { s with moves := rest }) ∧
  ∀ (s : State) (o : Nat) (v : Word) (rest : List Move), 0 < o → o < 0x1000 →
    s.moves = .write (regAddr 15 o) v :: rest → s.bs.flags.busy = true → step s = .next { s with moves := rest }

/-- R60, R79 (c), U6: a step stops exactly when HOST's next move is a memory access that the spec gives it no right to:
one outside the memory, or, inside it, one at bytes a busy unit is using. Every other step answers a next state: no
command and no register access stops. That such a move is a fault is the model's choice (log entry 20), and so is which
bytes a busy command is using before its checks have run (log entry 25), and that the reads of a busy unit's memory that
R79 (c) does not name go on (log entry 26). -/
def Obligations.OnlyHostMemoryMovesStop : Prop :=
  ∀ s : State, (s.moves = [] → ∃ t, step s = .next t) ∧
    ∀ (m : Move) (rest : List Move), s.moves = m :: rest →
      (step s = .fault .hostAddressOutside ↔ s.outside m) ∧
      (step s = .fault .hostTouchesBusyMemory ↔ ¬s.outside m ∧ s.touchesBusy m) ∧
      (¬s.outside m → ¬s.touchesBusy m → ∃ t, step s = .next t)

/-- R20, R60, R63, R79, R99: what HOST's permitted memory moves do. A fill of BUF, FWB or IMG is read back, every other
byte is as before, and nothing else changes; IMG cleared holds no byte; a read hands HOST the byte (of IMG: or that the
address is unpopulated) and changes nothing else. The moves' forms are the model's choice (log entries 8 and 24), and
so are the reads of a busy unit's memory that R79 (c) does not name (log entry 26). The
canonical form of a memory is the one every run keeps. -/
def Obligations.HostMemoryMoves : Prop :=
  ∀ (s : State) (rest : List Move),
    (∀ k a bytes u, s.moves = .bufWrite k a bytes :: rest → s.ces[k]? = some u → u.buf.wf →
      ¬s.outside (.bufWrite k a bytes) → ¬s.touchesBusy (.bufWrite k a bytes) →
      ∃ m, step s = .next (State.setCe { s with moves := rest } k { u with buf := m }) ∧ m.wf ∧
        (∀ j, j < bytes.length → m.read? (a.toNat + j) = bytes[j]?) ∧
        ∀ x, ¬(a.toNat ≤ x ∧ x < a.toNat + bytes.length) → m.read? x = u.buf.read? x) ∧
    (∀ a bytes, s.moves = .fwbWrite a bytes :: rest → s.fwb.wf → ¬s.outside (.fwbWrite a bytes) →
      ¬s.touchesBusy (.fwbWrite a bytes) →
      ∃ m, step s = .next { s with moves := rest, fwb := m } ∧ m.wf ∧
        (∀ j, j < bytes.length → m.read? (a.toNat + j) = bytes[j]?) ∧
        ∀ x, ¬(a.toNat ≤ x ∧ x < a.toNat + bytes.length) → m.read? x = s.fwb.read? x) ∧
    (∀ a bytes, s.moves = .imgWrite a bytes :: rest → s.img.wf → ¬s.outside (.imgWrite a bytes) →
      ¬s.touchesBusy (.imgWrite a bytes) →
      ∃ m, step s = .next { s with moves := rest, img := m } ∧ m.wf ∧
        (∀ j, j < bytes.length → m.read? (a.toNat + j) = bytes[j]?) ∧
        ∀ x, ¬(a.toNat ≤ x ∧ x < a.toNat + bytes.length) → m.read? x = s.img.read? x) ∧
    (s.moves = .imgClear :: rest → ¬s.touchesBusy .imgClear →
      ∃ m, step s = .next { s with moves := rest, img := m } ∧ m.wf ∧ ∀ x, m.read? x = none) ∧
    (∀ k a u, s.moves = .bufRead k a :: rest → s.ces[k]? = some u → ¬s.outside (.bufRead k a) →
      ¬s.touchesBusy (.bufRead k a) →
      step s = .next { s with moves := rest, readData := some ((byteAt (.buf k) u.buf a.toNat).setWidth 32) }) ∧
    (∀ a, s.moves = .fwbRead a :: rest → ¬s.outside (.fwbRead a) →
      step s = .next { s with moves := rest, readData := some ((byteAt .fwb s.fwb a.toNat).setWidth 32) }) ∧
    ∀ a, s.moves = .imgRead a :: rest →
      step s = .next { s with moves := rest, readData := (s.img.read? a.toNat).map fun v => v.setWidth 32 }

/-- R276: "An idle unit does nothing and keeps all its state indefinitely". -/
def Obligations.IdleMachineKeepsState : Prop :=
  ∀ s : State, s.moves = [] → (∀ u ∈ s.ces, u.flags.busy = false) → s.bs.flags.busy = false → step s = .next s

/-- R20, R23, R275: how a run is cut, and in which order the units take their steps, does not matter. With `n` steps at once
and then `m` lapses of time, a machine whose other units are idle is where `n + m` steps at once take it; the same with `m`
steps of the command's own unit alone. That a run is cut at all is the model's form of time (log entry 9), and that a unit takes a step
alone or all take one is deduced (log entry 23). Then R275's last sentence: any two orders of the same steps of the units end in the same state, two commands issued to different units
do so in either order, however far each gets, and a lapse of time is one step of each unit, whatever order they take. -/
def Obligations.CutsAndInterleavingsAgree : Prop :=
  (∀ (s : State) (i : Instr) (n m : Nat) (t t' : State), s.moves = [] → (∀ u ∈ s.ces, u.flags.busy = false) →
    s.bs.flags.busy = false → exec i { s with pace := n } = .next t → exec i { s with pace := n + m } = .next t' →
    (∃ w, Host.Core.run Sys2Proof.core m t = .next w ∧ { w with pace := 0 } = { t' with pace := 0 }) ∧
    ∃ w, Host.Core.run Sys2Proof.core m { t with moves := List.replicate m (soloLapse i) } = .next w ∧
      { w with pace := 0 } = { t' with pace := 0 }) ∧
  (∀ (s : State) (ms ms' : List Move), ms.Perm ms' → (∀ m ∈ ms, m = .lapseBs ∨ ∃ k, m = .lapseCe k) →
    Host.Core.run Sys2Proof.core ms.length { s with moves := ms } =
      Host.Core.run Sys2Proof.core ms'.length { s with moves := ms' }) ∧
  (∀ (s : State) (i j : Instr), soloLapse i ≠ soloLapse j →
    ∃ t t' w, exec i s = .next t ∧ exec j t = .next w ∧ exec j s = .next t' ∧ exec i t' = .next w) ∧
  ∀ (s : State) (ms : List Move), ms.Perm (.lapseBs :: (List.range s.ces.length).map .lapseCe) →
    step { s with moves := [] } = Host.Core.run Sys2Proof.core ms.length { s with moves := ms }

/-- R57, R290: the state after reset, in the values the rules give. -/
def Obligations.ResetValues : Prop :=
  State.reset.ces.length = State.reset.params.nCe ∧
  (∀ u ∈ State.reset.ces, (∀ j, j < 32 → u.key.getD j 0 = 0) ∧ (∀ j, j < 16 → u.iv.getD j 0 = 0) ∧ u.variant = 0 ∧
    u.src = 0 ∧ u.dst = 0 ∧ u.len = 0 ∧ u.flags.toByte false = 0 ∧ u.err.toByte = 0 ∧ u.result = 0 ∧ u.idleClear) ∧
  (let b := State.reset.bs
   b.timeout = State.reset.params.defaultTimeoutMs ∧ b.state.toByte = 0 ∧ b.flags.toByte b.warn = 0 ∧
   b.err.toByte = 0 ∧ b.cmd = 0 ∧ b.point = .idle ∧ b.ctrl = 0 ∧ b.nickname = 0 ∧ b.page = 0 ∧ b.devcode = 0 ∧
   b.blockNo = 0 ∧ b.memtype = 0 ∧ b.src = 0 ∧ b.chunkLen = 0 ∧ (∀ j, j < 16 → b.guid.getD j 0 = 0) ∧
   b.blockSize = 0 ∧ b.numBlocks = 0 ∧ b.chunkSize = 0 ∧ b.checksum = 0 ∧ b.region = 0 ∧ b.blockIdx = 0 ∧
   b.curBlock = 0 ∧ b.chunkIdx = 0 ∧ b.remoteAlg = 0 ∧ b.remoteDevcode = 0 ∧ b.deadlineT0 = 0 ∧
   (∀ j, j < 16 → b.sGuid.getD j 0 = 0) ∧ b.sNickname = 0 ∧ b.sPage = 0 ∧ b.sDevcode = 0 ∧ b.sTimeout = 0 ∧
   b.sCtrl = 0)

/-- R291: the reset input at any time: every unit's registers take their reset values; BUF keeps the bytes written, and
FWB, IMG and the environment are not touched (that the memories keep their content whole is log entry 12). -/
def Obligations.ResetInput : Prop :=
  ∀ (s : State) (rest : List Move), s.moves = .reset :: rest →
    step s = .next { s with
      moves := rest, ces := s.ces.map fun u => CeUnit.reset u.rng u.buf,
      bs := BsUnit.reset s.params.defaultTimeoutMs }

/-- The invariant holds after reset. -/
def Obligations.InvHoldsAtReset : Prop := State.reset.Inv

/-- Every step keeps the invariant: memories in canonical form and inside their spaces, workspaces clear when idle (R46),
the flags' two laws (R33), counters in their ranges (R31), the session state and the place in the pseudocode in step with
each other (R220, R221), `chunkSize <= blockSize` in every live session (R195), fewer chunks than the block needs in
`BlockStarted` and exactly as many in `BlockWritten` (R220), the reserved bits of `BS_CTRL` zero (R36). -/
def Obligations.StepKeepsInv : Prop :=
  ∀ s t : State, s.Inv → step s = .next t → t.Inv

end
end

