-- ==== Sys2Proof/Laws/State.lean ====
section
/-!
SUPPORT. One lemma per field per update, each true by rfl, so that no proof unfolds a record update. The updates: a
command accepted or ended in a unit, a session opened, a place of the pseudocode entered, a change put back into the
machine.
-/

namespace Sys2Proof.Machine

/-! ## Flags -/

@[simp] theorem accept_flags_busy (f : Flags) : f.accept.busy = true := rfl
@[simp] theorem accept_flags_done (f : Flags) : f.accept.done = false := rfl
@[simp] theorem accept_flags_err (f : Flags) : f.accept.err = false := rfl
@[simp] theorem accept_flags_ovr (f : Flags) : f.accept.ovr = false := rfl
@[simp] theorem complete_flags_busy (f : Flags) (b : Bool) : (f.complete b).busy = false := rfl
@[simp] theorem complete_flags_done (f : Flags) (b : Bool) : (f.complete b).done = true := rfl
@[simp] theorem complete_flags_err (f : Flags) (b : Bool) : (f.complete b).err = b := rfl
@[simp] theorem complete_flags_ovr (f : Flags) (b : Bool) : (f.complete b).ovr = f.ovr := rfl
@[simp] theorem overrun_flags_busy (f : Flags) : f.overrun.busy = f.busy := rfl
@[simp] theorem overrun_flags_done (f : Flags) : f.overrun.done = f.done := rfl
@[simp] theorem overrun_flags_err (f : Flags) : f.overrun.err = f.err := rfl
@[simp] theorem overrun_flags_ovr (f : Flags) : f.overrun.ovr = true := rfl

/-! ## A cipher unit accepts or ends a command -/

@[simp] theorem ceAccept_key (c : Byte) (u : CeUnit) : (u.accept c).key = u.key := rfl
@[simp] theorem ceAccept_iv (c : Byte) (u : CeUnit) : (u.accept c).iv = u.iv := rfl
@[simp] theorem ceAccept_variant (c : Byte) (u : CeUnit) : (u.accept c).variant = u.variant := rfl
@[simp] theorem ceAccept_src (c : Byte) (u : CeUnit) : (u.accept c).src = u.src := rfl
@[simp] theorem ceAccept_dst (c : Byte) (u : CeUnit) : (u.accept c).dst = u.dst := rfl
@[simp] theorem ceAccept_len (c : Byte) (u : CeUnit) : (u.accept c).len = u.len := rfl
@[simp] theorem ceAccept_flags (c : Byte) (u : CeUnit) : (u.accept c).flags = u.flags.accept := rfl
@[simp] theorem ceAccept_err (c : Byte) (u : CeUnit) : (u.accept c).err = u.err := rfl
@[simp] theorem ceAccept_result (c : Byte) (u : CeUnit) : (u.accept c).result = u.result := rfl
@[simp] theorem ceAccept_cmd (c : Byte) (u : CeUnit) : (u.accept c).cmd = c := rfl
@[simp] theorem ceAccept_nk (c : Byte) (u : CeUnit) : (u.accept c).nk = u.nk := rfl
@[simp] theorem ceAccept_nr (c : Byte) (u : CeUnit) : (u.accept c).nr = u.nr := rfl
@[simp] theorem ceAccept_i (c : Byte) (u : CeUnit) : (u.accept c).i = u.i := rfl
@[simp] theorem ceAccept_round (c : Byte) (u : CeUnit) : (u.accept c).round = u.round := rfl
@[simp] theorem ceAccept_off (c : Byte) (u : CeUnit) : (u.accept c).off = u.off := rfl
@[simp] theorem ceAccept_w (c : Byte) (u : CeUnit) : (u.accept c).w = u.w := rfl
@[simp] theorem ceAccept_st (c : Byte) (u : CeUnit) : (u.accept c).st = u.st := rfl
@[simp] theorem ceAccept_chain (c : Byte) (u : CeUnit) : (u.accept c).chain = u.chain := rfl
@[simp] theorem ceAccept_tmp (c : Byte) (u : CeUnit) : (u.accept c).tmp = u.tmp := rfl
@[simp] theorem ceAccept_phase (c : Byte) (u : CeUnit) : (u.accept c).phase = .checks := rfl
@[simp] theorem ceAccept_buf (c : Byte) (u : CeUnit) : (u.accept c).buf = u.buf := rfl
@[simp] theorem ceAccept_rng (c : Byte) (u : CeUnit) : (u.accept c).rng = u.rng := rfl

@[simp] theorem ceFinish_key (e : ErrCode) (r : Word) (u : CeUnit) : (u.finish e r).key = u.key := rfl
@[simp] theorem ceFinish_iv (e : ErrCode) (r : Word) (u : CeUnit) : (u.finish e r).iv = u.iv := rfl
@[simp] theorem ceFinish_variant (e : ErrCode) (r : Word) (u : CeUnit) : (u.finish e r).variant = u.variant := rfl
@[simp] theorem ceFinish_src (e : ErrCode) (r : Word) (u : CeUnit) : (u.finish e r).src = u.src := rfl
@[simp] theorem ceFinish_dst (e : ErrCode) (r : Word) (u : CeUnit) : (u.finish e r).dst = u.dst := rfl
@[simp] theorem ceFinish_len (e : ErrCode) (r : Word) (u : CeUnit) : (u.finish e r).len = u.len := rfl
@[simp] theorem ceFinish_flags (e : ErrCode) (r : Word) (u : CeUnit) : (u.finish e r).flags = u.flags.complete (decide (e ≠ .success)) := rfl
@[simp] theorem ceFinish_err (e : ErrCode) (r : Word) (u : CeUnit) : (u.finish e r).err = e := rfl
@[simp] theorem ceFinish_result (e : ErrCode) (r : Word) (u : CeUnit) : (u.finish e r).result = r := rfl
@[simp] theorem ceFinish_cmd (e : ErrCode) (r : Word) (u : CeUnit) : (u.finish e r).cmd = 0 := rfl
@[simp] theorem ceFinish_nk (e : ErrCode) (r : Word) (u : CeUnit) : (u.finish e r).nk = 0 := rfl
@[simp] theorem ceFinish_nr (e : ErrCode) (r : Word) (u : CeUnit) : (u.finish e r).nr = 0 := rfl
@[simp] theorem ceFinish_i (e : ErrCode) (r : Word) (u : CeUnit) : (u.finish e r).i = 0 := rfl
@[simp] theorem ceFinish_round (e : ErrCode) (r : Word) (u : CeUnit) : (u.finish e r).round = 0 := rfl
@[simp] theorem ceFinish_off (e : ErrCode) (r : Word) (u : CeUnit) : (u.finish e r).off = 0 := rfl
@[simp] theorem ceFinish_w (e : ErrCode) (r : Word) (u : CeUnit) : (u.finish e r).w = Vector.replicate 60 zeroWord := rfl
@[simp] theorem ceFinish_st (e : ErrCode) (r : Word) (u : CeUnit) : (u.finish e r).st = zeroBlock := rfl
@[simp] theorem ceFinish_chain (e : ErrCode) (r : Word) (u : CeUnit) : (u.finish e r).chain = zeroBlock := rfl
@[simp] theorem ceFinish_tmp (e : ErrCode) (r : Word) (u : CeUnit) : (u.finish e r).tmp = zeroBlock := rfl
@[simp] theorem ceFinish_phase (e : ErrCode) (r : Word) (u : CeUnit) : (u.finish e r).phase = .idle := rfl
@[simp] theorem ceFinish_buf (e : ErrCode) (r : Word) (u : CeUnit) : (u.finish e r).buf = u.buf := rfl
@[simp] theorem ceFinish_rng (e : ErrCode) (r : Word) (u : CeUnit) : (u.finish e r).rng = u.rng := rfl

/-! ## BS accepts or ends a command, opens a session -/

@[simp] theorem bsAccept_guid (c : Byte) (b : BsUnit) : (b.accept c).guid = b.guid := rfl
@[simp] theorem bsAccept_nickname (c : Byte) (b : BsUnit) : (b.accept c).nickname = b.nickname := rfl
@[simp] theorem bsAccept_page (c : Byte) (b : BsUnit) : (b.accept c).page = b.page := rfl
@[simp] theorem bsAccept_devcode (c : Byte) (b : BsUnit) : (b.accept c).devcode = b.devcode := rfl
@[simp] theorem bsAccept_timeout (c : Byte) (b : BsUnit) : (b.accept c).timeout = b.timeout := rfl
@[simp] theorem bsAccept_ctrl (c : Byte) (b : BsUnit) : (b.accept c).ctrl = b.ctrl := rfl
@[simp] theorem bsAccept_blockNo (c : Byte) (b : BsUnit) : (b.accept c).blockNo = b.blockNo := rfl
@[simp] theorem bsAccept_memtype (c : Byte) (b : BsUnit) : (b.accept c).memtype = b.memtype := rfl
@[simp] theorem bsAccept_src (c : Byte) (b : BsUnit) : (b.accept c).src = b.src := rfl
@[simp] theorem bsAccept_chunkLen (c : Byte) (b : BsUnit) : (b.accept c).chunkLen = b.chunkLen := rfl
@[simp] theorem bsAccept_flags (c : Byte) (b : BsUnit) : (b.accept c).flags = b.flags.accept := rfl
@[simp] theorem bsAccept_warn (c : Byte) (b : BsUnit) : (b.accept c).warn = b.warn := rfl
@[simp] theorem bsAccept_err (c : Byte) (b : BsUnit) : (b.accept c).err = b.err := rfl
@[simp] theorem bsAccept_state (c : Byte) (b : BsUnit) : (b.accept c).state = b.state := rfl
@[simp] theorem bsAccept_blockSize (c : Byte) (b : BsUnit) : (b.accept c).blockSize = b.blockSize := rfl
@[simp] theorem bsAccept_numBlocks (c : Byte) (b : BsUnit) : (b.accept c).numBlocks = b.numBlocks := rfl
@[simp] theorem bsAccept_chunkSize (c : Byte) (b : BsUnit) : (b.accept c).chunkSize = b.chunkSize := rfl
@[simp] theorem bsAccept_checksum (c : Byte) (b : BsUnit) : (b.accept c).checksum = b.checksum := rfl
@[simp] theorem bsAccept_region (c : Byte) (b : BsUnit) : (b.accept c).region = b.region := rfl
@[simp] theorem bsAccept_blockIdx (c : Byte) (b : BsUnit) : (b.accept c).blockIdx = b.blockIdx := rfl
@[simp] theorem bsAccept_curBlock (c : Byte) (b : BsUnit) : (b.accept c).curBlock = b.curBlock := rfl
@[simp] theorem bsAccept_chunkIdx (c : Byte) (b : BsUnit) : (b.accept c).chunkIdx = b.chunkIdx := rfl
@[simp] theorem bsAccept_remoteAlg (c : Byte) (b : BsUnit) : (b.accept c).remoteAlg = b.remoteAlg := rfl
@[simp] theorem bsAccept_remoteDevcode (c : Byte) (b : BsUnit) : (b.accept c).remoteDevcode = b.remoteDevcode := rfl
@[simp] theorem bsAccept_sGuid (c : Byte) (b : BsUnit) : (b.accept c).sGuid = b.sGuid := rfl
@[simp] theorem bsAccept_sNickname (c : Byte) (b : BsUnit) : (b.accept c).sNickname = b.sNickname := rfl
@[simp] theorem bsAccept_sPage (c : Byte) (b : BsUnit) : (b.accept c).sPage = b.sPage := rfl
@[simp] theorem bsAccept_sDevcode (c : Byte) (b : BsUnit) : (b.accept c).sDevcode = b.sDevcode := rfl
@[simp] theorem bsAccept_sTimeout (c : Byte) (b : BsUnit) : (b.accept c).sTimeout = b.sTimeout := rfl
@[simp] theorem bsAccept_sCtrl (c : Byte) (b : BsUnit) : (b.accept c).sCtrl = b.sCtrl := rfl
@[simp] theorem bsAccept_cmd (c : Byte) (b : BsUnit) : (b.accept c).cmd = c := rfl
@[simp] theorem bsAccept_deadlineT0 (c : Byte) (b : BsUnit) : (b.accept c).deadlineT0 = b.deadlineT0 := rfl
@[simp] theorem bsAccept_point (c : Byte) (b : BsUnit) : (b.accept c).point = b.point := rfl

@[simp] theorem bsFinish_guid (e : ErrCode) (b : BsUnit) : (b.finish e).guid = b.guid := rfl
@[simp] theorem bsFinish_nickname (e : ErrCode) (b : BsUnit) : (b.finish e).nickname = b.nickname := rfl
@[simp] theorem bsFinish_page (e : ErrCode) (b : BsUnit) : (b.finish e).page = b.page := rfl
@[simp] theorem bsFinish_devcode (e : ErrCode) (b : BsUnit) : (b.finish e).devcode = b.devcode := rfl
@[simp] theorem bsFinish_timeout (e : ErrCode) (b : BsUnit) : (b.finish e).timeout = b.timeout := rfl
@[simp] theorem bsFinish_ctrl (e : ErrCode) (b : BsUnit) : (b.finish e).ctrl = b.ctrl := rfl
@[simp] theorem bsFinish_blockNo (e : ErrCode) (b : BsUnit) : (b.finish e).blockNo = b.blockNo := rfl
@[simp] theorem bsFinish_memtype (e : ErrCode) (b : BsUnit) : (b.finish e).memtype = b.memtype := rfl
@[simp] theorem bsFinish_src (e : ErrCode) (b : BsUnit) : (b.finish e).src = b.src := rfl
@[simp] theorem bsFinish_chunkLen (e : ErrCode) (b : BsUnit) : (b.finish e).chunkLen = b.chunkLen := rfl
@[simp] theorem bsFinish_flags (e : ErrCode) (b : BsUnit) : (b.finish e).flags = b.flags.complete (decide (e ≠ .success)) := rfl
@[simp] theorem bsFinish_warn (e : ErrCode) (b : BsUnit) : (b.finish e).warn = b.warn := rfl
@[simp] theorem bsFinish_err (e : ErrCode) (b : BsUnit) : (b.finish e).err = e := rfl
@[simp] theorem bsFinish_state (e : ErrCode) (b : BsUnit) : (b.finish e).state = b.state := rfl
@[simp] theorem bsFinish_blockSize (e : ErrCode) (b : BsUnit) : (b.finish e).blockSize = b.blockSize := rfl
@[simp] theorem bsFinish_numBlocks (e : ErrCode) (b : BsUnit) : (b.finish e).numBlocks = b.numBlocks := rfl
@[simp] theorem bsFinish_chunkSize (e : ErrCode) (b : BsUnit) : (b.finish e).chunkSize = b.chunkSize := rfl
@[simp] theorem bsFinish_checksum (e : ErrCode) (b : BsUnit) : (b.finish e).checksum = b.checksum := rfl
@[simp] theorem bsFinish_region (e : ErrCode) (b : BsUnit) : (b.finish e).region = b.region := rfl
@[simp] theorem bsFinish_blockIdx (e : ErrCode) (b : BsUnit) : (b.finish e).blockIdx = b.blockIdx := rfl
@[simp] theorem bsFinish_curBlock (e : ErrCode) (b : BsUnit) : (b.finish e).curBlock = b.curBlock := rfl
@[simp] theorem bsFinish_chunkIdx (e : ErrCode) (b : BsUnit) : (b.finish e).chunkIdx = b.chunkIdx := rfl
@[simp] theorem bsFinish_remoteAlg (e : ErrCode) (b : BsUnit) : (b.finish e).remoteAlg = b.remoteAlg := rfl
@[simp] theorem bsFinish_remoteDevcode (e : ErrCode) (b : BsUnit) : (b.finish e).remoteDevcode = b.remoteDevcode := rfl
@[simp] theorem bsFinish_sGuid (e : ErrCode) (b : BsUnit) : (b.finish e).sGuid = b.sGuid := rfl
@[simp] theorem bsFinish_sNickname (e : ErrCode) (b : BsUnit) : (b.finish e).sNickname = b.sNickname := rfl
@[simp] theorem bsFinish_sPage (e : ErrCode) (b : BsUnit) : (b.finish e).sPage = b.sPage := rfl
@[simp] theorem bsFinish_sDevcode (e : ErrCode) (b : BsUnit) : (b.finish e).sDevcode = b.sDevcode := rfl
@[simp] theorem bsFinish_sTimeout (e : ErrCode) (b : BsUnit) : (b.finish e).sTimeout = b.sTimeout := rfl
@[simp] theorem bsFinish_sCtrl (e : ErrCode) (b : BsUnit) : (b.finish e).sCtrl = b.sCtrl := rfl
@[simp] theorem bsFinish_cmd (e : ErrCode) (b : BsUnit) : (b.finish e).cmd = 0 := rfl
@[simp] theorem bsFinish_deadlineT0 (e : ErrCode) (b : BsUnit) : (b.finish e).deadlineT0 = b.deadlineT0 := rfl
@[simp] theorem bsFinish_point (e : ErrCode) (b : BsUnit) : (b.finish e).point = .idle := rfl

@[simp] theorem sessionOpen_guid (p : Params) (b : BsUnit) : (sessionOpen p b).guid = b.guid := rfl
@[simp] theorem sessionOpen_nickname (p : Params) (b : BsUnit) : (sessionOpen p b).nickname = b.nickname := rfl
@[simp] theorem sessionOpen_page (p : Params) (b : BsUnit) : (sessionOpen p b).page = b.page := rfl
@[simp] theorem sessionOpen_devcode (p : Params) (b : BsUnit) : (sessionOpen p b).devcode = b.devcode := rfl
@[simp] theorem sessionOpen_timeout (p : Params) (b : BsUnit) : (sessionOpen p b).timeout = b.timeout := rfl
@[simp] theorem sessionOpen_ctrl (p : Params) (b : BsUnit) : (sessionOpen p b).ctrl = b.ctrl := rfl
@[simp] theorem sessionOpen_blockNo (p : Params) (b : BsUnit) : (sessionOpen p b).blockNo = b.blockNo := rfl
@[simp] theorem sessionOpen_memtype (p : Params) (b : BsUnit) : (sessionOpen p b).memtype = b.memtype := rfl
@[simp] theorem sessionOpen_src (p : Params) (b : BsUnit) : (sessionOpen p b).src = b.src := rfl
@[simp] theorem sessionOpen_chunkLen (p : Params) (b : BsUnit) : (sessionOpen p b).chunkLen = b.chunkLen := rfl
@[simp] theorem sessionOpen_flags (p : Params) (b : BsUnit) : (sessionOpen p b).flags = b.flags := rfl
@[simp] theorem sessionOpen_warn (p : Params) (b : BsUnit) : (sessionOpen p b).warn = false := rfl
@[simp] theorem sessionOpen_err (p : Params) (b : BsUnit) : (sessionOpen p b).err = b.err := rfl
@[simp] theorem sessionOpen_state (p : Params) (b : BsUnit) : (sessionOpen p b).state = .init := rfl
@[simp] theorem sessionOpen_blockSize (p : Params) (b : BsUnit) : (sessionOpen p b).blockSize = 0 := rfl
@[simp] theorem sessionOpen_numBlocks (p : Params) (b : BsUnit) : (sessionOpen p b).numBlocks = 0 := rfl
@[simp] theorem sessionOpen_chunkSize (p : Params) (b : BsUnit) : (sessionOpen p b).chunkSize = chunkSizeOf b.ctrl := rfl
@[simp] theorem sessionOpen_checksum (p : Params) (b : BsUnit) : (sessionOpen p b).checksum = p.crc16Init := rfl
@[simp] theorem sessionOpen_region (p : Params) (b : BsUnit) : (sessionOpen p b).region = 0 := rfl
@[simp] theorem sessionOpen_blockIdx (p : Params) (b : BsUnit) : (sessionOpen p b).blockIdx = 0 := rfl
@[simp] theorem sessionOpen_curBlock (p : Params) (b : BsUnit) : (sessionOpen p b).curBlock = 0 := rfl
@[simp] theorem sessionOpen_chunkIdx (p : Params) (b : BsUnit) : (sessionOpen p b).chunkIdx = 0 := rfl
@[simp] theorem sessionOpen_remoteAlg (p : Params) (b : BsUnit) : (sessionOpen p b).remoteAlg = 0 := rfl
@[simp] theorem sessionOpen_remoteDevcode (p : Params) (b : BsUnit) : (sessionOpen p b).remoteDevcode = 0 := rfl
@[simp] theorem sessionOpen_sGuid (p : Params) (b : BsUnit) : (sessionOpen p b).sGuid = b.guid := rfl
@[simp] theorem sessionOpen_sNickname (p : Params) (b : BsUnit) : (sessionOpen p b).sNickname = b.nickname := rfl
@[simp] theorem sessionOpen_sPage (p : Params) (b : BsUnit) : (sessionOpen p b).sPage = b.page := rfl
@[simp] theorem sessionOpen_sDevcode (p : Params) (b : BsUnit) : (sessionOpen p b).sDevcode = b.devcode := rfl
@[simp] theorem sessionOpen_sTimeout (p : Params) (b : BsUnit) : (sessionOpen p b).sTimeout = b.timeout := rfl
@[simp] theorem sessionOpen_sCtrl (p : Params) (b : BsUnit) : (sessionOpen p b).sCtrl = b.ctrl := rfl
@[simp] theorem sessionOpen_cmd (p : Params) (b : BsUnit) : (sessionOpen p b).cmd = b.cmd := rfl
@[simp] theorem sessionOpen_deadlineT0 (p : Params) (b : BsUnit) : (sessionOpen p b).deadlineT0 = b.deadlineT0 := rfl
@[simp] theorem sessionOpen_point (p : Params) (b : BsUnit) : (sessionOpen p b).point = .readRegisters := rfl

@[simp] theorem startAtChecks_guid (b : BsUnit) : (startAtChecks b).guid = b.guid := rfl
@[simp] theorem startAtChecks_nickname (b : BsUnit) : (startAtChecks b).nickname = b.nickname := rfl
@[simp] theorem startAtChecks_page (b : BsUnit) : (startAtChecks b).page = b.page := rfl
@[simp] theorem startAtChecks_devcode (b : BsUnit) : (startAtChecks b).devcode = b.devcode := rfl
@[simp] theorem startAtChecks_timeout (b : BsUnit) : (startAtChecks b).timeout = b.timeout := rfl
@[simp] theorem startAtChecks_ctrl (b : BsUnit) : (startAtChecks b).ctrl = b.ctrl := rfl
@[simp] theorem startAtChecks_blockNo (b : BsUnit) : (startAtChecks b).blockNo = b.blockNo := rfl
@[simp] theorem startAtChecks_memtype (b : BsUnit) : (startAtChecks b).memtype = b.memtype := rfl
@[simp] theorem startAtChecks_src (b : BsUnit) : (startAtChecks b).src = b.src := rfl
@[simp] theorem startAtChecks_chunkLen (b : BsUnit) : (startAtChecks b).chunkLen = b.chunkLen := rfl
@[simp] theorem startAtChecks_flags (b : BsUnit) : (startAtChecks b).flags = b.flags := rfl
@[simp] theorem startAtChecks_warn (b : BsUnit) : (startAtChecks b).warn = b.warn := rfl
@[simp] theorem startAtChecks_err (b : BsUnit) : (startAtChecks b).err = b.err := rfl
@[simp] theorem startAtChecks_state (b : BsUnit) : (startAtChecks b).state = b.state := rfl
@[simp] theorem startAtChecks_blockSize (b : BsUnit) : (startAtChecks b).blockSize = b.blockSize := rfl
@[simp] theorem startAtChecks_numBlocks (b : BsUnit) : (startAtChecks b).numBlocks = b.numBlocks := rfl
@[simp] theorem startAtChecks_chunkSize (b : BsUnit) : (startAtChecks b).chunkSize = b.chunkSize := rfl
@[simp] theorem startAtChecks_checksum (b : BsUnit) : (startAtChecks b).checksum = b.checksum := rfl
@[simp] theorem startAtChecks_region (b : BsUnit) : (startAtChecks b).region = b.region := rfl
@[simp] theorem startAtChecks_blockIdx (b : BsUnit) : (startAtChecks b).blockIdx = b.blockIdx := rfl
@[simp] theorem startAtChecks_curBlock (b : BsUnit) : (startAtChecks b).curBlock = b.curBlock := rfl
@[simp] theorem startAtChecks_chunkIdx (b : BsUnit) : (startAtChecks b).chunkIdx = b.chunkIdx := rfl
@[simp] theorem startAtChecks_remoteAlg (b : BsUnit) : (startAtChecks b).remoteAlg = b.remoteAlg := rfl
@[simp] theorem startAtChecks_remoteDevcode (b : BsUnit) : (startAtChecks b).remoteDevcode = b.remoteDevcode := rfl
@[simp] theorem startAtChecks_sGuid (b : BsUnit) : (startAtChecks b).sGuid = b.sGuid := rfl
@[simp] theorem startAtChecks_sNickname (b : BsUnit) : (startAtChecks b).sNickname = b.sNickname := rfl
@[simp] theorem startAtChecks_sPage (b : BsUnit) : (startAtChecks b).sPage = b.sPage := rfl
@[simp] theorem startAtChecks_sDevcode (b : BsUnit) : (startAtChecks b).sDevcode = b.sDevcode := rfl
@[simp] theorem startAtChecks_sTimeout (b : BsUnit) : (startAtChecks b).sTimeout = b.sTimeout := rfl
@[simp] theorem startAtChecks_sCtrl (b : BsUnit) : (startAtChecks b).sCtrl = b.sCtrl := rfl
@[simp] theorem startAtChecks_cmd (b : BsUnit) : (startAtChecks b).cmd = b.cmd := rfl
@[simp] theorem startAtChecks_deadlineT0 (b : BsUnit) : (startAtChecks b).deadlineT0 = b.deadlineT0 := rfl
@[simp] theorem startAtChecks_point (b : BsUnit) : (startAtChecks b).point = .checks := rfl

/-! ## BS and the environment together -/

@[simp] theorem goto_guid (x : BsWorld) (pt : BsPoint) : (x.goto pt).1.guid = x.1.guid := rfl
@[simp] theorem goto_nickname (x : BsWorld) (pt : BsPoint) : (x.goto pt).1.nickname = x.1.nickname := rfl
@[simp] theorem goto_page (x : BsWorld) (pt : BsPoint) : (x.goto pt).1.page = x.1.page := rfl
@[simp] theorem goto_devcode (x : BsWorld) (pt : BsPoint) : (x.goto pt).1.devcode = x.1.devcode := rfl
@[simp] theorem goto_timeout (x : BsWorld) (pt : BsPoint) : (x.goto pt).1.timeout = x.1.timeout := rfl
@[simp] theorem goto_ctrl (x : BsWorld) (pt : BsPoint) : (x.goto pt).1.ctrl = x.1.ctrl := rfl
@[simp] theorem goto_blockNo (x : BsWorld) (pt : BsPoint) : (x.goto pt).1.blockNo = x.1.blockNo := rfl
@[simp] theorem goto_memtype (x : BsWorld) (pt : BsPoint) : (x.goto pt).1.memtype = x.1.memtype := rfl
@[simp] theorem goto_src (x : BsWorld) (pt : BsPoint) : (x.goto pt).1.src = x.1.src := rfl
@[simp] theorem goto_chunkLen (x : BsWorld) (pt : BsPoint) : (x.goto pt).1.chunkLen = x.1.chunkLen := rfl
@[simp] theorem goto_flags (x : BsWorld) (pt : BsPoint) : (x.goto pt).1.flags = x.1.flags := rfl
@[simp] theorem goto_warn (x : BsWorld) (pt : BsPoint) : (x.goto pt).1.warn = x.1.warn := rfl
@[simp] theorem goto_err (x : BsWorld) (pt : BsPoint) : (x.goto pt).1.err = x.1.err := rfl
@[simp] theorem goto_state (x : BsWorld) (pt : BsPoint) : (x.goto pt).1.state = x.1.state := rfl
@[simp] theorem goto_blockSize (x : BsWorld) (pt : BsPoint) : (x.goto pt).1.blockSize = x.1.blockSize := rfl
@[simp] theorem goto_numBlocks (x : BsWorld) (pt : BsPoint) : (x.goto pt).1.numBlocks = x.1.numBlocks := rfl
@[simp] theorem goto_chunkSize (x : BsWorld) (pt : BsPoint) : (x.goto pt).1.chunkSize = x.1.chunkSize := rfl
@[simp] theorem goto_checksum (x : BsWorld) (pt : BsPoint) : (x.goto pt).1.checksum = x.1.checksum := rfl
@[simp] theorem goto_region (x : BsWorld) (pt : BsPoint) : (x.goto pt).1.region = x.1.region := rfl
@[simp] theorem goto_blockIdx (x : BsWorld) (pt : BsPoint) : (x.goto pt).1.blockIdx = x.1.blockIdx := rfl
@[simp] theorem goto_curBlock (x : BsWorld) (pt : BsPoint) : (x.goto pt).1.curBlock = x.1.curBlock := rfl
@[simp] theorem goto_chunkIdx (x : BsWorld) (pt : BsPoint) : (x.goto pt).1.chunkIdx = x.1.chunkIdx := rfl
@[simp] theorem goto_remoteAlg (x : BsWorld) (pt : BsPoint) : (x.goto pt).1.remoteAlg = x.1.remoteAlg := rfl
@[simp] theorem goto_remoteDevcode (x : BsWorld) (pt : BsPoint) : (x.goto pt).1.remoteDevcode = x.1.remoteDevcode := rfl
@[simp] theorem goto_sGuid (x : BsWorld) (pt : BsPoint) : (x.goto pt).1.sGuid = x.1.sGuid := rfl
@[simp] theorem goto_sNickname (x : BsWorld) (pt : BsPoint) : (x.goto pt).1.sNickname = x.1.sNickname := rfl
@[simp] theorem goto_sPage (x : BsWorld) (pt : BsPoint) : (x.goto pt).1.sPage = x.1.sPage := rfl
@[simp] theorem goto_sDevcode (x : BsWorld) (pt : BsPoint) : (x.goto pt).1.sDevcode = x.1.sDevcode := rfl
@[simp] theorem goto_sTimeout (x : BsWorld) (pt : BsPoint) : (x.goto pt).1.sTimeout = x.1.sTimeout := rfl
@[simp] theorem goto_sCtrl (x : BsWorld) (pt : BsPoint) : (x.goto pt).1.sCtrl = x.1.sCtrl := rfl
@[simp] theorem goto_cmd (x : BsWorld) (pt : BsPoint) : (x.goto pt).1.cmd = x.1.cmd := rfl
@[simp] theorem goto_deadlineT0 (x : BsWorld) (pt : BsPoint) : (x.goto pt).1.deadlineT0 = x.1.deadlineT0 := rfl
@[simp] theorem goto_point (x : BsWorld) (pt : BsPoint) : (x.goto pt).1.point = pt := rfl
@[simp] theorem goto_env (x : BsWorld) (pt : BsPoint) : (x.goto pt).2 = x.2 := rfl
@[simp] theorem status_unit (x : BsWorld) (q : Byte) (m : MsgId) : (x.status q m).1 = x.1 := rfl
@[simp] theorem complete_unit (x : BsWorld) : x.complete.1 = x.1.finish .success := rfl
@[simp] theorem complete_env (x : BsWorld) : x.complete.2 = x.2 := rfl
@[simp] theorem refuse_unit (e : ErrCode) (x : BsWorld) : (BsWorld.refuse e x).1 = x.1.finish e := rfl
@[simp] theorem refuse_env (e : ErrCode) (x : BsWorld) : (BsWorld.refuse e x).2 = x.2 := rfl
@[simp] theorem raise_unit (e : ErrCode) (x : BsWorld) :
    (BsWorld.raise e x).1 = BsUnit.finish e { x.1 with state := .failed } := rfl
@[simp] theorem enterWait_unit (a : Await) (x : BsWorld) :
    (BsWorld.enterWait a x).1 = { x.1 with deadlineT0 := x.2.now.1, point := .wait a } := rfl
@[simp] theorem enterWait_env (a : Await) (x : BsWorld) : (BsWorld.enterWait a x).2 = x.2.now.2 := rfl

/-! ## The machine -/

@[simp] theorem onBs_params (s : State) (f : BsWorld → BsWorld) : (s.onBs f).params = s.params := rfl
@[simp] theorem onBs_ces (s : State) (f : BsWorld → BsWorld) : (s.onBs f).ces = s.ces := rfl
@[simp] theorem onBs_bs (s : State) (f : BsWorld → BsWorld) : (s.onBs f).bs = (f (s.bs, s.env)).1 := rfl
@[simp] theorem onBs_fwb (s : State) (f : BsWorld → BsWorld) : (s.onBs f).fwb = s.fwb := rfl
@[simp] theorem onBs_img (s : State) (f : BsWorld → BsWorld) : (s.onBs f).img = s.img := rfl
@[simp] theorem onBs_env (s : State) (f : BsWorld → BsWorld) : (s.onBs f).env = (f (s.bs, s.env)).2 := rfl
@[simp] theorem onBs_moves (s : State) (f : BsWorld → BsWorld) : (s.onBs f).moves = s.moves := rfl
@[simp] theorem onBs_pace (s : State) (f : BsWorld → BsWorld) : (s.onBs f).pace = s.pace := rfl
@[simp] theorem onBs_readData (s : State) (f : BsWorld → BsWorld) : (s.onBs f).readData = s.readData := rfl

@[simp] theorem takeMove_params (s : State) : (takeMove s).params = s.params := rfl
@[simp] theorem takeMove_ces (s : State) : (takeMove s).ces = s.ces := rfl
@[simp] theorem takeMove_bs (s : State) : (takeMove s).bs = s.bs := rfl
@[simp] theorem takeMove_fwb (s : State) : (takeMove s).fwb = s.fwb := rfl
@[simp] theorem takeMove_img (s : State) : (takeMove s).img = s.img := rfl
@[simp] theorem takeMove_env (s : State) : (takeMove s).env = s.env := rfl
@[simp] theorem takeMove_moves (s : State) : (takeMove s).moves = s.moves.tail := rfl
@[simp] theorem takeMove_pace (s : State) : (takeMove s).pace = s.pace := rfl
@[simp] theorem takeMove_readData (s : State) : (takeMove s).readData = s.readData := rfl

@[simp] theorem onCe_params (s : State) (k : Nat) (f : CeUnit → CeUnit) : (s.onCe k f).params = s.params := by
  unfold State.onCe
  split <;> rfl
@[simp] theorem onCe_bs (s : State) (k : Nat) (f : CeUnit → CeUnit) : (s.onCe k f).bs = s.bs := by
  unfold State.onCe
  split <;> rfl
@[simp] theorem onCe_fwb (s : State) (k : Nat) (f : CeUnit → CeUnit) : (s.onCe k f).fwb = s.fwb := by
  unfold State.onCe
  split <;> rfl
@[simp] theorem onCe_img (s : State) (k : Nat) (f : CeUnit → CeUnit) : (s.onCe k f).img = s.img := by
  unfold State.onCe
  split <;> rfl
@[simp] theorem onCe_env (s : State) (k : Nat) (f : CeUnit → CeUnit) : (s.onCe k f).env = s.env := by
  unfold State.onCe
  split <;> rfl
@[simp] theorem onCe_moves (s : State) (k : Nat) (f : CeUnit → CeUnit) : (s.onCe k f).moves = s.moves := by
  unfold State.onCe
  split <;> rfl
@[simp] theorem onCe_pace (s : State) (k : Nat) (f : CeUnit → CeUnit) : (s.onCe k f).pace = s.pace := by
  unfold State.onCe
  split <;> rfl
@[simp] theorem onCe_readData (s : State) (k : Nat) (f : CeUnit → CeUnit) : (s.onCe k f).readData = s.readData := by
  unfold State.onCe
  split <;> rfl

/-- A change to a cipher unit that exists. -/
theorem onCe_some (s : State) (k : Nat) (f : CeUnit → CeUnit) (u : CeUnit) (h : s.ces[k]? = some u) :
    s.onCe k f = { s with ces := s.ces.set k (f u) } := by
  simp [State.onCe, h]

/-- A change to a cipher unit that does not exist is none. -/
theorem onCe_none (s : State) (k : Nat) (f : CeUnit → CeUnit) (h : s.ces[k]? = none) : s.onCe k f = s := by
  simp [State.onCe, h]

/-- The other cipher units keep all their state. -/
theorem onCe_other (s : State) (k j : Nat) (f : CeUnit → CeUnit) (h : j ≠ k) :
    (s.onCe k f).ces[j]? = s.ces[j]? := by
  unfold State.onCe
  split
  · rfl
  · simp [Ne.symm h]

/-- Unit `k`'s entry of the list changes, and nothing else. -/
@[simp] theorem onCe_ces (s : State) (k : Nat) (f : CeUnit → CeUnit) : (s.onCe k f).ces = s.ces.modify k f := by
  unfold State.onCe
  split <;> rename_i h
  · exact (List.modify_eq_self (List.getElem?_eq_none_iff.mp h)).symm
  · obtain ⟨hk, rfl⟩ := List.getElem?_eq_some_iff.mp h
    simp [List.modify_eq_set_getElem?, h]

/-- A change to a cipher unit leaves every field of the machine but the list of units. -/
theorem onCe_eq (s : State) (k : Nat) (f : CeUnit → CeUnit) : s.onCe k f = { s with ces := s.ces.modify k f } := by
  rw [← onCe_ces]
  unfold State.onCe
  split <;> rfl

/-- Changes to two cipher units can be made in either order (R275). -/
theorem onCe_comm (s : State) (j k : Nat) (f g : CeUnit → CeUnit) (h : j ≠ k) :
    (s.onCe j f).onCe k g = (s.onCe k g).onCe j f := by
  simp only [onCe_eq]
  congr 1
  apply List.ext_getElem?
  intro n
  simp only [List.getElem?_modify]
  by_cases hj : j = n <;> by_cases hk : k = n <;> simp [hj, hk]
  omega

/-- A change to a cipher unit and one to BS can be made in either order (R275). -/
theorem onCe_onBs (s : State) (k : Nat) (f : CeUnit → CeUnit) (g : BsWorld → BsWorld) :
    (s.onCe k f).onBs g = (s.onBs g).onCe k f := by
  simp only [onCe_eq]
  rfl

/-! ## A region's last address -/

/-- The last address of a region is `more` addresses after its first: it does not wrap (R64). -/
@[simp] theorem regionLast_toNat (g : Region) : g.last.toNat = g.first.toNat + g.more.val := by
  have := g.more.isLt
  have := g.first.isLt
  simp only [Region.last, BitVec.toNat_ofNat]
  omega

end Sys2Proof.Machine
end

