-- ==== Sys2Proof/Laws/Env.lean ====
section
/-!
SUPPORT. What the environment ports do: one lemma for a scripted answer, one for what a call can change.
-/

namespace Sys2Proof.Machine

/-! ## Scripted answers -/

theorem now_cons {e : Env} {d : Word} {ds : List Word} (h : e.ticks = d :: ds) :
    e.now = (e.timer + d, { e with timer := e.timer + d, ticks := ds }) := by
  simp [Env.now, h]

theorem tpSend_cons {e : Env} {st : PortStatus} {sts : List PortStatus} (h : e.sendStatus = st :: sts) (ev : Event) :
    e.tpSend ev = (st, { e with sendStatus := sts, sent := e.sent ++ [ev] }) := by
  simp [Env.tpSend, h]

theorem tpCount_cons {e : Env} {c : PortStatus × Word} {cs : List (PortStatus × Word)} (h : e.counts = c :: cs) :
    e.tpCount = (c, { e with counts := cs }) := by
  simp [Env.tpCount, h]

theorem tpReceive_cons {e : Env} {r : PortStatus × Event} {rs : List (PortStatus × Event)}
    (h : e.receives = r :: rs) : e.tpReceive = (r, { e with receives := rs }) := by
  simp [Env.tpReceive, h]

theorem stdregRead_cons {e : Env} {r : PortStatus × Byte × Half} {rs : List (PortStatus × Byte × Half)}
    (h : e.registers = r :: rs) (g : Guid) : e.stdregRead g = (r, { e with registers := rs }) := by
  simp [Env.stdregRead, h]

/-! ## Events -/

@[simp] theorem payload_length (ev : Event) : ev.payload.length = ev.len.val := by simp [Event.payload]
@[simp] theorem requestEvent_cls (p : Params) (b : BsUnit) (typ : Half) (payload : List Byte) :
    (requestEvent p b typ payload).cls = p.classProtocol := rfl
@[simp] theorem requestEvent_typ (p : Params) (b : BsUnit) (typ : Half) (payload : List Byte) :
    (requestEvent p b typ payload).typ = typ := rfl
@[simp] theorem requestEvent_timestamp (p : Params) (b : BsUnit) (typ : Half) (payload : List Byte) :
    (requestEvent p b typ payload).timestamp = 0 := rfl
@[simp] theorem requestEvent_guid (p : Params) (b : BsUnit) (typ : Half) (payload : List Byte) :
    (requestEvent p b typ payload).guid = b.sGuid := rfl
@[simp] theorem requestEvent_payload (p : Params) (b : BsUnit) (typ : Half) (payload : List Byte) :
    (requestEvent p b typ payload).payload = payload.take 512 := by simp [requestEvent, Event.payload]

/-! ## What a port call can change -/

/-- The environment of BS may differ from `e` in the transport, the timer, the register reader and the logs; the logs
only grow. -/
structure Env.Later (e f : Env) : Prop where
  sent     : ∃ more, f.sent = e.sent ++ more
  messages : ∃ more, f.messages = e.messages ++ more

theorem Env.Later.refl (e : Env) : e.Later e := ⟨⟨[], by simp⟩, ⟨[], by simp⟩⟩

theorem Env.Later.trans {e f g : Env} (h1 : e.Later f) (h2 : f.Later g) : e.Later g := by
  obtain ⟨⟨m1, a3⟩, ⟨n1, a4⟩⟩ := h1
  obtain ⟨⟨m2, b3⟩, ⟨n2, b4⟩⟩ := h2
  exact ⟨⟨m1 ++ m2, by rw [b3, a3, List.append_assoc]⟩, ⟨n1 ++ n2, by rw [b4, a4, List.append_assoc]⟩⟩

theorem now_later (e : Env) : e.Later e.now.2 ∧ e.now.2.sent = e.sent ∧ e.now.2.messages = e.messages ∧
    e.now.2.registers = e.registers := by
  unfold Env.now; split <;> exact ⟨⟨⟨[], by simp⟩, ⟨[], by simp⟩⟩, rfl, rfl, rfl⟩

theorem tpSend_later (e : Env) (ev : Event) : e.Later (e.tpSend ev).2 ∧ (e.tpSend ev).2.sent = e.sent ++ [ev] ∧
    (e.tpSend ev).2.messages = e.messages ∧ (e.tpSend ev).2.registers = e.registers := by
  unfold Env.tpSend; split <;> exact ⟨⟨⟨[ev], rfl⟩, ⟨[], by simp⟩⟩, rfl, rfl, rfl⟩

theorem tpCount_later (e : Env) : e.Later e.tpCount.2 ∧ e.tpCount.2.sent = e.sent ∧
    e.tpCount.2.messages = e.messages ∧ e.tpCount.2.registers = e.registers := by
  unfold Env.tpCount; split <;> exact ⟨⟨⟨[], by simp⟩, ⟨[], by simp⟩⟩, rfl, rfl, rfl⟩

theorem tpReceive_later (e : Env) : e.Later e.tpReceive.2 ∧ e.tpReceive.2.sent = e.sent ∧
    e.tpReceive.2.messages = e.messages ∧ e.tpReceive.2.registers = e.registers := by
  unfold Env.tpReceive; split <;> exact ⟨⟨⟨[], by simp⟩, ⟨[], by simp⟩⟩, rfl, rfl, rfl⟩

theorem stdregRead_later (e : Env) (g : Guid) : e.Later (e.stdregRead g).2 ∧ (e.stdregRead g).2.sent = e.sent ∧
    (e.stdregRead g).2.messages = e.messages := by
  unfold Env.stdregRead; split <;> exact ⟨⟨⟨[], by simp⟩, ⟨[], by simp⟩⟩, rfl, rfl⟩

theorem statusEmit_later (e : Env) (q : Byte) (m : MsgId) : e.Later (e.statusEmit q m) :=
  ⟨⟨[], by simp [Env.statusEmit]⟩, ⟨[(q, m)], rfl⟩⟩

/-! ## The random source of a cipher unit: the next scripted answer, else a free one (R51) -/

@[simp] theorem isAvailable_scripted (k : Nat) (b : Bool) (bs : List Bool) (bytes : List Byte) (d : Nat) :
    Rng.isAvailable k ⟨b :: bs, bytes, d⟩ = (b, ⟨bs, bytes, d⟩) := rfl
@[simp] theorem isAvailable_free (k : Nat) (bytes : List Byte) (d : Nat) :
    Rng.isAvailable k ⟨[], bytes, d⟩ = (Config.freeRngAvailable k d, ⟨[], bytes, d + 1⟩) := rfl
@[simp] theorem byte_scripted (k : Nat) (av : List Bool) (b : Byte) (bs : List Byte) (d : Nat) :
    Rng.byte k ⟨av, b :: bs, d⟩ = (b, ⟨av, bs, d⟩) := rfl
@[simp] theorem byte_free (k : Nat) (av : List Bool) (d : Nat) :
    Rng.byte k ⟨av, [], d⟩ = (Config.freeRngByte k d, ⟨av, [], d + 1⟩) := rfl

end Sys2Proof.Machine
end

