-- ==== Sys2Proof/Laws/BootAck.lean ====
section
/-!
SUPPORT. What each bootloader command does after the ACK of its request: `afterStartBlock`, `afterChunk` and
`afterProgramBlock`, one lemma for each command that reaches them.
-/

namespace Sys2Proof.Machine

theorem afterStartBlock_blkStart (n : Word) (x : BsWorld) (h : x.1.cmd = 0x11) :
    afterStartBlock n x = BsWorld.complete (blockAcknowledged n x.1, x.2) := by
  simp only [afterStartBlock, show (blockAcknowledged n x.1).cmd = 0x11 from h]
  rfl

theorem afterStartBlock_devLoad (n : Word) (x : BsWorld) (h : x.1.cmd = 0x15) :
    afterStartBlock n x =
      if 0 < chunkCount x.1 then BsWorld.goto (blockAcknowledged n x.1, x.2) (.sendChunk 0)
      else BsWorld.goto (blockAcknowledged n x.1, x.2) (.sendProgramBlock n) := by
  simp only [afterStartBlock, show (blockAcknowledged n x.1).cmd = 0x15 from h]
  rfl

theorem afterChunk_chunkWrite (k : Nat) (x : BsWorld) (h : x.1.cmd = 0x13) :
    afterChunk k x = BsWorld.complete (chunkAcknowledged x.1, x.2) := by
  simp only [afterChunk, show (chunkAcknowledged x.1).cmd = 0x13 from h]
  rfl

theorem afterChunk_blkWrite (k : Nat) (x : BsWorld) (h : x.1.cmd = 0x12) :
    afterChunk k x =
      if k + 1 < chunkCount x.1 then BsWorld.goto (chunkAcknowledged x.1, x.2) (.sendChunk (k + 1))
      else BsWorld.complete (chunkAcknowledged x.1, x.2) := by
  simp only [afterChunk, show (chunkAcknowledged x.1).cmd = 0x12 from h]
  rfl

theorem afterChunk_devLoad (k : Nat) (x : BsWorld) (h : x.1.cmd = 0x15) :
    afterChunk k x =
      if k + 1 < chunkCount x.1 then BsWorld.goto (chunkAcknowledged x.1, x.2) (.sendChunk (k + 1))
      else BsWorld.goto (chunkAcknowledged x.1, x.2) (.sendProgramBlock x.1.curBlock) := by
  simp only [afterChunk, show (chunkAcknowledged x.1).cmd = 0x15 from h]
  rfl

theorem afterProgramBlock_blkProgram (p : Params) (img : Memory) (x : BsWorld) (h : x.1.cmd = 0x14) :
    afterProgramBlock p img x = BsWorld.complete (programAcknowledged x.1, x.2) := by
  simp only [afterProgramBlock, show (programAcknowledged x.1).cmd = _ from h]
  rfl

theorem afterProgramBlock_devLoad (p : Params) (img : Memory) (x : BsWorld) (h : x.1.cmd = 0x15) :
    afterProgramBlock p img x = loadBlockDone p img (programAcknowledged x.1, x.2) := by
  simp only [afterProgramBlock, show (programAcknowledged x.1).cmd = _ from h]
  rfl

end Sys2Proof.Machine
end

