-- ==== Sys2Proof/Laws/BootFrame.lean ====
section
/-!
SUPPORT. What a step of BS can change, said once for every command: `bsStep_frame` and, for a run, `bsRun_frame`. The
frames of the bootloader commands follow from them.
-/

namespace Sys2Proof.Machine

/-- The command that belongs to each place of the pseudocode. -/
def BsUnit.cmdPoint (b : BsUnit) : Prop :=
  match b.point with
  | .idle => False
  | .checks => b.cmd ≠ 0x10
  | .readRegisters => b.cmd = 0x10
  | .sendEnterBoot => b.cmd = 0x10
  | .wait .enterBoot => b.cmd = 0x10
  | .sendStartBlock _ _ => b.cmd = 0x11 ∨ b.cmd = 0x15
  | .wait (.startBlock _) => b.cmd = 0x11 ∨ b.cmd = 0x15
  | .sendChunk _ => b.cmd = 0x12 ∨ b.cmd = 0x13 ∨ b.cmd = 0x15
  | .wait (.blockData _) => b.cmd = 0x12 ∨ b.cmd = 0x13 ∨ b.cmd = 0x15
  | .sendProgramBlock _ => b.cmd = 0x14 ∨ b.cmd = 0x15
  | .wait .programBlock => b.cmd = 0x14 ∨ b.cmd = 0x15
  | .loadRegion _ => b.cmd = 0x15

/-- With the status port disconnected, and to stay so under `DEV_LOAD`'s relatch. -/
def BsUnit.quiet (c : Byte) (b : BsUnit) : Prop := statusEn b.sCtrl = false ∧ (c = 0x15 → statusEn b.ctrl = false)

/-- Flags stay, or are those of a completed command; `OVR` stays either way. -/
def Flags.within (f g : Flags) : Prop := g = f ∨ ∃ failed, g = f.complete failed

/-- What command `c` may have changed between `x` and `y`. -/
structure BsFrame (c : Byte) (x y : BsWorld) : Prop where
  operands  : x.1.sameOperands y.1
  latched   : y.1.sGuid = x.1.sGuid ∧ y.1.sNickname = x.1.sNickname ∧ y.1.sPage = x.1.sPage ∧
    y.1.sDevcode = x.1.sDevcode ∧ y.1.sTimeout = x.1.sTimeout ∧ y.1.chunkSize = x.1.chunkSize
  sCtrl     : y.1.sCtrl = x.1.sCtrl ∨ (c = 0x15 ∧ y.1.sCtrl = relatchCtrl x.1.sCtrl x.1.ctrl)
  session   : c ≠ 0x10 → y.1.blockSize = x.1.blockSize ∧ y.1.numBlocks = x.1.numBlocks ∧
    y.1.remoteAlg = x.1.remoteAlg ∧ y.1.remoteDevcode = x.1.remoteDevcode ∧ y.1.warn = x.1.warn
  checksum  : c = 0x10 ∨ c = 0x11 ∨ c = 0x14 → y.1.checksum = x.1.checksum
  curBlock  : c ≠ 0x11 → c ≠ 0x15 → y.1.curBlock = x.1.curBlock
  chunkIdx  : c = 0x10 ∨ c = 0x14 → y.1.chunkIdx = x.1.chunkIdx
  progress  : c ≠ 0x15 → y.1.region = x.1.region ∧ y.1.blockIdx = x.1.blockIdx
  later     : x.2.Later y.2
  registers : c ≠ 0x10 → y.2.registers = x.2.registers
  quiet     : x.1.quiet c → y.1.quiet c ∧ y.2.messages = x.2.messages
  flags     : x.1.flags.within y.1.flags

/-- `DEV_LOAD`'s relatch, done twice, is done once. -/
theorem relatch_idem (a c : Byte) : relatchCtrl (relatchCtrl a c) c = relatchCtrl a c := by
  apply BitVec.eq_of_getLsbD_eq
  intro i hi
  simp only [relatchCtrl, BitVec.getLsbD_or, BitVec.getLsbD_and]
  cases a.getLsbD i <;> cases c.getLsbD i <;> cases (0xF3#8).getLsbD i <;> cases (0x0C#8).getLsbD i <;> rfl

theorem BsFrame.refl (c : Byte) (x : BsWorld) : BsFrame c x x :=
  ⟨⟨rfl, rfl, rfl, rfl, rfl, rfl, rfl, rfl, rfl, rfl⟩, ⟨rfl, rfl, rfl, rfl, rfl, rfl⟩, .inl rfl,
    fun _ => ⟨rfl, rfl, rfl, rfl, rfl⟩, fun _ => rfl, fun _ _ => rfl, fun _ => rfl, fun _ => ⟨rfl, rfl⟩,
    Env.Later.refl _, fun _ => rfl, fun h => ⟨h, rfl⟩, .inl rfl⟩

theorem BsFrame.trans {c : Byte} {x y z : BsWorld} (h1 : BsFrame c x y) (h2 : BsFrame c y z) : BsFrame c x z where
  operands := by
    obtain ⟨a1, a2, a3, a4, a5, a6, a7, a8, a9, a10⟩ := h1.operands
    obtain ⟨b1, b2, b3, b4, b5, b6, b7, b8, b9, b10⟩ := h2.operands
    exact ⟨b1.trans a1, b2.trans a2, b3.trans a3, b4.trans a4, b5.trans a5, b6.trans a6, b7.trans a7, b8.trans a8,
      b9.trans a9, b10.trans a10⟩
  latched := by
    obtain ⟨a1, a2, a3, a4, a5, a6⟩ := h1.latched
    obtain ⟨b1, b2, b3, b4, b5, b6⟩ := h2.latched
    exact ⟨b1.trans a1, b2.trans a2, b3.trans a3, b4.trans a4, b5.trans a5, b6.trans a6⟩
  sCtrl := by
    obtain ⟨-, -, -, -, -, ac, -⟩ := h1.operands
    rcases h2.sCtrl with h | ⟨hc, h⟩
    · rw [h]; exact h1.sCtrl
    · refine .inr ⟨hc, ?_⟩
      rw [h, ac]
      rcases h1.sCtrl with h3 | ⟨-, h3⟩
      · rw [h3]
      · rw [h3, relatch_idem]
  session := by
    intro hc
    obtain ⟨a1, a2, a3, a4, a5⟩ := h1.session hc
    obtain ⟨b1, b2, b3, b4, b5⟩ := h2.session hc
    exact ⟨b1.trans a1, b2.trans a2, b3.trans a3, b4.trans a4, b5.trans a5⟩
  checksum h := (h2.checksum h).trans (h1.checksum h)
  curBlock h h' := (h2.curBlock h h').trans (h1.curBlock h h')
  chunkIdx h := (h2.chunkIdx h).trans (h1.chunkIdx h)
  progress h := ⟨(h2.progress h).1.trans (h1.progress h).1, (h2.progress h).2.trans (h1.progress h).2⟩
  later := h1.later.trans h2.later
  registers h := (h2.registers h).trans (h1.registers h)
  quiet h := ⟨(h2.quiet (h1.quiet h).1).1, (h2.quiet (h1.quiet h).1).2.trans (h1.quiet h).2⟩
  flags := by
    rcases h1.flags with h | ⟨a, h⟩ <;> rcases h2.flags with h' | ⟨b, h'⟩
    · exact .inl (h'.trans h)
    · exact .inr ⟨b, by rw [h', h]⟩
    · exact .inr ⟨a, h'.trans h⟩
    · exact .inr ⟨b, by rw [h', h]; rfl⟩

/-- A change of BS's flags, error code, state, command, place and deadline is inside every command's frame. -/
theorem frame_control (c : Byte) (x : BsWorld) (f : Flags) (e : ErrCode) (st : SessionState) (cm : Byte) (pt : BsPoint)
    (t0 : Word) (hf : x.1.flags.within f) :
    BsFrame c x ({ x.1 with flags := f, err := e, state := st, cmd := cm, point := pt, deadlineT0 := t0 }, x.2) :=
  ⟨⟨rfl, rfl, rfl, rfl, rfl, rfl, rfl, rfl, rfl, rfl⟩, ⟨rfl, rfl, rfl, rfl, rfl, rfl⟩, .inl rfl,
    fun _ => ⟨rfl, rfl, rfl, rfl, rfl⟩, fun _ => rfl, fun _ _ => rfl, fun _ => rfl, fun _ => ⟨rfl, rfl⟩,
    Env.Later.refl _, fun _ => rfl, fun h => ⟨h, rfl⟩, hf⟩

/-- A change of the environment that leaves the register reader and the messages alone is too. -/
theorem frame_env (c : Byte) (x : BsWorld) (e : Env) (h1 : x.2.Later e) (h2 : e.messages = x.2.messages)
    (h3 : c ≠ 0x10 → e.registers = x.2.registers) : BsFrame c x (x.1, e) :=
  ⟨⟨rfl, rfl, rfl, rfl, rfl, rfl, rfl, rfl, rfl, rfl⟩, ⟨rfl, rfl, rfl, rfl, rfl, rfl⟩, .inl rfl,
    fun _ => ⟨rfl, rfl, rfl, rfl, rfl⟩, fun _ => rfl, fun _ _ => rfl, fun _ => rfl, fun _ => ⟨rfl, rfl⟩,
    h1, h3, fun h => ⟨h, h2⟩, .inl rfl⟩

theorem frame_goto (c : Byte) (x : BsWorld) (pt : BsPoint) : BsFrame c x (x.goto pt) :=
  frame_control c x x.1.flags x.1.err x.1.state x.1.cmd pt x.1.deadlineT0 (.inl rfl)

theorem frame_complete (c : Byte) (x : BsWorld) : BsFrame c x x.complete :=
  frame_control c x _ _ x.1.state _ _ x.1.deadlineT0 (.inr ⟨_, rfl⟩)

theorem frame_refuse (c : Byte) (x : BsWorld) (e : ErrCode) : BsFrame c x (BsWorld.refuse e x) :=
  frame_control c x _ _ x.1.state _ _ x.1.deadlineT0 (.inr ⟨_, rfl⟩)

/-- The status helper: a message at most, and none when the port is not connected (R186). -/
theorem frame_status (c : Byte) (x : BsWorld) (q : Byte) (m : MsgId) : BsFrame c x (x.status q m) := by
  cases hs : x.1.sCtrl.getLsbD 3 with
  | false => simp only [BsWorld.status, hs]; exact BsFrame.refl c x
  | true =>
    simp only [BsWorld.status, hs, if_true]
    refine ⟨⟨rfl, rfl, rfl, rfl, rfl, rfl, rfl, rfl, rfl, rfl⟩, ⟨rfl, rfl, rfl, rfl, rfl, rfl⟩, .inl rfl,
      fun _ => ⟨rfl, rfl, rfl, rfl, rfl⟩, fun _ => rfl, fun _ _ => rfl, fun _ => rfl, fun _ => ⟨rfl, rfl⟩,
      statusEmit_later _ _ _, fun _ => rfl, fun h => ?_, .inl rfl⟩
    have := h.1
    rw [statusEn, hs] at this
    cases this

theorem frame_raise (c : Byte) (x : BsWorld) (e : ErrCode) : BsFrame c x (BsWorld.raise e x) :=
  (frame_control c x (x.1.flags.complete (e ≠ .success)) e .failed 0 .idle x.1.deadlineT0
    (.inr ⟨_, rfl⟩)).trans (frame_status c _ _ _)

theorem frame_enterWait (c : Byte) (x : BsWorld) (a : Await) : BsFrame c x (BsWorld.enterWait a x) := by
  obtain ⟨h1, -, h2, h3⟩ := now_later x.2
  exact (frame_env c x _ h1 h2 (fun _ => h3)).trans
    (frame_control c (x.1, x.2.now.2) x.1.flags x.1.err x.1.state x.1.cmd (.wait a) x.2.now.1 (.inl rfl))

theorem frame_sendReq (c : Byte) (p : Params) (typ : Half) (payload : List Byte) (x : BsWorld)
    (next : BsWorld → BsWorld) (hn : ∀ y, BsFrame c y (next y)) : BsFrame c x (x.sendReq p typ payload next) := by
  unfold BsWorld.sendReq
  obtain ⟨h1, -, h2, h3⟩ := tpSend_later x.2 (requestEvent p x.1 typ payload)
  have hf := frame_env c x _ h1 h2 (fun _ => h3)
  simp only
  split
  · exact hf.trans (hn _)
  · exact hf.trans (frame_raise c _ _)

theorem frame_startBlockSend (c : Byte) (p : Params) (n : Word) (m : Byte) (x : BsWorld) :
    BsFrame c x (startBlockSend p n m x) := frame_sendReq c p _ _ x _ (frame_enterWait c · _)

theorem frame_programBlockSend (c : Byte) (p : Params) (n : Word) (x : BsWorld) :
    BsFrame c x (programBlockSend p n x) := frame_sendReq c p _ _ x _ (frame_enterWait c · _)

theorem frame_writeChunkSend (c : Byte) (hc : c = 0x12 ∨ c = 0x13 ∨ c = 0x15) (p : Params) (k : Nat)
    (data : List Byte) (x : BsWorld) : BsFrame c x (writeChunkSend p k data x) := by
  unfold writeChunkSend
  split
  · exact frame_raise c x _
  · refine BsFrame.trans ?_ (frame_sendReq c p _ _ _ _ (frame_enterWait c · _))
    refine ⟨⟨rfl, rfl, rfl, rfl, rfl, rfl, rfl, rfl, rfl, rfl⟩, ⟨rfl, rfl, rfl, rfl, rfl, rfl⟩, .inl rfl,
      fun _ => ⟨rfl, rfl, rfl, rfl, rfl⟩, fun h => ?_, fun _ _ => rfl, fun _ => rfl, fun _ => ⟨rfl, rfl⟩,
      Env.Later.refl _, fun _ => rfl, fun h => ⟨h, rfl⟩, .inl rfl⟩
    rcases hc with rfl | rfl | rfl <;> rcases h with h | h | h <;> cases h

theorem frame_devInitSend (p : Params) (x : BsWorld) : BsFrame 0x10 x (devInitSend p x) :=
  frame_sendReq _ p _ _ x _ fun y =>
    (frame_control _ y y.1.flags y.1.err .bootModeRequested y.1.cmd y.1.point y.1.deadlineT0 (.inl rfl)).trans
      ((frame_status _ _ _ _).trans (frame_enterWait _ _ _))

/-- Registers that `DEV_INIT` alone writes. -/
theorem frame_devInitWrite (x : BsWorld) (bs nb : Word) (ra : Byte) (rd : Half) (w : Bool) (st : SessionState) :
    BsFrame 0x10 x ({ x.1 with blockSize := bs, numBlocks := nb, remoteAlg := ra, remoteDevcode := rd, warn := w,
                               state := st }, x.2) :=
  ⟨⟨rfl, rfl, rfl, rfl, rfl, rfl, rfl, rfl, rfl, rfl⟩, ⟨rfl, rfl, rfl, rfl, rfl, rfl⟩, .inl rfl,
    fun h => absurd rfl h, fun _ => rfl, fun _ _ => rfl, fun _ => rfl, fun _ => ⟨rfl, rfl⟩,
    Env.Later.refl _, fun _ => rfl, fun h => ⟨h, rfl⟩, .inl rfl⟩

theorem frame_devInitCompare (p : Params) (z : BsWorld) : BsFrame 0x10 z (devInitCompare p z) := by
  unfold devInitCompare
  split
  · exact frame_raise _ _ _
  · split
    · split
      · exact frame_raise _ _ _
      · exact (frame_devInitWrite z z.1.blockSize z.1.numBlocks z.1.remoteAlg z.1.remoteDevcode true z.1.state).trans
          ((frame_status _ _ _ _).trans (frame_goto _ _ _))
    · exact frame_goto _ _ _

theorem frame_devInitRead (p : Params) (x : BsWorld) : BsFrame 0x10 x (devInitRead p x) := by
  unfold devInitRead
  refine (frame_status 0x10 x milestone .initStart).trans ?_
  generalize x.status milestone .initStart = y
  obtain ⟨h1, -, h2⟩ := stdregRead_later y.2 y.1.sGuid
  have hf : BsFrame 0x10 y (y.1, (y.2.stdregRead y.1.sGuid).2) := frame_env _ y _ h1 h2 (fun h => absurd rfl h)
  simp only
  split
  · exact hf.trans ((frame_devInitWrite (y.1, (y.2.stdregRead y.1.sGuid).2) y.1.blockSize y.1.numBlocks
      (y.2.stdregRead y.1.sGuid).1.2.1 (y.2.stdregRead y.1.sGuid).1.2.2 y.1.warn .registersRead).trans
      ((frame_status 0x10 _ milestone .regsRead).trans (frame_devInitCompare _ _)))
  · exact hf.trans (frame_raise _ _ _)

theorem frame_afterEnterBoot (ev : Event) (x : BsWorld) : BsFrame 0x10 x (afterEnterBoot ev x) := by
  have hf := frame_devInitWrite x (ackBlockSize ev.payload) (ackNumBlocks ev.payload) x.1.remoteAlg x.1.remoteDevcode x.1.warn
  unfold afterEnterBoot
  simp only
  split
  · exact frame_raise _ _ _
  · split
    · exact (hf x.1.state).trans (frame_raise _ _ _)
    · exact (hf .bootModeConfirmed).trans ((frame_status _ _ _ _).trans (frame_complete _ _))

theorem frame_loadNextBlock (c : Byte) (p : Params) (img : Memory) (x : BsWorld) :
    BsFrame c x (loadNextBlock p img x) := frame_goto c x _

/-- Progress registers that `DEV_LOAD` alone writes, with the state. -/
theorem frame_loadWrite (x : BsWorld) (r : Byte) (bi : Word) (st : SessionState) :
    BsFrame 0x15 x ({ x.1 with region := r, blockIdx := bi, state := st }, x.2) :=
  ⟨⟨rfl, rfl, rfl, rfl, rfl, rfl, rfl, rfl, rfl, rfl⟩, ⟨rfl, rfl, rfl, rfl, rfl, rfl⟩, .inl rfl,
    fun _ => ⟨rfl, rfl, rfl, rfl, rfl⟩, fun _ => rfl, fun _ _ => rfl, fun _ => rfl, fun h => absurd rfl h,
    Env.Later.refl _, fun _ => rfl, fun h => ⟨h, rfl⟩, .inl rfl⟩

theorem frame_loadRegion (p : Params) (img : Memory) (r : Nat) (x : BsWorld) :
    BsFrame 0x15 x (loadRegion p img r x) := by
  unfold loadRegion
  split
  · refine (frame_loadWrite x (BitVec.ofNat 8 r) 0 x.1.state).trans ?_
    simp only
    split
    · exact frame_goto _ _ _
    · exact (frame_status _ _ _ _).trans (frame_loadNextBlock _ _ _ _)
  · exact (frame_loadWrite x 4 x.1.blockIdx .rebooted).trans ((frame_status _ _ _ _).trans (frame_complete _ _))

theorem frame_loadBlockDone (p : Params) (img : Memory) (x : BsWorld) :
    BsFrame 0x15 x (loadBlockDone p img x) := by
  unfold loadBlockDone
  have hf := (frame_loadWrite x x.1.region (x.1.blockIdx + 1) x.1.state).trans (frame_status 0x15 _
    (progressOf (x.1.blockIdx.toNat + 1) ((currentBlocks p img x.1).getD (0, 0)).2) .blockProgrammed)
  simp only
  split
  · exact hf.trans (frame_loadNextBlock _ _ _ _)
  · exact hf.trans (frame_goto _ _ _)

theorem frame_afterStartBlock (c : Byte) (hc : c = 0x11 ∨ c = 0x15) (n : Word) (x : BsWorld) :
    BsFrame c x (afterStartBlock n x) := by
  unfold afterStartBlock
  have hf : BsFrame c x (blockAcknowledged n x.1, x.2) := by
    refine ⟨⟨rfl, rfl, rfl, rfl, rfl, rfl, rfl, rfl, rfl, rfl⟩, ⟨rfl, rfl, rfl, rfl, rfl, rfl⟩, .inl rfl,
      fun _ => ⟨rfl, rfl, rfl, rfl, rfl⟩, fun _ => rfl, fun h h' => ?_, fun h => ?_, fun _ => ⟨rfl, rfl⟩,
      Env.Later.refl _, fun _ => rfl, fun h => ⟨h, rfl⟩, .inl rfl⟩
    · rcases hc with rfl | rfl
      · exact absurd rfl h
      · exact absurd rfl h'
    · rcases hc with rfl | rfl <;> rcases h with h | h <;> cases h
  refine hf.trans ?_
  simp only
  split
  · exact frame_complete _ _
  · split <;> exact frame_goto _ _ _

theorem frame_afterChunk (c : Byte) (hc : c = 0x12 ∨ c = 0x13 ∨ c = 0x15) (k : Nat) (x : BsWorld) :
    BsFrame c x (afterChunk k x) := by
  unfold afterChunk
  have hf : BsFrame c x (chunkAcknowledged x.1, x.2) := by
    refine ⟨⟨rfl, rfl, rfl, rfl, rfl, rfl, rfl, rfl, rfl, rfl⟩, ⟨rfl, rfl, rfl, rfl, rfl, rfl⟩, .inl rfl,
      fun _ => ⟨rfl, rfl, rfl, rfl, rfl⟩, fun _ => rfl, fun _ _ => rfl, fun h => ?_, fun _ => ⟨rfl, rfl⟩,
      Env.Later.refl _, fun _ => rfl, fun h => ⟨h, rfl⟩, .inl rfl⟩
    rcases hc with rfl | rfl | rfl <;> rcases h with h | h <;> cases h
  refine hf.trans ?_
  simp only
  split
  · exact frame_complete _ _
  · split
    · exact frame_goto _ _ _
    · exact frame_complete _ _
  · split <;> exact frame_goto _ _ _

theorem frame_afterProgramBlock (c : Byte) (hc : c = 0x14 ∨ c = 0x15) (p : Params) (img : Memory) (x : BsWorld)
    (hx : x.1.cmd = c) : BsFrame c x (afterProgramBlock p img x) := by
  have hf : BsFrame c x (programAcknowledged x.1, x.2) :=
    frame_control c x x.1.flags x.1.err .blockProgrammed x.1.cmd x.1.point x.1.deadlineT0 (.inl rfl)
  rcases hc with rfl | rfl
  · rw [afterProgramBlock_blkProgram _ _ _ hx]; exact hf.trans (frame_complete _ _)
  · rw [afterProgramBlock_devLoad _ _ _ hx]; exact hf.trans (frame_loadBlockDone _ _ _)

theorem frame_deadlineTest (c : Byte) (x : BsWorld) : BsFrame c x (deadlineTest x) := by
  obtain ⟨h1, -, h2, h3⟩ := now_later x.2
  have hf := frame_env c x _ h1 h2 (fun _ => h3)
  unfold deadlineTest
  simp only
  split
  · exact hf.trans (frame_raise _ _ _)
  · exact hf

theorem frame_checkResponse (c : Byte) (p : Params) (img : Memory) (a : Await) (x : BsWorld)
    (ha : ∀ ev e, BsFrame c (x.1, e) (afterAck p img a ev (x.1, e))) : BsFrame c x (checkResponse p img a x) := by
  obtain ⟨h1, -, h2, h3⟩ := tpCount_later x.2
  have hf := frame_env c x _ h1 h2 (fun _ => h3)
  obtain ⟨g1, -, g2, g3⟩ := tpReceive_later x.2.tpCount.2
  have hg := hf.trans (frame_env c (x.1, x.2.tpCount.2) _ g1 g2 (fun _ => g3))
  unfold checkResponse
  simp only
  split
  · split
    · split
      · exact hg.trans (ha _ _)
      · exact hg.trans (frame_raise _ _ _)
      · exact hg.trans (frame_deadlineTest _ _)
    · exact hg.trans (frame_deadlineTest _ _)
  · exact hf.trans (frame_deadlineTest _ _)

theorem frame_bsChecks (p : Params) (x : BsWorld) : BsFrame x.1.cmd x (bsChecks p x) := by
  unfold bsChecks
  split
  · unfold blkStartChecks; split
    · exact frame_goto _ _ _
    · exact frame_refuse _ _ _
  · unfold blkWriteChecks; split
    · exact frame_refuse _ _ _
    · split
      · split
        · exact frame_goto _ _ _
        · exact frame_complete _ _
      · exact frame_refuse _ _ _
  · unfold chunkWriteChecks; split
    · exact frame_refuse _ _ _
    · split
      · exact frame_refuse _ _ _
      · split
        · exact frame_goto _ _ _
        · exact frame_refuse _ _ _
  · unfold blkProgramChecks; split
    · exact frame_goto _ _ _
    · exact frame_refuse _ _ _
  · rename_i hcmd
    have hcmd : x.1.cmd = 0x15 := BitVec.eq_of_toNat_eq hcmd
    unfold devLoadChecks; split
    · refine BsFrame.trans ?_ (frame_goto _ _ _)
      refine ⟨⟨rfl, rfl, rfl, rfl, rfl, rfl, rfl, rfl, rfl, rfl⟩, ⟨rfl, rfl, rfl, rfl, rfl, rfl⟩, .inr ⟨hcmd, rfl⟩,
        fun _ => ⟨rfl, rfl, rfl, rfl, rfl⟩, fun _ => rfl, fun _ _ => rfl, fun _ => rfl, fun _ => ⟨rfl, rfl⟩,
        Env.Later.refl _, fun _ => rfl, fun h => ⟨⟨?_, h.2⟩, rfl⟩, .inl rfl⟩
      have := h.2 hcmd
      simp only [statusEn, relatchCtrl, BitVec.getLsbD_or, BitVec.getLsbD_and] at this ⊢
      rw [this]; simp
    · exact frame_refuse _ _ _
  · exact frame_refuse _ _ _

/-- What a step of busy BS can change. -/
theorem bsStep_frame (p : Params) (fwb img : Memory) (x : BsWorld) (h : x.1.cmdPoint) :
    BsFrame x.1.cmd x (bsStep p fwb img x) := by
  unfold BsUnit.cmdPoint at h
  unfold bsStep
  split at h <;> rename_i hp <;> simp only [hp]
  · exact BsFrame.refl _ _
  · exact frame_bsChecks p x
  · rw [h]; exact frame_devInitRead p x
  · rw [h]; exact frame_devInitSend p x
  · refine frame_checkResponse _ _ _ _ _ fun ev e => ?_
    rw [h]; exact frame_afterEnterBoot ev _
  · exact frame_startBlockSend _ _ _ _ _
  · exact frame_checkResponse _ _ _ _ _ fun ev e => frame_afterStartBlock _ h _ _
  · exact frame_writeChunkSend _ h _ _ _ _
  · exact frame_checkResponse _ _ _ _ _ fun ev e => frame_afterChunk _ h _ _
  · exact frame_programBlockSend _ _ _ _
  · exact frame_checkResponse _ _ _ _ _ fun ev e => frame_afterProgramBlock _ h _ _ _ rfl
  · rw [h]; exact frame_loadRegion _ _ _ _

end Sys2Proof.Machine
end

