-- ==== Sys2Proof/Laws/BootInv.lean ====
section
/-!
SUPPORT. A step of BS keeps `BsUnit.Inv` and moves `BS_STATE` along an arrow of the transition table at most:
`bsStep_inv`.
-/

namespace Sys2Proof.Machine

/-- The part of `BsUnit.Inv` that does not speak of the report or the place in the pseudocode. -/
structure BsUnit.Base (b : BsUnit) : Prop where
  ctrlBits  : b.ctrl &&& 0xF0 = 0
  sCtrlBits : b.sCtrl &&& 0xF0 = 0
  region    : b.region.toNat ≤ 4
  session   : b.state.live = true → b.chunkSize = chunkSizeOf b.sCtrl ∧ b.chunkSize.toNat ≤ b.blockSize.toNat
  started   : b.state = .blockStarted → b.chunkIdx.toNat < chunkCount b
  written   : b.state = .blockWritten ∨ b.state = .blockProgrammed → b.chunkIdx.toNat = chunkCount b

theorem BsUnit.Inv.base {b : BsUnit} (h : b.Inv) : b.Base :=
  ⟨h.ctrlBits, h.sCtrlBits, h.region, h.session, h.started, h.written⟩

/-- A command that ends leaves an idle unit that obeys the invariant. -/
theorem finish_inv {b : BsUnit} (e : ErrCode) (hb : b.Base) (ht : b.state.transient = false)
    (he : b.state = .failed → e ≠ .success) : (b.finish e).Inv where
  exclusive := by simp [BsUnit.finish, Flags.complete]
  errDone := by simp [BsUnit.finish, Flags.complete]
  errCode := by simp [BsUnit.finish, Flags.complete]
  idle _ := ⟨rfl, rfl, ht⟩
  busy h := by cases h
  ctrlBits := hb.ctrlBits
  sCtrlBits := hb.sCtrlBits
  region := hb.region
  session := hb.session
  started := hb.started
  failed h _ := by simpa [BsUnit.finish, Flags.complete] using he h
  written := hb.written

/-- A unit inside a command obeys the invariant when its place fits. -/
theorem busy_inv {b : BsUnit} (hb : b.Base) (h1 : b.flags.busy = true) (h2 : b.flags.done = false)
    (h3 : b.flags.err = false) (hp : b.point ≠ .idle) (hok : b.pointOk) : b.Inv where
  exclusive := by simp [h2]
  errDone := by simp [h3]
  errCode := by simp [h2]
  idle h := by rw [h1] at h; cases h
  busy _ := ⟨hp, hok⟩
  ctrlBits := hb.ctrlBits
  sCtrlBits := hb.sCtrlBits
  region := hb.region
  session := hb.session
  started := hb.started
  failed _ h := by rw [h1] at h; cases h
  written := hb.written

/-- The flags inside a command. -/
theorem busy_flags {b : BsUnit} (h : b.Inv) (hb : b.flags.busy = true) : b.flags.done = false ∧ b.flags.err = false := by
  have h1 : b.flags.done = false := by
    have := h.exclusive
    cases hd : b.flags.done
    · rfl
    · exact absurd ⟨hb, hd⟩ this
  refine ⟨h1, ?_⟩
  cases he : b.flags.err
  · rfl
  · rw [h.errDone he] at h1; cases h1

/-- What is shown of a step from `x` to `y`. -/
def BsStepInv (x y : BsWorld) : Prop := y.1.Inv ∧ (y.1.state = x.1.state ∨ SessionState.arrow x.1.state y.1.state)

theorem base_failed {b : BsUnit} (h : b.Base) : BsUnit.Base { b with state := .failed } where
  ctrlBits := h.ctrlBits
  sCtrlBits := h.sCtrlBits
  region := h.region
  session := by intro h; cases h
  started := by intro h; cases h
  written := by rintro (h | h) <;> cases h

/-- A raise ends the session (R263). -/
theorem raise_inv {x y : BsWorld} (e : ErrCode) (he : e ≠ .success) (h : y.1.Base) :
    BsStepInv x (BsWorld.raise e y) :=
  ⟨finish_inv e (base_failed h) rfl (fun _ => he), .inr (.inr (.inr (.inr (.inr (.inr (.inr (.inr rfl)))))))⟩

theorem chunkSizeOf_pos (c : Byte) : 8 ≤ (chunkSizeOf c).toNat := by
  unfold chunkSizeOf; split <;> decide

theorem chunkSizeOf_relatch (a c : Byte) : chunkSizeOf (relatchCtrl a c) = chunkSizeOf a := by
  have : addrMode (relatchCtrl a c) = addrMode a := by
    simp only [addrMode, relatchCtrl, BitVec.getLsbD_or, BitVec.getLsbD_and]
    cases a.getLsbD 0 <;> cases c.getLsbD 0 <;> rfl
  unfold chunkSizeOf; rw [this]

theorem relatch_bits {a c : Byte} (h : a &&& 0xF0 = 0) : relatchCtrl a c &&& 0xF0 = 0 := by
  apply BitVec.eq_of_getLsbD_eq
  intro i hi
  have h2 : (a &&& 0xF0).getLsbD i = false := by rw [h]; simp
  have h3 : i = 0 ∨ i = 1 ∨ i = 2 ∨ i = 3 ∨ i = 4 ∨ i = 5 ∨ i = 6 ∨ i = 7 := by omega
  simp only [relatchCtrl, BitVec.getLsbD_or, BitVec.getLsbD_and] at h2 ⊢
  rcases h3 with rfl | rfl | rfl | rfl | rfl | rfl | rfl | rfl <;> revert h2 <;>
    cases a.getLsbD _ <;> cases c.getLsbD _ <;> decide

/-- `ceil_div` of a block at least as long as a chunk. -/
theorem chunkCount_bounds {b : BsUnit} (h1 : 1 ≤ b.chunkSize.toNat) (h2 : b.chunkSize.toNat ≤ b.blockSize.toNat) :
    0 < chunkCount b ∧ chunkCount b < 2 ^ 32 := by
  unfold chunkCount ceilDiv
  have hlt := b.blockSize.isLt
  refine ⟨Nat.div_pos (by omega) h1, ?_⟩
  calc (b.blockSize.toNat + b.chunkSize.toNat - 1) / b.chunkSize.toNat
      ≤ b.blockSize.toNat := by
        rw [Nat.div_le_iff_le_mul_add_pred h1]
        have := Nat.le_mul_of_pos_left b.blockSize.toNat h1
        omega
    _ < 2 ^ 32 := hlt

/-- Away from a refused code, `goto` to a fitting place. -/
theorem goto_inv {x y : BsWorld} (pt : BsPoint) (hb : y.1.Base) (h1 : y.1.flags.busy = true)
    (h2 : y.1.flags.done = false) (h3 : y.1.flags.err = false) (hp : pt ≠ .idle)
    (hok : BsUnit.pointOk { y.1 with point := pt })
    (hs : y.1.state = x.1.state ∨ SessionState.arrow x.1.state y.1.state) : BsStepInv x (y.goto pt) :=
  ⟨busy_inv ⟨hb.ctrlBits, hb.sCtrlBits, hb.region, hb.session, hb.started, hb.written⟩ h1 h2 h3 hp hok, hs⟩

/-- A request and the wait after it. -/
theorem sendReq_inv {x y : BsWorld} (p : Params) (typ : Half) (payload : List Byte) (next : BsWorld → BsWorld)
    (hb : y.1.Base) (hn : ∀ e, BsStepInv x (next (y.1, e))) : BsStepInv x (BsWorld.sendReq p typ payload y next) := by
  unfold BsWorld.sendReq
  simp only
  split
  · exact hn _
  · exact raise_inv _ (by decide) hb

theorem enterWait_inv {x y : BsWorld} (a : Await) (hb : y.1.Base) (h1 : y.1.flags.busy = true)
    (h2 : y.1.flags.done = false) (h3 : y.1.flags.err = false)
    (hok : ∀ t0, BsUnit.pointOk { y.1 with point := .wait a, deadlineT0 := t0 })
    (hs : y.1.state = x.1.state ∨ SessionState.arrow x.1.state y.1.state) :
    BsStepInv x (BsWorld.enterWait a y) :=
  ⟨busy_inv ⟨hb.ctrlBits, hb.sCtrlBits, hb.region, hb.session, hb.started, hb.written⟩ h1 h2 h3 (by simp) (hok _), hs⟩

theorem bsChecks_inv (p : Params) (x : BsWorld) (hi : x.1.Inv) (hb : x.1.flags.busy = true)
    (hp : x.1.point = .checks) : BsStepInv x (bsChecks p x) := by
  obtain ⟨hd, he⟩ := busy_flags hi hb
  have hok := (hi.busy hb).2
  unfold BsUnit.pointOk at hok
  rw [hp] at hok
  obtain ⟨-, -, ht⟩ := hok
  have hrefuse : ∀ e, e ≠ .success → BsStepInv x (BsWorld.refuse e x) :=
    fun e h => ⟨finish_inv e hi.base ht (fun _ => h), .inl rfl⟩
  have hgoto : ∀ pt, pt ≠ .idle → BsUnit.pointOk { x.1 with point := pt } → BsStepInv x (x.goto pt) :=
    fun pt h1 h2 => goto_inv pt hi.base hb hd he h1 h2 (.inl rfl)
  unfold bsChecks
  split
  · rename_i hc
    unfold blkStartChecks; split
    · rename_i hs; exact hgoto _ (by simp) ⟨.inl (BitVec.eq_of_toNat_eq hc), hs⟩
    · exact hrefuse _ (by decide)
  · rename_i hc
    unfold blkWriteChecks; split
    · exact hrefuse _ (by decide)
    · rename_i hs
      have hs : x.1.state = .blockStarted ∧ x.1.chunkIdx = 0 := by
        constructor <;> by_contra h <;> exact hs (by tauto)
      split
      · split
        · exact hgoto _ (by simp) ⟨.inl (BitVec.eq_of_toNat_eq hc), hs.1, by simp [hs.2]⟩
        · exact ⟨finish_inv .success hi.base ht (fun h => by rw [hs.1] at h; cases h), .inl rfl⟩
      · exact hrefuse _ (by decide)
  · rename_i hc
    unfold chunkWriteChecks; split
    · exact hrefuse _ (by decide)
    · rename_i hs
      split
      · exact hrefuse _ (by decide)
      · split
        · exact hgoto _ (by simp) ⟨.inr (.inl (BitVec.eq_of_toNat_eq hc)), Decidable.not_not.mp hs, rfl⟩
        · exact hrefuse _ (by decide)
  · rename_i hc
    unfold blkProgramChecks; split
    · rename_i hs; exact hgoto _ (by simp) ⟨.inl (BitVec.eq_of_toNat_eq hc), hs⟩
    · exact hrefuse _ (by decide)
  · rename_i hc
    unfold devLoadChecks; split
    · rename_i hs
      refine goto_inv _ ?_ hb hd he (by simp) ⟨BitVec.eq_of_toNat_eq hc, .inl hs⟩ (.inl rfl)
      have h := hi.base
      exact ⟨h.ctrlBits, relatch_bits h.sCtrlBits, h.region,
        fun hl => by simpa [chunkSizeOf_relatch] using h.session hl, h.started, h.written⟩
    · exact hrefuse _ (by decide)
  · exact hrefuse _ (by decide)

theorem devInitRead_inv (p : Params) (x : BsWorld) (hi : x.1.Inv) (hb : x.1.flags.busy = true)
    (hp : x.1.point = .readRegisters) : BsStepInv x (devInitRead p x) := by
  obtain ⟨hd, he⟩ := busy_flags hi hb
  have hok := (hi.busy hb).2
  unfold BsUnit.pointOk at hok
  rw [hp] at hok
  obtain ⟨hc, hs, hz⟩ := hok
  have h := hi.base
  have hbase : ∀ ra rd w,
      BsUnit.Base { x.1 with remoteAlg := ra, remoteDevcode := rd, warn := w, state := .registersRead } :=
    fun ra rd w => ⟨h.ctrlBits, h.sCtrlBits, h.region, fun h => (nomatch h), fun h => (nomatch h),
      fun h => (by rcases h with h | h <;> cases h)⟩
  have harr : SessionState.arrow x.1.state .registersRead := .inl ⟨hs, rfl⟩
  unfold devInitRead
  simp only
  split
  · unfold devInitCompare
    split
    · exact raise_inv _ (by decide) (hbase _ _ _)
    · split
      · split
        · exact raise_inv _ (by decide) (hbase _ _ _)
        · exact goto_inv _ (hbase _ _ _) hb hd he (by simp) ⟨hc, rfl, hz⟩ (.inr harr)
      · exact goto_inv _ (hbase _ _ _) hb hd he (by simp) ⟨hc, rfl, hz⟩ (.inr harr)
  · exact raise_inv _ (by decide) hi.base

theorem afterEnterBoot_inv (ev : Event) (x : BsWorld) (e : Env) (hi : x.1.Inv) (hb : x.1.flags.busy = true)
    (hp : x.1.point = .wait .enterBoot) : BsStepInv x (afterEnterBoot ev (x.1, e)) := by
  have hok := (hi.busy hb).2
  unfold BsUnit.pointOk at hok
  rw [hp] at hok
  obtain ⟨hc, hs, hz⟩ := hok
  have h := hi.base
  unfold afterEnterBoot
  simp only
  split
  · exact raise_inv _ (by decide) h
  · split
    · refine raise_inv _ (by decide) ⟨h.ctrlBits, h.sCtrlBits, h.region, ?_, ?_, ?_⟩
      · intro h; simp [hs, SessionState.live] at h
      · intro h; simp [hs] at h
      · intro h; simp [hs] at h
    · rename_i hsz
      refine ⟨finish_inv .success ⟨h.ctrlBits, h.sCtrlBits, h.region, fun _ => ⟨hz, by simpa using hsz⟩, ?_, ?_⟩ rfl ?_,
        .inr (.inr (.inr (.inl ⟨hs, rfl⟩)))⟩
      · intro h; cases h
      · intro h; rcases h with h | h <;> cases h
      · intro h; cases h

theorem afterStartBlock_inv (n : Word) (x : BsWorld) (e : Env) (hi : x.1.Inv) (hb : x.1.flags.busy = true)
    (hp : x.1.point = .wait (.startBlock n)) : BsStepInv x (afterStartBlock n (x.1, e)) := by
  obtain ⟨hd, he⟩ := busy_flags hi hb
  have hok := (hi.busy hb).2
  unfold BsUnit.pointOk at hok
  rw [hp] at hok
  obtain ⟨hc, hs⟩ := hok
  have h := hi.base
  have hl : x.1.state.live = true := by rcases hs with hs | hs <;> rw [hs] <;> rfl
  obtain ⟨hz, hle⟩ := h.session hl
  have h8 : 1 ≤ x.1.chunkSize.toNat := by rw [hz]; have := chunkSizeOf_pos x.1.sCtrl; omega
  have hcount := (chunkCount_bounds h8 hle).1
  have hbase : (blockAcknowledged n x.1).Base :=
    ⟨h.ctrlBits, h.sCtrlBits, h.region, fun _ => ⟨hz, hle⟩, fun _ => hcount,
      fun h => (by rcases h with h | h <;> cases h)⟩
  have harr : SessionState.arrow x.1.state .blockStarted := .inr (.inr (.inr (.inl ⟨hs, rfl⟩)))
  unfold afterStartBlock
  simp only
  split
  · exact ⟨finish_inv .success hbase rfl (fun h => (nomatch h)), .inr harr⟩
  · rename_i hne
    have hc15 : x.1.cmd = 0x15 := by
      rcases hc with hc | hc
      · exact absurd (by show x.1.cmd.toNat = 17; rw [hc]; rfl) hne
      · exact hc
    rw [if_pos (show 0 < chunkCount (blockAcknowledged n x.1) from hcount)]
    exact goto_inv _ hbase hb hd he (by simp) ⟨.inr (.inr hc15), rfl, rfl⟩ (.inr harr)

theorem afterChunk_inv (k : Nat) (x : BsWorld) (e : Env) (hi : x.1.Inv) (hb : x.1.flags.busy = true)
    (hp : x.1.point = .wait (.blockData k)) : BsStepInv x (afterChunk k (x.1, e)) := by
  obtain ⟨hd, he⟩ := busy_flags hi hb
  have hok := (hi.busy hb).2
  unfold BsUnit.pointOk at hok
  rw [hp] at hok
  obtain ⟨hc, hs, hk⟩ := hok
  have h := hi.base
  obtain ⟨hz, hle⟩ := h.session (by rw [hs]; rfl)
  have h8 : 1 ≤ x.1.chunkSize.toNat := by rw [hz]; have := chunkSizeOf_pos x.1.sCtrl; omega
  have hcount := (chunkCount_bounds h8 hle).2
  have hlt := h.started hs
  have hadd : (x.1.chunkIdx + 1).toNat = x.1.chunkIdx.toNat + 1 := by
    rw [BitVec.toNat_add, show (1 : Word).toNat = 1 from rfl, Nat.mod_eq_of_lt (by omega)]
  have hcc : chunkCount (chunkAcknowledged x.1) = chunkCount x.1 := rfl
  have hst : (chunkAcknowledged x.1).state =
      if (x.1.chunkIdx + 1).toNat = chunkCount x.1 then .blockWritten else .blockStarted := by
    simp [chunkAcknowledged, hs]
  have hbase : (chunkAcknowledged x.1).Base := by
    refine ⟨h.ctrlBits, h.sCtrlBits, h.region, fun _ => ⟨hz, hle⟩, fun hq => ?_, fun hq => ?_⟩
    · rw [hst] at hq
      rw [hcc]
      show (x.1.chunkIdx + 1).toNat < chunkCount x.1
      split at hq
      · cases hq
      · omega
    · rw [hst] at hq
      rw [hcc]
      show (x.1.chunkIdx + 1).toNat = chunkCount x.1
      split at hq
      · assumption
      · rcases hq with hq | hq <;> cases hq
  have harr : (chunkAcknowledged x.1).state = x.1.state ∨
      SessionState.arrow x.1.state (chunkAcknowledged x.1).state := by
    rw [hst]
    split
    · exact .inr (.inr (.inr (.inr (.inr (.inl ⟨hs, rfl⟩)))))
    · exact .inl hs.symm
  have htr : (chunkAcknowledged x.1).state.transient = false := by rw [hst]; split <;> rfl
  have hnf : (chunkAcknowledged x.1).state = .failed → ErrCode.success ≠ .success := by
    rw [hst]; intro h; split at h <;> cases h
  have hdone : BsStepInv x (BsWorld.complete (chunkAcknowledged x.1, e)) := ⟨finish_inv .success hbase htr hnf, harr⟩
  have hnext : k + 1 < chunkCount x.1 →
      BsStepInv x (BsWorld.goto (chunkAcknowledged x.1, e) (.sendChunk (k + 1))) := by
    intro hlt2
    refine goto_inv _ hbase hb hd he (by simp) ⟨hc, ?_, ?_⟩ harr
    · show (chunkAcknowledged x.1).state = _
      rw [hst, if_neg (by omega)]
    · show k + 1 = (x.1.chunkIdx + 1).toNat
      omega
  unfold afterChunk
  simp only [hcc]
  split
  · exact hdone
  · split
    · rename_i hlt2; exact hnext hlt2
    · exact hdone
  · rename_i h13 h12
    have hc15 : x.1.cmd = 0x15 := by
      rcases hc with hc | hc | hc
      · exact absurd (by show x.1.cmd.toNat = _; rw [hc]; rfl) h12
      · exact absurd (by show x.1.cmd.toNat = _; rw [hc]; rfl) h13
      · exact hc
    split
    · rename_i hlt2; exact hnext hlt2
    · rename_i hge
      refine goto_inv _ hbase hb hd he (by simp) ⟨.inr hc15, ?_⟩ harr
      show (chunkAcknowledged x.1).state = _
      rw [hst, if_pos (by omega)]

theorem afterProgramBlock_inv (p : Params) (img : Memory) (x : BsWorld) (e : Env) (hi : x.1.Inv)
    (hb : x.1.flags.busy = true) (hp : x.1.point = .wait .programBlock) :
    BsStepInv x (afterProgramBlock p img (x.1, e)) := by
  obtain ⟨hd, he⟩ := busy_flags hi hb
  have hok := (hi.busy hb).2
  unfold BsUnit.pointOk at hok
  rw [hp] at hok
  obtain ⟨hc, hs⟩ := hok
  have h := hi.base
  have hw := h.written (.inl hs)
  have hse := h.session (by rw [hs]; rfl)
  have harr : SessionState.arrow x.1.state .blockProgrammed := .inr (.inr (.inr (.inr (.inr (.inl ⟨hs, rfl⟩)))))
  have hbase : (programAcknowledged x.1).Base :=
    ⟨h.ctrlBits, h.sCtrlBits, h.region, fun _ => hse, fun h => (nomatch h), fun _ => hw⟩
  rcases hc with hc | hc
  · rw [afterProgramBlock_blkProgram p img (x.1, e) hc]
    exact ⟨finish_inv .success hbase rfl (fun h => (nomatch h)), .inr harr⟩
  · rw [afterProgramBlock_devLoad p img (x.1, e) hc]
    unfold loadBlockDone
    simp only
    split
    · exact goto_inv _ ⟨h.ctrlBits, h.sCtrlBits, h.region, fun _ => hse, fun h => (nomatch h), fun _ => hw⟩ hb hd he
        (by simp) ⟨.inr hc, .inr rfl⟩ (.inr harr)
    · exact goto_inv _ ⟨h.ctrlBits, h.sCtrlBits, h.region, fun _ => hse, fun h => (nomatch h), fun _ => hw⟩ hb hd he
        (by simp) ⟨hc, .inr rfl⟩ (.inr harr)

theorem loadRegion_inv (p : Params) (img : Memory) (r : Nat) (x : BsWorld) (hi : x.1.Inv) (hb : x.1.flags.busy = true)
    (hp : x.1.point = .loadRegion r) : BsStepInv x (loadRegion p img r x) := by
  obtain ⟨hd, he⟩ := busy_flags hi hb
  have hok := (hi.busy hb).2
  unfold BsUnit.pointOk at hok
  rw [hp] at hok
  obtain ⟨hc, hs⟩ := hok
  have h := hi.base
  unfold loadRegion
  split
  · rename_i hr
    have hbase : BsUnit.Base { x.1 with region := BitVec.ofNat 8 r, blockIdx := 0 } :=
      ⟨h.ctrlBits, h.sCtrlBits, by simp only [BitVec.toNat_ofNat]; omega, h.session, h.started, h.written⟩
    simp only
    split
    · exact goto_inv _ hbase hb hd he (by simp) ⟨hc, hs⟩ (.inl rfl)
    · exact goto_inv _ hbase hb hd he (by simp) ⟨.inr hc, hs⟩ (.inl rfl)
  · refine ⟨finish_inv .success ⟨h.ctrlBits, h.sCtrlBits, (by show (4 : Byte).toNat ≤ 4; decide), ?_, ?_, ?_⟩ rfl ?_,
      .inr (.inr (.inr (.inr (.inr (.inr (.inr (.inl ⟨hs, rfl⟩)))))))⟩
    · intro h; cases h
    · intro h; cases h
    · intro h; rcases h with h | h <;> cases h
    · intro h; cases h

theorem checkResponse_inv (p : Params) (img : Memory) (a : Await) (x : BsWorld) (hi : x.1.Inv)
    (ha : ∀ ev e, BsStepInv x (afterAck p img a ev (x.1, e))) : BsStepInv x (checkResponse p img a x) := by
  have hdl : ∀ e, BsStepInv x (deadlineTest (x.1, e)) := by
    intro e
    unfold deadlineTest
    simp only
    split
    · exact raise_inv _ (by decide) hi.base
    · exact ⟨hi, .inl rfl⟩
  unfold checkResponse
  simp only
  split
  · split
    · split
      · exact ha _ _
      · exact raise_inv _ (by decide) hi.base
      · exact hdl _
    · exact hdl _
  · exact hdl _

/-- Everything the session state and the invariant can do in a step. -/
theorem bsStep_inv (p : Params) (fwb img : Memory) (x : BsWorld) (hi : x.1.Inv) (hb : x.1.flags.busy = true) :
    BsStepInv x (bsStep p fwb img x) := by
  obtain ⟨hd, he⟩ := busy_flags hi hb
  have hok := (hi.busy hb).2
  have hne := (hi.busy hb).1
  have h := hi.base
  unfold bsStep
  split
  · rename_i hp; exact absurd hp hne
  · rename_i hp; exact bsChecks_inv p x hi hb hp
  · rename_i hp; exact devInitRead_inv p x hi hb hp
  · rename_i hp
    unfold BsUnit.pointOk at hok
    rw [hp] at hok
    obtain ⟨hc, hs, hz⟩ := hok
    refine sendReq_inv p _ _ _ h fun e => ?_
    exact enterWait_inv _ ⟨h.ctrlBits, h.sCtrlBits, h.region, fun h => (nomatch h), fun h => (nomatch h),
      fun h => (by rcases h with h | h <;> cases h)⟩ hb hd he (fun _ => ⟨hc, rfl, hz⟩)
      (.inr (.inr (.inl ⟨hs, rfl⟩)))
  · rename_i n m hp
    unfold BsUnit.pointOk at hok
    rw [hp] at hok
    exact sendReq_inv p _ _ _ h fun e => enterWait_inv _ h hb hd he (fun _ => hok) (.inl rfl)
  · rename_i k hp
    unfold BsUnit.pointOk at hok
    rw [hp] at hok
    unfold writeChunkSend
    split
    · exact raise_inv _ (by decide) h
    · refine sendReq_inv p _ _ _ ⟨h.ctrlBits, h.sCtrlBits, h.region, h.session, h.started, h.written⟩ fun e => ?_
      exact enterWait_inv _ ⟨h.ctrlBits, h.sCtrlBits, h.region, h.session, h.started, h.written⟩ hb hd he
        (fun _ => hok) (.inl rfl)
  · rename_i n hp
    unfold BsUnit.pointOk at hok
    rw [hp] at hok
    exact sendReq_inv p _ _ _ h fun e => enterWait_inv _ h hb hd he (fun _ => hok) (.inl rfl)
  · rename_i a hp
    refine checkResponse_inv p img a x hi fun ev e => ?_
    cases a with
    | enterBoot => exact afterEnterBoot_inv ev x e hi hb hp
    | startBlock n => exact afterStartBlock_inv n x e hi hb hp
    | blockData k => exact afterChunk_inv k x e hi hb hp
    | programBlock => exact afterProgramBlock_inv p img x e hi hb hp
  · rename_i r hp; exact loadRegion_inv p img r x hi hb hp

/-! ## Runs -/

/-- A run of `a + b` steps is a run of `a`, then a run of `b`. -/
theorem bsRun_add (p : Params) (fwb img : Memory) (a b : Nat) (x : BsWorld) :
    bsRun p fwb img (a + b) x = bsRun p fwb img b (bsRun p fwb img a x) := by
  induction a generalizing x with
  | zero => simp [bsRun]
  | succ a ih =>
    rw [show a + 1 + b = (a + b) + 1 by omega]
    simp only [bsRun]
    split
    · exact ih _
    · rename_i h
      cases b with
      | zero => rfl
      | succ b => simp [bsRun, h]

/-- Idle BS does nothing (R276). -/
theorem bsRun_idle (p : Params) (fwb img : Memory) (n : Nat) (x : BsWorld) (h : x.1.flags.busy = false) :
    bsRun p fwb img n x = x := by
  cases n <;> simp [bsRun, h]

/-- One step of busy BS, then the rest. -/
theorem bsRun_succ (p : Params) (fwb img : Memory) (n : Nat) (x : BsWorld) (h : x.1.flags.busy = true) :
    bsRun p fwb img (n + 1) x = bsRun p fwb img n (bsStep p fwb img x) := by
  simp [bsRun, h]

/-- A run keeps the invariant. -/
theorem bsRun_inv (p : Params) (fwb img : Memory) (n : Nat) (x : BsWorld) (hi : x.1.Inv) :
    (bsRun p fwb img n x).1.Inv := by
  induction n generalizing x with
  | zero => exact hi
  | succ n ih =>
    unfold bsRun
    split
    · rename_i hb; exact ih _ (bsStep_inv p fwb img x hi hb).1
    · exact hi

end Sys2Proof.Machine
end

