-- ==== Sys2Proof/Laws/BootRun.lean ====
section
/-!
SUPPORT. Runs of BS: messages and raises, `DEV_INIT`'s register read, one exchange of a request and its answer, and the
frame of a whole run.
-/

namespace Sys2Proof.Machine

/-! ## Messages and raises -/

/-- `status(q, m)` as one change of the environment. -/
theorem status_eq (b : BsUnit) (e : Env) (q : Byte) (m : MsgId) :
    BsWorld.status (b, e) q m = (b, e.withMessages b.sCtrl [(q, m)]) := by
  have h : b.sCtrl.getLsbD 3 = statusEn b.sCtrl := rfl
  simp only [BsWorld.status, Env.withMessages, messagesAfter, Env.statusEmit, h]
  cases statusEn b.sCtrl <;> rfl

theorem withMessages_twice (e : Env) (c : Byte) (l m : List (Byte × MsgId)) :
    (e.withMessages c l).withMessages c m = e.withMessages c (l ++ m) := by
  simp only [Env.withMessages, messagesAfter]
  split <;> simp

theorem withMessages_nil (e : Env) (c : Byte) : e.withMessages c [] = e := by
  simp only [Env.withMessages, messagesAfter]
  split <;> simp

/-- `raise E` of a command whose `OVR` is clear. -/
theorem raise_eq (e : ErrCode) (he : e ≠ .success) (b : BsUnit) (v : Env) (hf : b.flags.ovr = false) :
    BsWorld.raise e (b, v) = (b.raised e, v.withMessages b.sCtrl [(milestone, .failed)]) := by
  have h : b.flags.complete (decide (e ≠ .success)) = { busy := false, done := true, err := true, ovr := false } := by
    simp [Flags.complete, hf, he]
  simp only [BsWorld.raise, status_eq, BsUnit.finish, h, BsUnit.raised, BsUnit.refused]

/-! ## DEV_INIT's register read -/

theorem devInitRead_ok (p : Params) (b : BsUnit) {e : Env} {alg : Byte} {code : Half}
    {regs : List (PortStatus × Byte × Half)} (h : e.registers = (.ok, alg, code) :: regs) :
    devInitRead p (b, e) =
      devInitCompare p
        ({ b with remoteAlg := alg, remoteDevcode := code, state := .registersRead },
          Env.withMessages { e with registers := regs } b.sCtrl [(milestone, .initStart), (milestone, .regsRead)]) := by
  have h' : (e.withMessages b.sCtrl [(milestone, .initStart)]).registers = (.ok, alg, code) :: regs := h
  simp only [devInitRead, status_eq, stdregRead_cons h', if_true]
  congr 2
  simp only [Env.withMessages, messagesAfter]
  split <;> simp

theorem devInitRead_failed (p : Params) (b : BsUnit) {e : Env} {st : PortStatus} {alg : Byte} {code : Half}
    {regs : List (PortStatus × Byte × Half)} (hst : st ≠ .ok) (h : e.registers = (st, alg, code) :: regs) :
    devInitRead p (b, e) =
      BsWorld.raise .comm (b, Env.withMessages { e with registers := regs } b.sCtrl [(milestone, .initStart)]) := by
  have h' : (e.withMessages b.sCtrl [(milestone, .initStart)]).registers = (st, alg, code) :: regs := h
  simp only [devInitRead, status_eq, stdregRead_cons h', if_neg hst]
  rfl

theorem devInitCompare_algorithm (p : Params) (b : BsUnit) (e : Env) (h : b.remoteAlg ≠ p.expectedBootAlgorithm) :
    devInitCompare p (b, e) = BsWorld.raise .notSupported (b, e) := by
  simp [devInitCompare, h]

theorem devInitCompare_mismatch (p : Params) (b : BsUnit) (e : Env) (h : b.remoteAlg = p.expectedBootAlgorithm)
    (hc : b.remoteDevcode ≠ b.sDevcode) (ha : abortMismatch b.sCtrl = true) :
    devInitCompare p (b, e) = BsWorld.raise .parameter (b, e) := by
  simp [devInitCompare, h, hc, ha]

theorem devInitCompare_soft (p : Params) (b : BsUnit) (e : Env) (h : b.remoteAlg = p.expectedBootAlgorithm)
    (hc : b.remoteDevcode ≠ b.sDevcode) (ha : abortMismatch b.sCtrl = false) :
    devInitCompare p (b, e) =
      ({ b with warn := true, point := .sendEnterBoot },
        e.withMessages b.sCtrl [(milestone, .devcodeMismatch)]) := by
  simp [devInitCompare, h, hc, ha, status_eq, BsWorld.goto]

theorem devInitCompare_match (p : Params) (b : BsUnit) (e : Env) (h : b.remoteAlg = p.expectedBootAlgorithm)
    (hc : b.remoteDevcode = b.sDevcode) :
    devInitCompare p (b, e) = ({ b with point := .sendEnterBoot }, e) := by
  simp [devInitCompare, h, hc, BsWorld.goto]

/-! ## One exchange -/

/-- The environment after the send and the timer read that open an exchange. -/
def Env.afterSend (e : Env) (req : Event) (sends : List PortStatus) : Env :=
  { e.now.2 with sendStatus := sends, sent := e.sent ++ [req] }

/-- A send that succeeds, seen from the timer. -/
theorem now_afterSend {e : Env} (req : Event) (sends : List PortStatus) :
    Env.now { e with sendStatus := sends, sent := e.sent ++ [req] } = (e.now.1, e.afterSend req sends) := by
  unfold Env.afterSend Env.now
  cases e.ticks <;> rfl

theorem now_counts (e : Env) : e.now.2.counts = e.counts ∧ e.now.2.receives = e.receives := by
  unfold Env.now
  cases e.ticks <;> exact ⟨rfl, rfl⟩

/-- A request whose send succeeds leads to its wait. -/
theorem sendReq_ok (p : Params) (typ : Half) (payload : List Byte) (a : Await) (b : BsUnit) {e : Env}
    {sends : List PortStatus} (h : e.sendStatus = .ok :: sends) :
    BsWorld.sendReq p typ payload (b, e) (BsWorld.enterWait a) =
      ({ b with deadlineT0 := e.now.1, point := .wait a }, e.afterSend (requestEvent p b typ payload) sends) := by
  simp [BsWorld.sendReq, tpSend_cons h, BsWorld.enterWait, now_afterSend]

/-- A request whose send fails is `raise ERR_COMM`. -/
theorem sendReq_failed (p : Params) (typ : Half) (payload : List Byte) (next : BsWorld → BsWorld) (b : BsUnit) {e : Env}
    {sends : List PortStatus} (h : e.sendStatus = .failed :: sends) :
    BsWorld.sendReq p typ payload (b, e) next =
      BsWorld.raise .comm (b, { e with sendStatus := sends, sent := e.sent ++ [requestEvent p b typ payload] }) := by
  simp [BsWorld.sendReq, tpSend_cons h]

/-- An iteration of the wait that receives an event. -/
theorem checkResponse_event (p : Params) (img : Memory) (a : Await) (b : BsUnit) {e : Env} {c : Word} {ev : Event}
    {counts : List (PortStatus × Word)} {receives : List (PortStatus × Event)} (hc : c ≠ 0)
    (h1 : e.counts = (.ok, c) :: counts) (h2 : e.receives = (.ok, ev) :: receives) :
    checkResponse p img a (b, e) =
      match classify p a b.sGuid ev with
      | .ack => afterAck p img a ev (b, { e with counts := counts, receives := receives })
      | .nack => BsWorld.raise .nack (b, { e with counts := counts, receives := receives })
      | .dropped => deadlineTest (b, { e with counts := counts, receives := receives }) := by
  have h2' : Env.receives { e with counts := counts } = (.ok, ev) :: receives := h2
  have hc' : ¬c = 0#32 := hc
  simp [checkResponse, tpCount_cons h1, tpReceive_cons h2', hc'] <;> rfl

theorem classify_ack {p : Params} {a : Await} {g : Guid} {ev : Event} (h1 : ev.cls = p.classProtocol) (h2 : ev.guid = g)
    (h3 : ev.typ = ackType p a) : classify p a g ev = .ack := by
  simp [classify, h1, h2, h3]

theorem classify_nack {p : Params} {a : Await} {g : Guid} {ev : Event} (h1 : ev.cls = p.classProtocol) (h2 : ev.guid = g)
    (h3 : ev.typ = nackType p a) (h4 : nackType p a ≠ ackType p a) : classify p a g ev = .nack := by
  simp [classify, h1, h2, h3, h4]

theorem afterSend_exchange (e : Env) (req : Event) (sends : List PortStatus) (counts : List (PortStatus × Word))
    (receives : List (PortStatus × Event)) :
    { e.afterSend req sends with counts := counts, receives := receives } = e.afterExchange req sends counts receives :=
  rfl

/-- The wait of an exchange meets its answer. -/
theorem checkResponse_answer (p : Params) (img : Memory) (a : Await) (b : BsUnit) {e : Env} {guid : Guid} {typ : Half}
    {ev req : Event} {sends : List PortStatus} {counts : List (PortStatus × Word)}
    {receives : List (PortStatus × Event)} (h : e.oneAnswer p guid typ ev sends counts receives) :
    checkResponse p img a (b, e.afterSend req sends) =
      match classify p a b.sGuid ev with
      | .ack => afterAck p img a ev (b, e.afterExchange req sends counts receives)
      | .nack => BsWorld.raise .nack (b, e.afterExchange req sends counts receives)
      | .dropped => deadlineTest (b, e.afterExchange req sends counts receives) := by
  obtain ⟨-, ⟨c, hc, h1⟩, h2, -⟩ := h
  exact checkResponse_event p img a b hc ((now_counts e).1.trans h1) ((now_counts e).2.trans h2)

/-! ## The frame of a run -/

/-- A command in progress is `c`, at a place of its pseudocode. -/
def OnCommand (c : Byte) (x : BsWorld) : Prop := x.1.flags.busy = true → x.1.cmd = c ∧ x.1.cmdPoint

theorem onCommand_finish (c : Byte) (e : ErrCode) (b : BsUnit) (v : Env) : OnCommand c (b.finish e, v) := by
  intro h; cases h

theorem onCommand_raise (c : Byte) (e : ErrCode) (x : BsWorld) : OnCommand c (BsWorld.raise e x) := by
  intro h; cases h

theorem onCommand_deadlineTest {c : Byte} {x : BsWorld} (h : OnCommand c x) : OnCommand c (deadlineTest x) := by
  unfold deadlineTest
  simp only
  split
  · exact onCommand_raise _ _ _
  · exact h

theorem onCommand_sendReq (c : Byte) (p : Params) (typ : Half) (payload : List Byte) (x : BsWorld) (next : BsWorld → BsWorld)
    (hn : ∀ e, OnCommand c (next (x.1, e))) : OnCommand c (BsWorld.sendReq p typ payload x next) := by
  unfold BsWorld.sendReq
  simp only
  split
  · exact hn _
  · exact onCommand_raise _ _ _

theorem onCommand_checkResponse {c : Byte} (p : Params) (img : Memory) (a : Await) (x : BsWorld) (h : OnCommand c x)
    (ha : ∀ ev e, OnCommand c (afterAck p img a ev (x.1, e))) : OnCommand c (checkResponse p img a x) := by
  unfold checkResponse
  simp only
  split
  · split
    · split
      · exact ha _ _
      · exact onCommand_raise _ _ _
      · exact onCommand_deadlineTest h
    · exact onCommand_deadlineTest h
  · exact onCommand_deadlineTest h

theorem onCommand_loadNextBlock (p : Params) (img : Memory) (x : BsWorld) (h : x.1.cmd = 0x15) :
    OnCommand 0x15 (loadNextBlock p img x) := fun _ => ⟨h, .inr h⟩

theorem onCommand_bsChecks (p : Params) (x : BsWorld) : OnCommand x.1.cmd (bsChecks p x) := by
  unfold bsChecks
  split <;> rename_i hcmd
  · have hcmd : x.1.cmd = 0x11 := BitVec.eq_of_toNat_eq hcmd
    unfold blkStartChecks; split
    · exact fun _ => ⟨rfl, .inl hcmd⟩
    · exact onCommand_finish _ _ _ _
  · have hcmd : x.1.cmd = 0x12 := BitVec.eq_of_toNat_eq hcmd
    unfold blkWriteChecks; split
    · exact onCommand_finish _ _ _ _
    · split
      · split
        · exact fun _ => ⟨rfl, .inl hcmd⟩
        · exact onCommand_finish _ _ _ _
      · exact onCommand_finish _ _ _ _
  · have hcmd : x.1.cmd = 0x13 := BitVec.eq_of_toNat_eq hcmd
    unfold chunkWriteChecks; split
    · exact onCommand_finish _ _ _ _
    · split
      · exact onCommand_finish _ _ _ _
      · split
        · exact fun _ => ⟨rfl, .inr (.inl hcmd)⟩
        · exact onCommand_finish _ _ _ _
  · have hcmd : x.1.cmd = 0x14 := BitVec.eq_of_toNat_eq hcmd
    unfold blkProgramChecks; split
    · exact fun _ => ⟨rfl, .inl hcmd⟩
    · exact onCommand_finish _ _ _ _
  · have hcmd : x.1.cmd = 0x15 := BitVec.eq_of_toNat_eq hcmd
    unfold devLoadChecks; split
    · exact fun _ => ⟨rfl, hcmd⟩
    · exact onCommand_finish _ _ _ _
  · exact onCommand_finish _ _ _ _

theorem onCommand_devInitRead (p : Params) (x : BsWorld) (h : x.1.cmd = 0x10) : OnCommand 0x10 (devInitRead p x) := by
  unfold devInitRead
  simp only
  split
  · unfold devInitCompare
    split
    · exact onCommand_raise _ _ _
    · split
      · split
        · exact onCommand_raise _ _ _
        · exact fun _ => ⟨h, h⟩
      · exact fun _ => ⟨h, h⟩
  · exact onCommand_raise _ _ _

theorem onCommand_afterEnterBoot (ev : Event) (x : BsWorld) : OnCommand 0x10 (afterEnterBoot ev x) := by
  unfold afterEnterBoot
  split
  · exact onCommand_raise _ _ _
  · simp only
    split
    · exact onCommand_raise _ _ _
    · exact onCommand_finish _ _ _ _

theorem onCommand_afterStartBlock {c : Byte} (hc : c = 0x11 ∨ c = 0x15) (n : Word) (x : BsWorld) (h : x.1.cmd = c) :
    OnCommand c (afterStartBlock n x) := by
  rcases hc with rfl | rfl
  · rw [afterStartBlock_blkStart _ _ h]
    exact onCommand_finish _ _ _ _
  · rw [afterStartBlock_devLoad _ _ h]
    split
    · exact fun _ => ⟨h, .inr (.inr h)⟩
    · exact fun _ => ⟨h, .inr h⟩

theorem onCommand_afterChunk {c : Byte} (hc : c = 0x12 ∨ c = 0x13 ∨ c = 0x15) (k : Nat) (x : BsWorld) (h : x.1.cmd = c) :
    OnCommand c (afterChunk k x) := by
  rcases hc with rfl | rfl | rfl
  · rw [afterChunk_blkWrite _ _ h]
    split
    · exact fun _ => ⟨h, .inl h⟩
    · exact onCommand_finish _ _ _ _
  · rw [afterChunk_chunkWrite _ _ h]
    exact onCommand_finish _ _ _ _
  · rw [afterChunk_devLoad _ _ h]
    split
    · exact fun _ => ⟨h, .inr (.inr h)⟩
    · exact fun _ => ⟨h, .inr h⟩

theorem onCommand_loadBlockDone (p : Params) (img : Memory) (x : BsWorld) (h : x.1.cmd = 0x15) :
    OnCommand 0x15 (loadBlockDone p img x) := by
  unfold loadBlockDone
  simp only
  split
  · exact onCommand_loadNextBlock _ _ _ h
  · exact fun _ => ⟨h, h⟩

theorem onCommand_afterProgramBlock {c : Byte} (hc : c = 0x14 ∨ c = 0x15) (p : Params) (img : Memory) (x : BsWorld)
    (h : x.1.cmd = c) : OnCommand c (afterProgramBlock p img x) := by
  rcases hc with rfl | rfl
  · rw [afterProgramBlock_blkProgram _ _ _ h]
    exact onCommand_finish _ _ _ _
  · rw [afterProgramBlock_devLoad _ _ _ h]
    exact onCommand_loadBlockDone _ _ _ h

theorem onCommand_loadRegion (p : Params) (img : Memory) (r : Nat) (x : BsWorld) (h : x.1.cmd = 0x15) :
    OnCommand 0x15 (loadRegion p img r x) := by
  unfold loadRegion
  split
  · simp only
    split
    · exact fun _ => ⟨h, h⟩
    · exact onCommand_loadNextBlock _ _ _ h
  · exact onCommand_finish _ _ _ _

/-- A step leaves the command in progress at a place of its pseudocode, or ends it. -/
theorem bsStep_onCommand (p : Params) (fwb img : Memory) (x : BsWorld) (h : x.1.cmdPoint) :
    OnCommand x.1.cmd (bsStep p fwb img x) := by
  have hx : OnCommand x.1.cmd x := fun _ => ⟨rfl, h⟩
  unfold BsUnit.cmdPoint at h
  unfold bsStep
  split at h <;> rename_i hp <;> simp only [hp]
  · exact hx
  · exact onCommand_bsChecks p x
  · rw [h]; exact onCommand_devInitRead p x h
  · rw [h]; exact onCommand_sendReq _ _ _ _ _ _ fun e _ => ⟨h, h⟩
  · refine onCommand_checkResponse _ _ _ _ hx fun ev e => ?_
    rw [h]; exact onCommand_afterEnterBoot ev _
  · exact onCommand_sendReq _ _ _ _ _ _ fun e _ => ⟨rfl, h⟩
  · exact onCommand_checkResponse _ _ _ _ hx fun ev e => onCommand_afterStartBlock h _ _ rfl
  · unfold writeChunkSend
    split
    · exact onCommand_raise _ _ _
    · exact onCommand_sendReq _ _ _ _ _ _ fun e _ => ⟨rfl, h⟩
  · exact onCommand_checkResponse _ _ _ _ hx fun ev e => onCommand_afterChunk h _ _ rfl
  · exact onCommand_sendReq _ _ _ _ _ _ fun e _ => ⟨rfl, h⟩
  · exact onCommand_checkResponse _ _ _ _ hx fun ev e => onCommand_afterProgramBlock h _ _ _ rfl
  · rw [h]; exact onCommand_loadRegion _ _ _ _ h

/-- What a run of BS can change. -/
theorem bsRun_frame (p : Params) (fwb img : Memory) (n : Nat) {c : Byte} (x : BsWorld) (h : OnCommand c x) :
    BsFrame c x (bsRun p fwb img n x) ∧ OnCommand c (bsRun p fwb img n x) := by
  induction n generalizing x with
  | zero => exact ⟨.refl _ _, h⟩
  | succ n ih =>
    by_cases hb : x.1.flags.busy = true
    · obtain ⟨rfl, hp⟩ := h hb
      rw [bsRun_succ _ _ _ _ _ hb]
      obtain ⟨h1, h2⟩ := ih _ (bsStep_onCommand p fwb img x hp)
      exact ⟨(bsStep_frame p fwb img x hp).trans h1, h2⟩
    · rw [bsRun_idle _ _ _ _ _ (by simpa using hb)]
      exact ⟨.refl _ _, h⟩

end Sys2Proof.Machine
end

