-- ==== Sys2Proof/Laws/BootBlock.lean ====
section
/-!
SUPPORT. The loop over a block's chunks, which `BLK_WRITE` and `DEV_LOAD` share: with a node that acknowledges every
request it sends the chunks in order and ends with the whole block in the checksum (`chunkLoop`).
-/

namespace Sys2Proof.Machine

/-! ## Exchanges in a row -/

/-- The environment after exchanges that sent `evs`. -/
def Env.exchanged (e : Env) (timer : Word) (ticks : List Word) (draws : Nat) (sends : List PortStatus)
    (counts : List (PortStatus × Word)) (receives : List (PortStatus × Event)) (evs : List Event) : Env :=
  { e with timer := timer, ticks := ticks, draws := draws, sendStatus := sends, counts := counts,
           receives := receives, sent := e.sent ++ evs }

theorem exchanged_exchanged (e : Env) (t1 t2 : Word) (k1 k2 : List Word) (d1 d2 : Nat) (s1 s2 : List PortStatus)
    (c1 c2 : List (PortStatus × Word)) (r1 r2 : List (PortStatus × Event)) (v1 v2 : List Event) :
    (e.exchanged t1 k1 d1 s1 c1 r1 v1).exchanged t2 k2 d2 s2 c2 r2 v2 = e.exchanged t2 k2 d2 s2 c2 r2 (v1 ++ v2) := by
  simp [Env.exchanged]

theorem afterExchange_eq (e : Env) (req : Event) (sends : List PortStatus) (counts : List (PortStatus × Word))
    (receives : List (PortStatus × Event)) :
    ∃ t k d, e.afterExchange req sends counts receives = e.exchanged t k d sends counts receives [req] := by
  unfold Env.afterExchange Env.now
  cases e.ticks
  · exact ⟨_, _, _, rfl⟩
  · exact ⟨_, _, _, rfl⟩

/-- A node that agrees with a list of requests answers the first and then agrees with the rest. -/
theorem agrees_cons {e : Env} {p : Params} {b : BsUnit} {q : Event × Half} {reqs : List (Event × Half)}
    {sends : List PortStatus} {counts : List (PortStatus × Word)} {receives : List (PortStatus × Event)}
    (h : e.agrees p b (q :: reqs) sends counts receives) :
    ∃ ev cs rs, e.oneAnswer p b.sGuid q.2 ev (List.replicate reqs.length .ok ++ sends) cs rs ∧
      ∀ f : Env, f.sendStatus = List.replicate reqs.length .ok ++ sends → f.counts = cs → f.receives = rs →
        f.agrees p b reqs sends counts receives := by
  obtain ⟨h1, ⟨cs, h2, h3, h4⟩, evs, h5, h6⟩ := h
  cases cs with
  | nil => simp at h2
  | cons c cs =>
    cases evs with
    | nil => simp at h5
    | cons r evs =>
      simp only [List.map_cons, List.cons.injEq, Prod.mk.injEq] at h5
      obtain ⟨⟨g1, g2, g3, g4⟩, g5⟩ := h5
      obtain ⟨c1, c2⟩ := c
      obtain ⟨r1, r2⟩ := r
      have hc := h3 (c1, c2) (by simp)
      simp only at g1 g2 g3 g4 hc
      obtain ⟨rfl, hc2⟩ := hc
      subst g1
      refine ⟨r2, cs ++ counts, evs ++ receives, ⟨h1, ⟨c2, hc2, h4⟩, h6, g2, g3, g4⟩, fun f e1 e2 e3 => ?_⟩
      exact ⟨e1, ⟨cs, by simpa using h2, fun c hc => h3 c (by simp [hc]), e2⟩, evs, g5, e3⟩

theorem agrees_sGuid {e : Env} {p : Params} {b c : BsUnit} {reqs : List (Event × Half)}
    {sends : List PortStatus} {counts : List (PortStatus × Word)} {receives : List (PortStatus × Event)}
    (hg : c.sGuid = b.sGuid) (h : e.agrees p b reqs sends counts receives) : e.agrees p c reqs sends counts receives := by
  unfold Env.agrees
  rw [hg]
  exact h

theorem agrees_append {e : Env} {p : Params} {b : BsUnit} {r1 r2 : List (Event × Half)}
    {sends : List PortStatus} {counts : List (PortStatus × Word)} {receives : List (PortStatus × Event)}
    (h : e.agrees p b (r1 ++ r2) sends counts receives) :
    ∃ cs rs, e.agrees p b r1 (List.replicate r2.length .ok ++ sends) cs rs ∧
      ∀ f : Env, f.sendStatus = List.replicate r2.length .ok ++ sends → f.counts = cs → f.receives = rs →
        f.agrees p b r2 sends counts receives := by
  induction r1 generalizing e with
  | nil =>
    refine ⟨e.counts, e.receives, ⟨by simpa [Env.agrees] using h.1, ⟨[], by simp⟩, [], by simp⟩, fun f e1 e2 e3 => ?_⟩
    have : (f.sendStatus = e.sendStatus) := by rw [e1]; exact h.1.symm
    exact ⟨e1, by rw [e2]; exact h.2.1, by rw [e3]; exact h.2.2⟩
  | cons q r1 ih =>
    rw [List.cons_append] at h
    obtain ⟨ev, cs, rs, ⟨a1, ⟨c, hc, a2⟩, a3, a4, a5, a6⟩, hf⟩ := agrees_cons h
    obtain ⟨cs', rs', h1, h2⟩ := ih (hf { e with sendStatus := List.replicate (r1 ++ r2).length .ok ++ sends, counts := cs, receives := rs } rfl rfl rfl)
    obtain ⟨b1, ⟨cs2, b2, b3, b4⟩, evs, b5, b6⟩ := h1
    simp only at b1 b4 b6
    refine ⟨cs', rs', ⟨?_, ⟨(.ok, c) :: cs2, by simp [b2], ?_, ?_⟩, (.ok, ev) :: evs, ?_, ?_⟩, h2⟩
    · rw [a1, b1]; simp [List.replicate_succ]
    · intro x hx
      rcases List.mem_cons.mp hx with rfl | hx
      · exact ⟨rfl, hc⟩
      · exact b3 x hx
    · rw [a2, b4]; rfl
    · simp only [List.map_cons, b5, a4, a5, a6]
    · rw [a3, b6]; rfl

/-! ## The data of a block -/

/-- A slice of a block whose bytes are given by a function. -/
theorem chunkSlice_map (f : Nat → Byte) (n c k : Nat) :
    chunkSlice ((List.range n).map f) c k =
      (List.range (min (k * c + c) n - k * c)).map fun j => f (k * c + j) := by
  unfold chunkSlice
  apply List.ext_getElem
  · simp only [List.length_take, List.length_drop, List.length_map, List.length_range]; omega
  · intro i h1 h2
    simp

theorem crc16Bytes_append (c : Half) (l m : List Byte) : crc16Bytes c (l ++ m) = crc16Bytes (crc16Bytes c l) m := by
  simp [crc16Bytes]

/-- The rest of a block from chunk `k` on is chunk `k` and the rest after it. -/
theorem drop_chunk (data : List Byte) (c k : Nat) :
    data.drop (k * c) = chunkSlice data c k ++ data.drop ((k + 1) * c) := by
  unfold chunkSlice
  rw [show (k + 1) * c = k * c + c from by rw [Nat.succ_mul], ← List.drop_drop, List.take_append_drop]

/-! ## One chunk -/

theorem chunkSlice_length (data : List Byte) (c k : Nat) : (chunkSlice data c k).length ≤ c := by
  simp only [chunkSlice, List.length_take]; omega

/-- A chunk's send and the wait that meets its ACK. -/
theorem chunk_exchange (p : Params) (fwb img : Memory) (n k : Nat) (b : BsUnit) (e : Env) (data : List Byte) {ev : Event}
    {sends : List PortStatus} {counts : List (PortStatus × Word)} {receives : List (PortStatus × Event)}
    (hb : b.flags.busy = true) (hp : b.point = .sendChunk k) (hd : chunkData p fwb img b k = data)
    (hl : data.length ≤ b.chunkSize.toNat) (h : e.oneAnswer p b.sGuid p.typeBlockDataAck ev sends counts receives) :
    bsRun p fwb img (n + 2) (b, e) = bsRun p fwb img n
      (afterChunk k
        ({ b with checksum := crc16Bytes b.checksum data, deadlineT0 := e.now.1, point := .wait (.blockData k) },
          e.afterExchange (requestEvent p b p.typeBlockData data) sends counts receives)) := by
  have hcl := classify_ack (p := p) (a := .blockData k) h.2.2.2.1 h.2.2.2.2.2 h.2.2.2.2.1
  have e1 : bsStep p fwb img (b, e) =
      ({ b with checksum := crc16Bytes b.checksum data, deadlineT0 := e.now.1, point := .wait (.blockData k) },
        e.afterSend (requestEvent p b p.typeBlockData data) sends) := by
    unfold bsStep
    simp only [hp, hd, writeChunkSend]
    rw [if_neg (by omega), sendReq_ok _ _ _ _ _ h.1]
    rfl
  rw [bsRun_succ _ _ _ _ _ hb, e1, bsRun_succ _ _ _ _ _ hb]
  unfold bsStep
  simp only
  rw [checkResponse_answer p img _ _ h]
  simp only [hcl, afterAck]

/-! ## The loop -/

/-- How a block's last chunk ends: `BLK_WRITE` completes, `DEV_LOAD` goes on to its program-block request. -/
def chunksDone (x : BsWorld) : BsWorld :=
  if x.1.cmd = 0x12 then x.complete else x.goto (.sendProgramBlock x.1.curBlock)

theorem chunksDone_blkWrite {x : BsWorld} (h : x.1.cmd = 0x12) : chunksDone x = x.complete := if_pos h

theorem chunksDone_devLoad {x : BsWorld} (h : x.1.cmd = 0x15) : chunksDone x = x.goto (.sendProgramBlock x.1.curBlock) :=
  if_neg (by rw [h]; decide)

/-- The requests for the chunks of a block from chunk `k` on. -/
def chunkRequestsFrom (p : Params) (b : BsUnit) (data : List Byte) (k : Nat) : List (Event × Half) :=
  (blockDataRequests p b data).drop k

theorem blockDataRequests_length (p : Params) (b : BsUnit) (data : List Byte) :
    (blockDataRequests p b data).length = ceilDiv data.length b.chunkSize.toNat := by
  simp [blockDataRequests, blockChunks]

theorem chunkRequestsFrom_cons {p : Params} {b : BsUnit} {data : List Byte} {k : Nat}
    (hk : k < ceilDiv data.length b.chunkSize.toNat) :
    chunkRequestsFrom p b data k =
      (requestEvent p b p.typeBlockData (chunkSlice data b.chunkSize.toNat k), p.typeBlockDataAck) ::
        chunkRequestsFrom p b data (k + 1) := by
  unfold chunkRequestsFrom
  rw [List.drop_eq_getElem_cons (by rw [blockDataRequests_length]; exact hk)]
  congr 1
  simp [blockDataRequests, blockChunks]

theorem afterChunk_more {k : Nat} {x : BsWorld} (hc : x.1.cmd = 0x12 ∨ x.1.cmd = 0x15) (hk : k + 1 < chunkCount x.1) :
    afterChunk k x = BsWorld.goto (chunkAcknowledged x.1, x.2) (.sendChunk (k + 1)) := by
  rcases hc with hc | hc
  · rw [afterChunk_blkWrite _ _ hc, if_pos hk]
  · rw [afterChunk_devLoad _ _ hc, if_pos hk]

theorem afterChunk_last {k : Nat} {x : BsWorld} (hc : x.1.cmd = 0x12 ∨ x.1.cmd = 0x15) (hk : ¬k + 1 < chunkCount x.1) :
    afterChunk k x = chunksDone (chunkAcknowledged x.1, x.2) := by
  have hcmd : (chunkAcknowledged x.1).cmd = x.1.cmd := rfl
  have hcur : (chunkAcknowledged x.1).curBlock = x.1.curBlock := rfl
  rcases hc with hc | hc
  · rw [afterChunk_blkWrite _ _ hc, if_neg hk, chunksDone, hcmd, if_pos hc]
  · rw [afterChunk_devLoad _ _ hc, if_neg hk, chunksDone, hcmd, if_neg (by rw [hc]; decide), hcur]

/-- `ceil_div(a, c)` pieces of size `c` reach to `a`. -/
theorem ceilDiv_mul_le (a c : Nat) (hc : 0 < c) : a ≤ ceilDiv a c * c := by
  unfold ceilDiv
  have h := Nat.div_add_mod (a + c - 1) c
  have h2 := Nat.mod_lt (a + c - 1) hc
  rw [Nat.mul_comm] at h
  omega

/-- The loop over the chunks `k`, `k + 1`, ... of a block, `m + 1` of them, with a node that acknowledges each. -/
theorem chunkLoop (p : Params) (fwb img : Memory) (m n k : Nat) (b : BsUnit) (e : Env) (data : List Byte)
    {sends : List PortStatus} {counts : List (PortStatus × Word)} {receives : List (PortStatus × Event)}
    (hb : b.flags.busy = true) (hc : b.cmd = 0x12 ∨ b.cmd = 0x15) (hs : b.state = .blockStarted)
    (hp : b.point = .sendChunk k) (hi : b.chunkIdx = BitVec.ofNat 32 k) (hk : k + m + 1 = chunkCount b)
    (hw : chunkCount b < 2 ^ 32) (hlen : data.length = b.blockSize.toNat)
    (hpos : 0 < b.chunkSize.toNat)
    (hd : ∀ c : BsUnit, c.cmd = b.cmd → c.src = b.src → c.blockSize = b.blockSize → c.chunkSize = b.chunkSize →
      c.region = b.region → c.blockIdx = b.blockIdx → ∀ j, j < chunkCount b →
        chunkData p fwb img c j = chunkSlice data b.chunkSize.toNat j)
    (ha : e.agrees p b (chunkRequestsFrom p b data k) sends counts receives) :
    ∃ t0 tm ticks draws, bsRun p fwb img (n + 2 * (m + 1)) (b, e) = bsRun p fwb img n (chunksDone
      ({ b with checksum := crc16Bytes b.checksum (data.drop (k * b.chunkSize.toNat)),
                chunkIdx := BitVec.ofNat 32 (chunkCount b), state := .blockWritten, deadlineT0 := t0,
                point := .wait (.blockData (k + m)) },
        e.exchanged tm ticks draws sends counts receives ((chunkRequestsFrom p b data k).map fun q => q.1))) := by
  induction m generalizing k b e with
  | zero =>
    have hcount : ceilDiv data.length b.chunkSize.toNat = chunkCount b := by rw [hlen]; rfl
    have hadd : b.chunkIdx + 1 = BitVec.ofNat 32 (k + 1) := by rw [hi]; exact (BitVec.ofNat_add k 1).symm
    have hnat : (b.chunkIdx + 1).toNat = k + 1 := by rw [hadd, BitVec.toNat_ofNat]; omega
    rw [chunkRequestsFrom_cons (by omega)] at ha ⊢
    obtain ⟨ev, cs, rs, hans, hrest⟩ := agrees_cons ha
    have hnil : chunkRequestsFrom p b data (k + 1) = [] := by
      unfold chunkRequestsFrom
      rw [List.drop_eq_nil_iff, blockDataRequests_length]; omega
    rw [hnil] at hans hrest ⊢
    obtain ⟨h1, ⟨ws, h2, -, h3⟩, evs, h4, h5⟩ := hrest { e with sendStatus := sends, counts := cs, receives := rs } rfl rfl rfl
    obtain rfl : ws = [] := by simpa using h2
    obtain rfl : evs = [] := by simpa using h4
    simp only [List.nil_append] at h3 h5
    subst h3 h5
    obtain ⟨t, tk, d, henv⟩ := afterExchange_eq e
      (requestEvent p b p.typeBlockData (chunkSlice data b.chunkSize.toNat k)) sends cs rs
    refine ⟨e.now.1, t, tk, d, ?_⟩
    rw [show n + 2 * (0 + 1) = n + 2 from rfl,
      chunk_exchange p fwb img n k b e _ hb hp (hd b rfl rfl rfl rfl rfl rfl k (by omega)) (chunkSlice_length _ _ _) hans]
    rw [afterChunk_last (by exact hc) (by show ¬ k + 1 < chunkCount b; omega)]
    have hend : data.drop (k * b.chunkSize.toNat) = chunkSlice data b.chunkSize.toNat k := by
      rw [drop_chunk, List.drop_eq_nil_of_le, List.append_nil]
      have := ceilDiv_mul_le data.length _ hpos
      rw [hcount, ← hk] at this
      exact this
    rw [hend]
    congr 2
    refine Prod.ext ?_ henv
    simp only [chunkAcknowledged]
    rw [show chunkCount { b with checksum := crc16Bytes b.checksum (chunkSlice data b.chunkSize.toNat k), deadlineT0 := e.now.1, point := .wait (.blockData k) } = chunkCount b from rfl]
    rw [hnat, if_pos (by omega), hadd, ← hk]
    rfl
  | succ m ih =>
    have hcount : ceilDiv data.length b.chunkSize.toNat = chunkCount b := by rw [hlen]; rfl
    have hadd : b.chunkIdx + 1 = BitVec.ofNat 32 (k + 1) := by rw [hi]; exact (BitVec.ofNat_add k 1).symm
    have hnat : (b.chunkIdx + 1).toNat = k + 1 := by rw [hadd, BitVec.toNat_ofNat]; omega
    rw [chunkRequestsFrom_cons (by omega)] at ha ⊢
    obtain ⟨ev, cs, rs, hans, hrest⟩ := agrees_cons ha
    obtain ⟨t, tk, d, henv⟩ := afterExchange_eq e
      (requestEvent p b p.typeBlockData (chunkSlice data b.chunkSize.toNat k))
      (List.replicate (chunkRequestsFrom p b data (k + 1)).length .ok ++ sends) cs rs
    have hstep : bsRun p fwb img (n + 2 * (m + 1) + 2) (b, e) = bsRun p fwb img (n + 2 * (m + 1))
        ({ b with checksum := crc16Bytes b.checksum (chunkSlice data b.chunkSize.toNat k),
                  chunkIdx := BitVec.ofNat 32 (k + 1), deadlineT0 := e.now.1, point := .sendChunk (k + 1) },
          e.exchanged t tk d (List.replicate (chunkRequestsFrom p b data (k + 1)).length .ok ++ sends) cs rs
            [requestEvent p b p.typeBlockData (chunkSlice data b.chunkSize.toNat k)]) := by
      rw [chunk_exchange p fwb img _ k b e _ hb hp (hd b rfl rfl rfl rfl rfl rfl k (by omega)) (chunkSlice_length _ _ _)
        hans]
      rw [afterChunk_more (by exact hc) (by show k + 1 < chunkCount b; omega)]
      congr 1
      refine Prod.ext ?_ henv
      simp only [BsWorld.goto, chunkAcknowledged]
      rw [show chunkCount { b with checksum := crc16Bytes b.checksum (chunkSlice data b.chunkSize.toNat k), deadlineT0 := e.now.1, point := .wait (.blockData k) } = chunkCount b from rfl]
      rw [hnat, if_neg (by omega), hadd]
    obtain ⟨t0, tm, ticks, draws, hrun⟩ := ih (k + 1)
      { b with checksum := crc16Bytes b.checksum (chunkSlice data b.chunkSize.toNat k),
               chunkIdx := BitVec.ofNat 32 (k + 1), deadlineT0 := e.now.1, point := .sendChunk (k + 1) }
      (e.exchanged t tk d (List.replicate (chunkRequestsFrom p b data (k + 1)).length .ok ++ sends) cs rs
        [requestEvent p b p.typeBlockData (chunkSlice data b.chunkSize.toNat k)])
      hb hc hs rfl rfl (by show k + 1 + m + 1 = chunkCount b; omega) hw hlen hpos hd (hrest _ rfl rfl rfl)
    refine ⟨t0, tm, ticks, draws, ?_⟩
    rw [show n + 2 * (m + 1 + 1) = n + 2 * (m + 1) + 2 from rfl, hstep, hrun, exchanged_exchanged]
    have e1 : crc16Bytes b.checksum (data.drop (k * b.chunkSize.toNat)) =
        crc16Bytes (crc16Bytes b.checksum (chunkSlice data b.chunkSize.toNat k))
          (data.drop ((k + 1) * b.chunkSize.toNat)) := by
      rw [drop_chunk data b.chunkSize.toNat k, crc16Bytes_append]
    rw [e1, show k + (m + 1) = k + 1 + m from by omega]
    rfl

end Sys2Proof.Machine
end

