-- ==== Sys2Proof/Laws/BootLoad.lean ====
section
/-!
SUPPORT. What `DEV_LOAD` does with one block when the node acknowledges its requests: `loadBlock_run`.
-/

namespace Sys2Proof.Machine

/-- A start-block request and the ACK that meets its wait. -/
theorem startBlock_exchange (p : Params) (fwb img : Memory) (n : Nat) (b : BsUnit) (e : Env) (w : Word) (m : Byte)
    {ev : Event} {sends : List PortStatus} {counts : List (PortStatus × Word)} {receives : List (PortStatus × Event)}
    (hb : b.flags.busy = true) (hp : b.point = .sendStartBlock w m)
    (h : e.oneAnswer p b.sGuid p.typeStartBlockAck ev sends counts receives) :
    bsRun p fwb img (n + 2) (b, e) = bsRun p fwb img n
      (afterStartBlock w
        ({ b with deadlineT0 := e.now.1, point := .wait (.startBlock w) },
          e.afterExchange (requestEvent p b p.typeStartBlock (startBlockPayload w m)) sends counts receives)) := by
  have hcl := classify_ack (p := p) (a := .startBlock w) h.2.2.2.1 h.2.2.2.2.2 h.2.2.2.2.1
  have e1 : bsStep p fwb img (b, e) = ({ b with deadlineT0 := e.now.1, point := .wait (.startBlock w) },
      e.afterSend (requestEvent p b p.typeStartBlock (startBlockPayload w m)) sends) := by
    unfold bsStep
    simp only [hp, startBlockSend]
    rw [sendReq_ok _ _ _ _ _ h.1]
  rw [bsRun_succ _ _ _ _ _ hb, e1, bsRun_succ _ _ _ _ _ hb]
  unfold bsStep
  simp only
  rw [checkResponse_answer p img _ _ h]
  simp only [hcl, afterAck]

/-- A program-block request and the ACK that meets its wait. -/
theorem programBlock_exchange (p : Params) (fwb img : Memory) (n : Nat) (x : BsWorld) (w : Word) {ev : Event}
    {sends : List PortStatus} {counts : List (PortStatus × Word)} {receives : List (PortStatus × Event)}
    (hb : x.1.flags.busy = true) (hp : x.1.point = .sendProgramBlock w)
    (h : x.2.oneAnswer p x.1.sGuid p.typeProgramBlockAck ev sends counts receives) :
    bsRun p fwb img (n + 2) x = bsRun p fwb img n
      (afterProgramBlock p img
        ({ x.1 with deadlineT0 := x.2.now.1, point := .wait .programBlock },
          x.2.afterExchange (requestEvent p x.1 p.typeProgramBlock (programBlockPayload w)) sends counts receives)) := by
  obtain ⟨b, e⟩ := x
  simp only at hb hp h ⊢
  have hcl := classify_ack (p := p) (a := .programBlock) h.2.2.2.1 h.2.2.2.2.2 h.2.2.2.2.1
  have e1 : bsStep p fwb img (b, e) = ({ b with deadlineT0 := e.now.1, point := .wait .programBlock },
      e.afterSend (requestEvent p b p.typeProgramBlock (programBlockPayload w)) sends) := by
    unfold bsStep
    simp only [hp, programBlockSend]
    rw [sendReq_ok _ _ _ _ _ h.1]
  rw [bsRun_succ _ _ _ _ _ hb, e1, bsRun_succ _ _ _ _ _ hb]
  unfold bsStep
  simp only
  rw [checkResponse_answer p img _ _ h]
  simp only [hcl, afterAck]

/-- What a chunk of `DEV_LOAD` carries, in terms of the block's bytes (R225, R226). -/
theorem chunkData_load (p : Params) (fwb img : Memory) (b : BsUnit) (hc : b.cmd = 0x15) (j : Nat) :
    chunkData p fwb img b j =
      chunkSlice (imageBlock img (regionOf p b.region.toNat) b.blockSize.toNat (currentBlockAddr p img b))
        b.chunkSize.toNat j := by
  unfold chunkData
  rw [hc]
  show loadChunkData p img b j = _
  unfold imageBlock loadChunkData
  rw [chunkSlice_map]
  simp only [chunkHi, chunkLo, Nat.add_assoc]

theorem imageBlock_length (img : Memory) (g : Region) (n a : Nat) : (imageBlock img g n a).length = n := by
  simp [imageBlock]

/-- A block's three kinds of request, from the block's number and address. -/
def blockRequests (p : Params) (img : Memory) (b : BsUnit) (w : Word) (a : Nat) : List (Event × Half) :=
  (requestEvent p b p.typeStartBlock (startBlockPayload w (regionOf p b.region.toNat).memtype), p.typeStartBlockAck) ::
    (blockDataRequests p b (imageBlock img (regionOf p b.region.toNat) b.blockSize.toNat a) ++
      [(requestEvent p b p.typeProgramBlock (programBlockPayload w), p.typeProgramBlockAck)])

/-- `DEV_LOAD` on one block, up to what follows its program-block ACK. -/
theorem loadBlock_run (p : Params) (fwb img : Memory) (n : Nat) (b : BsUnit) (e : Env) (w : Word)
    {sends : List PortStatus} {counts : List (PortStatus × Word)} {receives : List (PortStatus × Event)}
    (hb : b.flags.busy = true) (hc : b.cmd = 0x15)
    (hp : b.point = .sendStartBlock w (regionOf p b.region.toNat).memtype)
    (hpos : 0 < b.chunkSize.toNat) (hle : b.chunkSize.toNat ≤ b.blockSize.toNat)
    (ha : e.agrees p b (blockRequests p img b w (currentBlockAddr p img b)) sends counts receives) :
    ∃ t0 tm ticks draws,
      bsRun p fwb img (n + 2 * (blockRequests p img b w (currentBlockAddr p img b)).length) (b, e) =
        bsRun p fwb img n (loadBlockDone p img
          ({ b with
              checksum := crc16Bytes b.checksum
                (imageBlock img (regionOf p b.region.toNat) b.blockSize.toNat (currentBlockAddr p img b)),
              curBlock := w, chunkIdx := BitVec.ofNat 32 (chunkCount b), state := .blockProgrammed, deadlineT0 := t0,
              point := .wait .programBlock },
            e.exchanged tm ticks draws sends counts receives
              ((blockRequests p img b w (currentBlockAddr p img b)).map fun q => q.1))) := by
  obtain ⟨hc1, hc2⟩ := chunkCount_bounds (b := b) hpos hle
  obtain ⟨m, hm⟩ : ∃ m, chunkCount b = m + 1 := ⟨chunkCount b - 1, by omega⟩
  have hlen := imageBlock_length img (regionOf p b.region.toNat) b.blockSize.toNat (currentBlockAddr p img b)
  have hreq : (blockDataRequests p b
      (imageBlock img (regionOf p b.region.toNat) b.blockSize.toNat (currentBlockAddr p img b))).length = m + 1 := by
    rw [blockDataRequests_length, hlen]; exact hm
  have hlist : (blockRequests p img b w (currentBlockAddr p img b)).length = (m + 1) + 2 := by
    simp [blockRequests, hreq]
  rw [hlist]
  unfold blockRequests at ha ⊢
  generalize hdata : imageBlock img (regionOf p b.region.toNat) b.blockSize.toNat (currentBlockAddr p img b) = data
    at ha hlen hreq ⊢
  obtain ⟨ev, cs, rs, hans, hrest⟩ := agrees_cons ha
  obtain ⟨t, tk, d, henv⟩ := afterExchange_eq e
    (requestEvent p b p.typeStartBlock (startBlockPayload w (regionOf p b.region.toNat).memtype))
    (List.replicate (blockDataRequests p b data ++
      [(requestEvent p b p.typeProgramBlock (programBlockPayload w), p.typeProgramBlockAck)]).length .ok ++ sends) cs rs
  generalize he1 : e.exchanged t tk d (List.replicate (blockDataRequests p b data ++
      [(requestEvent p b p.typeProgramBlock (programBlockPayload w), p.typeProgramBlockAck)]).length .ok ++ sends) cs rs
      [requestEvent p b p.typeStartBlock (startBlockPayload w (regionOf p b.region.toNat).memtype)] = e1 at henv
  generalize hb1 : ({ blockAcknowledged w b with deadlineT0 := e.now.1, point := .sendChunk 0 } : BsUnit) = b1
  have hrun1 : bsRun p fwb img (n + 2 * (m + 1 + 2)) (b, e) = bsRun p fwb img (n + 2 + 2 * (m + 1)) (b1, e1) := by
    rw [show n + 2 * (m + 1 + 2) = n + 2 + 2 * (m + 1) + 2 from by omega,
      startBlock_exchange p fwb img _ b e w _ hb hp hans, afterStartBlock_devLoad _ _ (by exact hc),
      if_pos (by exact hc1), henv, ← hb1]
    rfl
  obtain ⟨cs', rs', h1, h2⟩ := agrees_append (hrest e1 (by rw [← he1]; rfl) (by rw [← he1]; rfl) (by rw [← he1]; rfl))
  obtain ⟨t0, tm, ticks, draws, hrun⟩ := chunkLoop p fwb img m (n + 2) 0 b1 e1 data
    (by rw [← hb1]; exact hb) (.inr (by rw [← hb1]; exact hc)) (by rw [← hb1]; rfl) (by rw [← hb1]) (by rw [← hb1]; rfl)
    (by rw [← hb1]; show 0 + m + 1 = chunkCount b; omega) (by rw [← hb1]; exact hc2) (by rw [← hb1]; exact hlen)
    (by rw [← hb1]; exact hpos)
    (fun c k1 k2 k3 k4 k5 k6 j hj => by
      rw [← hb1] at k1 k3 k4 k5 k6 ⊢
      rw [chunkData_load _ _ _ _ (k1.trans hc) j, k3, k4, k5]
      have : currentBlockAddr p img c = currentBlockAddr p img b := by
        unfold currentBlockAddr currentBlocks; rw [k3, k5, k6]; rfl
      rw [this]
      exact congrArg (fun l => chunkSlice l b.chunkSize.toNat j) hdata)
    (agrees_sGuid (by rw [← hb1]) (by rw [← hb1]; exact h1))
  generalize he2 : e1.exchanged tm ticks draws _ cs' rs' _ = e2 at hrun
  rw [chunksDone_devLoad (by rw [← hb1]; exact hc)] at hrun
  obtain ⟨ev2, cs2, rs2, hans2, hrest2⟩ := agrees_cons (h2 e2 (by rw [← he2]; rfl) (by rw [← he2]; rfl) (by rw [← he2]; rfl))
  obtain ⟨h3, ⟨ws, h4, -, h5⟩, evs, h6, h7⟩ := hrest2 { e2 with sendStatus := sends, counts := cs2, receives := rs2 } rfl rfl rfl
  obtain rfl : ws = [] := by simpa using h4
  obtain rfl : evs = [] := by simpa using h6
  simp only [List.nil_append] at h5 h7
  subst h5 h7
  obtain ⟨t3, tk3, d3, henv3⟩ := afterExchange_eq e2
    (requestEvent p b p.typeProgramBlock (programBlockPayload w)) sends cs2 rs2
  refine ⟨e2.now.1, t3, tk3, d3, ?_⟩
  have hpt : b1.curBlock = w := by rw [← hb1]; rfl
  rw [hrun1, hrun, programBlock_exchange p fwb img n _ w (by rw [← hb1]; exact hb) (by rw [← hpt]; rfl)
    (by rw [← hb1]; exact hans2), afterProgramBlock_devLoad _ _ _ (by rw [← hb1]; exact hc)]
  congr 2
  refine Prod.ext ?_ ?_
  · rw [← hb1]
    simp only [Nat.zero_mul, List.drop_zero]
    rfl
  · refine Eq.trans ?_ (henv3.trans ?_)
    · rw [← hb1]; rfl
    · rw [← he2, ← he1, exchanged_exchanged, exchanged_exchanged]
      simp only [List.map_cons, List.map_append, List.map_nil, List.cons_append]
      rw [← hb1]
      rfl

end Sys2Proof.Machine
end

