-- ==== Sys2Proof/Laws/CipherRun.lean ====
section
/-!
SUPPORT. What a cipher unit's run of steps comes to: key expansion, a block transform, a block, a whole command. The step
relation of CipherCommands.lean goes word by word and round by round; these lemmas give its effect in terms of
`expandKey`, `encBlock`, `decBlock` and `bufferLoop`.
-/

namespace Sys2Proof.Machine

/-- A run of `a + b` steps is a run of `a`, then a run of `b`. -/
theorem ceRun_add (p : Params) (k a b : Nat) (u : CeUnit) :
    ceRun p k (a + b) u = ceRun p k b (ceRun p k a u) := by
  induction a generalizing u with
  | zero => simp [ceRun]
  | succ a ih =>
    rw [show a + 1 + b = (a + b) + 1 by omega]
    simp only [ceRun]
    split
    · exact ih _
    · rename_i h
      cases b with
      | zero => rfl
      | succ b => simp [ceRun, h]

/-- An idle unit does nothing (R276). -/
theorem ceRun_idle (p : Params) (k n : Nat) (u : CeUnit) (h : u.flags.busy = false) :
    ceRun p k n u = u := by
  cases n <;> simp [ceRun, h]

/-- The step of a unit whose command in progress is the cipher command with operations `m`. -/
def RunsOps (m : CipherOps) (p : Params) (k : Nat) (c : Byte) : Prop :=
  ∀ u, u.cmd = c → ceStep p k u = cipherStep m p k u

theorem runsOps_ecbEnc (p : Params) (k : Nat) : RunsOps ecbEncOps p k 0x01 := by
  intro u h; simp [ceStep, h]

theorem runsOps_ecbDec (p : Params) (k : Nat) : RunsOps ecbDecOps p k 0x02 := by
  intro u h; simp [ceStep, h]

theorem runsOps_cbcEnc (p : Params) (k : Nat) : RunsOps cbcEncOps p k 0x03 := by
  intro u h; simp [ceStep, h]

theorem runsOps_cbcDec (p : Params) (k : Nat) : RunsOps cbcDecOps p k 0x04 := by
  intro u h; simp [ceStep, h]

/-- One step of a busy unit, then the rest. -/
theorem ceRun_succ {m : CipherOps} {p : Params} {k : Nat} {c : Byte} (hm : RunsOps m p k c) (n : Nat) (u : CeUnit)
    (hb : u.flags.busy = true) (hc : u.cmd = c) :
    ceRun p k (n + 1) u = ceRun p k n (cipherStep m p k u) := by
  simp [ceRun, hb, hm u hc]

/-- `EXPAND_KEY`'s loop from word `u.i` to the end (R141). -/
theorem ceRun_expand {m : CipherOps} {p : Params} {k : Nat} {c : Byte} (hm : RunsOps m p k c) (d : Nat) (u : CeUnit)
    (hb : u.flags.busy = true) (hc : u.cmd = c) (hp : u.phase = .expand) (hd : u.i + d = 4 * (u.nr + 1)) :
    ceRun p k d u =
      { u with w := (List.range' u.i d).foldl (expandStep u.nk) u.w, i := 4 * (u.nr + 1) } := by
  induction d generalizing u with
  | zero =>
    have : u.i = 4 * (u.nr + 1) := by omega
    simp [ceRun, ← this]
  | succ d ih =>
    rw [ceRun_succ hm d u hb hc]
    have hs : cipherStep m p k u = { u with w := expandStep u.nk u.w u.i, i := u.i + 1 } := by
      simp [cipherStep, hp, show u.i < 4 * (u.nr + 1) by omega]
    rw [hs, ih { u with w := expandStep u.nk u.w u.i, i := u.i + 1 } hb hc hp (by simp only; omega)]
    simp [List.range'_succ]

/-- `ENC_BLOCK` from round `u.round` on: the unit's `S` and `round` (R151). -/
theorem ceRun_encRounds {m : CipherOps} {p : Params} {k : Nat} {c : Byte} (hm : RunsOps m p k c)
    (hr : m.round = encNext) (d : Nat) (u : CeUnit) (hb : u.flags.busy = true) (hc : u.cmd = c)
    (hp : u.phase = .rounds) (hd : u.round + d + 1 = u.nr) :
    ceRun p k (d + 1) u =
      { u with
          st := addRoundKey u.w u.nr (shiftRows (subBytes ((List.range' (u.round + 1) d).foldl (encRound u.w) u.st)))
          round := u.nr, phase := .store } := by
  induction d generalizing u with
  | zero =>
    rw [ceRun_succ hm 0 u hb hc]
    have hs : cipherStep m p k u =
        { u with round := u.nr, st := addRoundKey u.w u.nr (shiftRows (subBytes u.st)), phase := .store } := by
      simp [cipherStep, hp, hr, encNext, show ¬u.round + 1 < u.nr by omega]
    rw [hs]
    rfl
  | succ d ih =>
    rw [ceRun_succ hm (d + 1) u hb hc]
    have hs : cipherStep m p k u =
        { u with round := u.round + 1, st := encRound u.w u.st (u.round + 1) } := by
      simp [cipherStep, hp, hr, encNext, show u.round + 1 < u.nr by omega]
    rw [hs, ih { u with round := u.round + 1, st := encRound u.w u.st (u.round + 1) } hb hc hp (by simp only; omega)]
    simp [List.range'_succ]

/-- `DEC_BLOCK` from round `u.round` down: the unit's `S` and `round` (R153). -/
theorem ceRun_decRounds {m : CipherOps} {p : Params} {k : Nat} {c : Byte} (hm : RunsOps m p k c)
    (hr : m.round = decNext) (d : Nat) (u : CeUnit) (hb : u.flags.busy = true) (hc : u.cmd = c)
    (hp : u.phase = .rounds) (hd : u.round = d + 1) :
    ceRun p k (d + 1) u =
      { u with
          st := addRoundKey u.w 0 (invSubBytes (invShiftRows ((List.range' 1 d).reverse.foldl (decRound u.w) u.st)))
          round := 0, phase := .store } := by
  induction d generalizing u with
  | zero =>
    rw [ceRun_succ hm 0 u hb hc]
    have hs : cipherStep m p k u =
        { u with round := 0, st := addRoundKey u.w 0 (invSubBytes (invShiftRows u.st)), phase := .store } := by
      simp [cipherStep, hp, hr, decNext, hd]
    rw [hs]
    rfl
  | succ d ih =>
    rw [ceRun_succ hm (d + 1) u hb hc]
    have hs : cipherStep m p k u = { u with round := d + 1, st := decRound u.w u.st (d + 1) } := by
      simp [cipherStep, hp, hr, decNext, hd]
    rw [hs, ih { u with round := d + 1, st := decRound u.w u.st (d + 1) } hb hc hp rfl]
    have : (List.range' 1 (d + 1)).reverse = (d + 1) :: (List.range' 1 d).reverse := by
      rw [List.range'_1_concat, List.reverse_append]
      simp [Nat.add_comm]
    rw [this]
    rfl

/-- What one pass of the block loop does, for a cipher command whose block function is `xf`: `nr + 2` steps later the
block is in BUF, `CHAIN` and `off` have gone on, and only the workspace differs besides. -/
def RunsBlock (xf : Vector CWord 60 → Nat → Block → Block → Block × Block) (p : Params) (k : Nat) (c : Byte) : Prop :=
  ∀ u, u.flags.busy = true → u.cmd = c → u.phase = .block → u.off < u.len.toNat → 1 ≤ u.nr →
    ∃ st tmp round, ceRun p k (u.nr + 2) u =
      { u with
          st := st, tmp := tmp, round := round, off := u.off + 16, phase := .block
          chain := (xf u.w u.nr u.chain (readBlock (.buf k) u.buf (u.src.toNat + u.off))).2
          buf := writeBlock u.buf (u.dst.toNat + u.off)
            (xf u.w u.nr u.chain (readBlock (.buf k) u.buf (u.src.toNat + u.off))).1 }

/-- The head of the block loop, when a block is left. -/
theorem cipherStep_block (m : CipherOps) (p : Params) (k : Nat) (u : CeUnit) (hp : u.phase = .block)
    (ho : u.off < u.len.toNat) :
    cipherStep m p k u = m.first (m.load (readBlock (.buf k) u.buf (u.src.toNat + u.off)) u) := by
  simp [cipherStep, hp, ho]

/-- The store step. -/
theorem cipherStep_store (m : CipherOps) (p : Params) (k : Nat) (u : CeUnit) (hp : u.phase = .store) :
    cipherStep m p k u =
      m.next { m.fixup u with
        buf := writeBlock (m.fixup u).buf ((m.fixup u).dst.toNat + (m.fixup u).off) (m.fixup u).st
        off := (m.fixup u).off + 16, phase := .block } := by
  simp [cipherStep, hp]

/-- The store step on a unit `w`, as one function. -/
def stored (m : CipherOps) (w : CeUnit) : CeUnit :=
  m.next { m.fixup w with
    buf := writeBlock (m.fixup w).buf ((m.fixup w).dst.toNat + (m.fixup w).off) (m.fixup w).st
    off := (m.fixup w).off + 16, phase := .block }

/-- The store step, run. -/
theorem ceRun_store {m : CipherOps} {p : Params} {k : Nat} {c : Byte} (hm : RunsOps m p k c) (u : CeUnit)
    (hb : u.flags.busy = true) (hc : u.cmd = c) (hp : u.phase = .store) : ceRun p k 1 u = stored m u :=
  (ceRun_succ hm 0 u hb hc).trans (by rw [cipherStep_store m p k u hp]; rfl)

/-- One pass of the block loop of an encrypting command; `v` is the unit with the block loaded. -/
theorem ceRun_encBlock {m : CipherOps} {p : Params} {k : Nat} {c : Byte} (hm : RunsOps m p k c)
    (hf : m.first = encFirst) (hr : m.round = encNext) (u v : CeUnit) (hb : u.flags.busy = true)
    (hc : u.cmd = c) (hp : u.phase = .block) (ho : u.off < u.len.toNat)
    (hv : m.load (readBlock (.buf k) u.buf (u.src.toNat + u.off)) u = v) (hvb : v.flags.busy = true)
    (hvc : v.cmd = c) (hn : 1 ≤ v.nr) :
    ceRun p k (v.nr + 2) u =
      stored m { v with st := encBlock v.w v.nr v.st, round := v.nr, phase := .store } := by
  rw [show v.nr + 2 = (v.nr - 1 + 1) + 1 + 1 by omega, ceRun_succ hm _ u hb hc, cipherStep_block _ _ _ _ hp ho, hv,
    hf, ceRun_add p k (v.nr - 1 + 1) 1, ceRun_encRounds hm hr (v.nr - 1) (encFirst v) hvb hvc rfl
      (by simp only [encFirst]; omega)]
  exact (ceRun_store hm { v with st := encBlock v.w v.nr v.st, round := v.nr, phase := .store } hvb hvc rfl).trans rfl

/-- One pass of the block loop of a decrypting command; `v` is the unit with the block loaded. -/
theorem ceRun_decBlock {m : CipherOps} {p : Params} {k : Nat} {c : Byte} (hm : RunsOps m p k c)
    (hf : m.first = decFirst) (hr : m.round = decNext) (u v : CeUnit) (hb : u.flags.busy = true)
    (hc : u.cmd = c) (hp : u.phase = .block) (ho : u.off < u.len.toNat)
    (hv : m.load (readBlock (.buf k) u.buf (u.src.toNat + u.off)) u = v) (hvb : v.flags.busy = true)
    (hvc : v.cmd = c) (hn : 1 ≤ v.nr) :
    ceRun p k (v.nr + 2) u =
      stored m { v with st := decBlock v.w v.nr v.st, round := 0, phase := .store } := by
  rw [show v.nr + 2 = (v.nr - 1 + 1) + 1 + 1 by omega, ceRun_succ hm _ u hb hc, cipherStep_block _ _ _ _ hp ho, hv,
    hf, ceRun_add p k (v.nr - 1 + 1) 1, ceRun_decRounds hm hr (v.nr - 1) (decFirst v) hvb hvc rfl
      (by simp only [decFirst]; omega)]
  exact (ceRun_store hm { v with st := decBlock v.w v.nr v.st, round := 0, phase := .store } hvb hvc rfl).trans rfl

theorem runsBlock_ecbEnc (p : Params) (k : Nat) : RunsBlock ecbEncXf p k 0x01 := by
  intro u hb hc hp ho hn
  have h := ceRun_encBlock (runsOps_ecbEnc p k) rfl rfl u
    { u with st := readBlock (.buf k) u.buf (u.src.toNat + u.off) } hb hc hp ho rfl hb hc hn
  exact ⟨encBlock u.w u.nr (readBlock (.buf k) u.buf (u.src.toNat + u.off)), u.tmp, u.nr,
    h.trans rfl⟩

theorem runsBlock_ecbDec (p : Params) (k : Nat) : RunsBlock ecbDecXf p k 0x02 := by
  intro u hb hc hp ho hn
  have h := ceRun_decBlock (runsOps_ecbDec p k) rfl rfl u
    { u with st := readBlock (.buf k) u.buf (u.src.toNat + u.off) } hb hc hp ho rfl hb hc hn
  exact ⟨decBlock u.w u.nr (readBlock (.buf k) u.buf (u.src.toNat + u.off)), u.tmp, 0,
    h.trans rfl⟩

theorem runsBlock_cbcEnc (p : Params) (k : Nat) : RunsBlock cbcEncXf p k 0x03 := by
  intro u hb hc hp ho hn
  have h := ceRun_encBlock (runsOps_cbcEnc p k) rfl rfl u
    { u with st := xorBlock (readBlock (.buf k) u.buf (u.src.toNat + u.off)) u.chain } hb hc hp ho rfl hb hc hn
  exact ⟨encBlock u.w u.nr (xorBlock (readBlock (.buf k) u.buf (u.src.toNat + u.off)) u.chain), u.tmp, u.nr,
    h.trans (by simp only [stored, cbcEncOps, cbcEncXf])⟩

theorem runsBlock_cbcDec (p : Params) (k : Nat) : RunsBlock cbcDecXf p k 0x04 := by
  intro u hb hc hp ho hn
  have h := ceRun_decBlock (runsOps_cbcDec p k) rfl rfl u
    { u with tmp := readBlock (.buf k) u.buf (u.src.toNat + u.off)
             st := readBlock (.buf k) u.buf (u.src.toNat + u.off) }
    hb hc hp ho rfl hb hc hn
  exact ⟨xorBlock (decBlock u.w u.nr (readBlock (.buf k) u.buf (u.src.toNat + u.off))) u.chain,
    readBlock (.buf k) u.buf (u.src.toNat + u.off), 0,
    h.trans (by simp only [stored, cbcDecOps, cbcDecXf])⟩

/-- The block loop from `off` to the end of the operand, and the epilogue: the command is complete and BUF is what
`bufferLoop` makes of it. -/
theorem ceRun_blocks {m : CipherOps} {p : Params} {k : Nat} {c : Byte} (hm : RunsOps m p k c)
    {xf : Vector CWord 60 → Nat → Block → Block → Block × Block} (hx : RunsBlock xf p k c)
    (n : Nat) (u : CeUnit) (hb : u.flags.busy = true) (hc : u.cmd = c) (hp : u.phase = .block) (hn : 1 ≤ u.nr)
    (hl : u.off + 16 * n = u.len.toNat) :
    ceRun p k (n * (u.nr + 2) + 1) u =
      CeUnit.complete u.len
        { u with buf := bufferLoop (xf u.w u.nr) (.buf k) u.src.toNat u.dst.toNat n u.off u.chain u.buf } := by
  induction n generalizing u with
  | zero =>
    rw [Nat.zero_mul, ceRun_succ hm 0 u hb hc]
    simp [cipherStep, hp, show ¬u.off < u.len.toNat by omega, ceRun, bufferLoop]
    rfl
  | succ n ih =>
    obtain ⟨st, tmp, round, h⟩ := hx u hb hc hp (by omega) hn
    rw [show (n + 1) * (u.nr + 2) + 1 = (u.nr + 2) + (n * (u.nr + 2) + 1) by rw [Nat.add_mul]; omega,
      ceRun_add p k (u.nr + 2), h]
    have h2 := ih
      { u with
        st := st, tmp := tmp, round := round, off := u.off + 16, phase := .block
        chain := (xf u.w u.nr u.chain (readBlock (.buf k) u.buf (u.src.toNat + u.off))).2
        buf := writeBlock u.buf (u.dst.toNat + u.off)
          (xf u.w u.nr u.chain (readBlock (.buf k) u.buf (u.src.toNat + u.off))).1 } hb hc rfl hn (by simp only; omega)
    simp only at h2 ⊢
    rw [h2]
    rfl

/-- The variants of R8: 10, 12 or 14 rounds, and the counts of schedule words. -/
theorem variantOf_bounds {x : Half} {v : Variant} (h : variantOf x = some v) :
    1 ≤ v.nr ∧ v.nr ≤ 14 ∧ v.nk ≤ 4 * (v.nr + 1) ∧ 4 * (v.nr + 1) - v.nk ≤ 52 := by
  unfold variantOf at h
  split at h <;> simp at h <;> subst h <;> decide

/-- The checks of a cipher command have passed: what that says (R161). -/
theorem cipherChecks_ok {p : Params} {u : CeUnit} {v : Variant} (h : cipherChecks p u = .ok v) :
    variantOf u.variant = some v ∧ u.len.toNat % 16 = 0 ∧ u.src.toNat + u.len.toNat ≤ p.bufSize.val ∧
      u.dst.toNat + u.len.toNat ≤ p.bufSize.val := by
  unfold cipherChecks at h
  split at h
  · cases h
  · rename_i w hw
    split at h
    · cases h
    · split at h
      · rename_i hl hr
        simp only [inRange, Bool.and_eq_true, decide_eq_true_eq] at hr
        cases h
        exact ⟨hw, by omega, hr.1, hr.2⟩
      · cases h

/-- A block loop that ignores `CHAIN` gives one result for every `CHAIN`. -/
theorem bufferLoop_chain {xf : Block → Block → Block × Block} (hx : ∀ c d b, (xf c b).1 = (xf d b).1) (sp : Space)
    (src dst n off : Nat) (c d : Block) (m : Memory) :
    bufferLoop xf sp src dst n off c m = bufferLoop xf sp src dst n off d m := by
  induction n generalizing off c d m with
  | zero => rfl
  | succ n ih =>
    simp only [bufferLoop]
    rw [hx c d, ih]

/-- A cipher command whose checks pass and that has enough steps: it completes with BUF as `bufferLoop` makes it from
the chain value `m.start` sets. -/
theorem ceRun_cipher_ok {m : CipherOps} {p : Params} {k : Nat} {c : Byte} (hm : RunsOps m p k c)
    {xf : Vector CWord 60 → Nat → Block → Block → Block × Block} (hx : RunsBlock xf p k c)
    (ch : CeUnit → Block) (hs : ∀ u, m.start u = { u with chain := ch u })
    (hch : ∀ u w i nr nk ph off fl cm, ch { u with w, i, nr, nk, phase := ph, off, flags := fl, cmd := cm } = ch u)
    (u : CeUnit) (hi : u.idleClear) (v : Variant) (hk : cipherChecks p u = .ok v) (n : Nat)
    (hn : u.len.toNat + 64 ≤ n) :
    ceRun p k n (u.accept c) =
      u.succeeded u.len
        (bufferLoop (xf (expandKey u.key v) v.nr) (.buf k) u.src.toNat u.dst.toNat (u.len.toNat / 16) 0 (ch u) u.buf) := by
  obtain ⟨hv, hl, -, -⟩ := cipherChecks_ok hk
  obtain ⟨b1, b2, b3, b4⟩ := variantOf_bounds hv
  obtain ⟨hb, hcm, hph, hw, hst, hchn, htmp, hnk, hnr, hii, hro, hof⟩ := hi
  have hlen : 16 * (u.len.toNat / 16) = u.len.toNat := by omega
  have hle : u.len.toNat / 16 * (v.nr + 2) ≤ u.len.toNat := by
    calc u.len.toNat / 16 * (v.nr + 2) ≤ u.len.toNat / 16 * 16 := Nat.mul_le_mul_left _ (by omega)
      _ = u.len.toNat := by omega
  obtain ⟨r, rfl⟩ : ∃ r, n = ((4 * (v.nr + 1) - v.nk) + ((u.len.toNat / 16 * (v.nr + 2) + 1 + r) + 1)) + 1 :=
    ⟨n - (((4 * (v.nr + 1) - v.nk) + ((u.len.toNat / 16 * (v.nr + 2) + 1) + 1)) + 1), by omega⟩
  have hk' : cipherChecks p (u.accept c) = .ok v := hk
  have h1 : cipherStep m p k (u.accept c) =
      { u.accept c with nk := v.nk, nr := v.nr, i := v.nk, w := copyKey u.key v.nk, phase := .expand } := by
    simp [cipherStep, hk']
  rw [ceRun_succ hm _ _ rfl rfl, h1, ceRun_add p k (4 * (v.nr + 1) - v.nk),
    ceRun_expand hm _ { u.accept c with nk := v.nk, nr := v.nr, i := v.nk, w := copyKey u.key v.nk, phase := .expand }
      rfl rfl rfl (by simp only; omega)]
  simp only
  rw [ceRun_succ hm _ _ rfl rfl]
  have h2 : ∀ w, cipherStep m p k
      { u.accept c with nk := v.nk, nr := v.nr, i := 4 * (v.nr + 1), w := w, phase := .expand } =
      { u.accept c with nk := v.nk, nr := v.nr, i := 4 * (v.nr + 1), w := w, phase := .block, off := 0, chain := ch u } := by
    intro w
    simp only [cipherStep, Nat.lt_irrefl, if_false, hs]
    congr 1
    exact hch u _ _ _ _ _ _ _ _
  rw [h2, ceRun_add p k (u.len.toNat / 16 * (v.nr + 2) + 1)]
  have h3 := ceRun_blocks hm hx (u.len.toNat / 16)
    { u.accept c with
      nk := v.nk, nr := v.nr, i := 4 * (v.nr + 1), w := expandKey u.key v, phase := .block, off := 0, chain := ch u } rfl rfl rfl b1 (by simp only [ceAccept_len]; omega)
  simp only at h3
  rw [show List.foldl (expandStep v.nk) (copyKey u.key v.nk) (List.range' v.nk (4 * (v.nr + 1) - v.nk)) =
    expandKey u.key v from rfl, h3, ceRun_idle _ _ _ _ rfl]
  simp only [CeUnit.complete, CeUnit.finish, CeUnit.succeeded, CeUnit.accept, Flags.accept, Flags.complete]
  simp [hw, hst, hchn, htmp, hnk, hnr, hii, hro, hof, hcm, hph]

/-- A cipher command whose checks fail: refused, one step (R161, R262). -/
theorem ceRun_cipher_refused {m : CipherOps} {p : Params} {k : Nat} {c : Byte} (hm : RunsOps m p k c) (u : CeUnit)
    (hi : u.idleClear) (r : ErrCode) (hr : r ≠ .success) (hk : cipherChecks p u = .error r) (n : Nat)
    (hn : 1 ≤ n) : ceRun p k n (u.accept c) = u.refused r := by
  obtain ⟨n, rfl⟩ : ∃ j, n = j + 1 := ⟨n - 1, by omega⟩
  obtain ⟨hb, hcm, hph, hw, hst, hchn, htmp, hnk, hnr, hii, hro, hof⟩ := hi
  have hk' : cipherChecks p (u.accept c) = .error r := hk
  have h1 : cipherStep m p k (u.accept c) = (u.accept c).refuse r := by
    simp [cipherStep, hk']
  rw [ceRun_succ hm _ _ rfl rfl, h1, ceRun_idle _ _ _ _ rfl]
  simp only [CeUnit.refuse, CeUnit.finish, CeUnit.refused, CeUnit.accept, Flags.accept, Flags.complete]
  simp [hw, hst, hchn, htmp, hnk, hnr, hii, hro, hof, hcm, hph, hr]

theorem ceRun_ecbEnc (p : Params) (k : Nat) (u : CeUnit) (hi : u.idleClear) (v : Variant)
    (hk : cipherChecks p u = .ok v) (n : Nat) (hn : u.len.toNat + 64 ≤ n) :
    ceRun p k n (u.accept 0x01) =
      u.succeeded u.len (cipherBuffer (ecbEncXf (expandKey u.key v) v.nr) k u) := by
  rw [ceRun_cipher_ok (runsOps_ecbEnc p k) (runsBlock_ecbEnc p k) (fun u => u.chain) (fun _ => rfl)
    (fun _ _ _ _ _ _ _ _ _ => rfl) u hi v hk n hn]
  unfold cipherBuffer
  rw [bufferLoop_chain (fun _ _ _ => rfl) _ _ _ _ _ u.iv u.chain]

theorem ceRun_ecbDec (p : Params) (k : Nat) (u : CeUnit) (hi : u.idleClear) (v : Variant)
    (hk : cipherChecks p u = .ok v) (n : Nat) (hn : u.len.toNat + 64 ≤ n) :
    ceRun p k n (u.accept 0x02) =
      u.succeeded u.len (cipherBuffer (ecbDecXf (expandKey u.key v) v.nr) k u) := by
  rw [ceRun_cipher_ok (runsOps_ecbDec p k) (runsBlock_ecbDec p k) (fun u => u.chain) (fun _ => rfl)
    (fun _ _ _ _ _ _ _ _ _ => rfl) u hi v hk n hn]
  unfold cipherBuffer
  rw [bufferLoop_chain (fun _ _ _ => rfl) _ _ _ _ _ u.iv u.chain]

theorem ceRun_cbcEnc (p : Params) (k : Nat) (u : CeUnit) (hi : u.idleClear) (v : Variant)
    (hk : cipherChecks p u = .ok v) (n : Nat) (hn : u.len.toNat + 64 ≤ n) :
    ceRun p k n (u.accept 0x03) =
      u.succeeded u.len (cipherBuffer (cbcEncXf (expandKey u.key v) v.nr) k u) := by
  exact ceRun_cipher_ok (runsOps_cbcEnc p k) (runsBlock_cbcEnc p k) (fun u => u.iv) (fun _ => rfl)
    (fun _ _ _ _ _ _ _ _ _ => rfl) u hi v hk n hn

theorem ceRun_cbcDec (p : Params) (k : Nat) (u : CeUnit) (hi : u.idleClear) (v : Variant)
    (hk : cipherChecks p u = .ok v) (n : Nat) (hn : u.len.toNat + 64 ≤ n) :
    ceRun p k n (u.accept 0x04) =
      u.succeeded u.len (cipherBuffer (cbcDecXf (expandKey u.key v) v.nr) k u) := by
  exact ceRun_cipher_ok (runsOps_cbcDec p k) (runsBlock_cbcDec p k) (fun u => u.iv) (fun _ => rfl)
    (fun _ _ _ _ _ _ _ _ _ => rfl) u hi v hk n hn

/-- `GEN_IV` in one step, in all its cases (R171). -/
theorem ceRun_genIv (p : Params) (k : Nat) (u : CeUnit) (hi : u.idleClear) (n : Nat) (hn : 1 ≤ n) :
    ceRun p k n (u.accept 0x05) =
      if inRange u.dst u.len p.bufSize.val then
        if (u.rng.isAvailable k).1 then
          { u.succeeded u.len (u.buf.writeBytes u.dst.toNat (Rng.draw k u.len.toNat (u.rng.isAvailable k).2).1) with
            rng := (Rng.draw k u.len.toNat (u.rng.isAvailable k).2).2 }
        else { u.succeeded 0 u.buf with rng := (u.rng.isAvailable k).2 }
      else u.refused .range := by
  obtain ⟨n, rfl⟩ : ∃ j, n = j + 1 := ⟨n - 1, by omega⟩
  obtain ⟨hb, hcm, hph, hw, hst, hchn, htmp, hnk, hnr, hii, hro, hof⟩ := hi
  have h1 : ceStep p k (u.accept 0x05) = genIvStep p k (u.accept 0x05) := rfl
  simp only [ceRun, ceAccept_flags, accept_flags_busy, if_true, h1, genIvStep, ceAccept_dst, ceAccept_len, ceAccept_rng]
  by_cases h2 : inRange u.dst u.len p.bufSize.val = true
  · by_cases h3 : (u.rng.isAvailable k).1 = true
    · simp only [h2, h3, if_true]
      rw [ceRun_idle _ _ _ _ rfl]
      simp [CeUnit.complete, CeUnit.finish, CeUnit.succeeded, CeUnit.accept, Flags.accept, Flags.complete,
        hw, hst, hchn, htmp, hnk, hnr, hii, hro, hof, hcm, hph]
    · simp only [h2, h3, if_true, Bool.false_eq_true, if_false]
      rw [ceRun_idle _ _ _ _ rfl]
      simp [CeUnit.complete, CeUnit.finish, CeUnit.succeeded, CeUnit.accept, Flags.accept, Flags.complete,
        hw, hst, hchn, htmp, hnk, hnr, hii, hro, hof, hcm, hph]
  · simp only [h2, Bool.false_eq_true, if_false]
    rw [ceRun_idle _ _ _ _ rfl]
    simp [CeUnit.refuse, CeUnit.finish, CeUnit.refused, CeUnit.accept, Flags.accept, Flags.complete,
      hw, hst, hchn, htmp, hnk, hnr, hii, hro, hof, hcm, hph]

end Sys2Proof.Machine
end

