-- ==== Sys2Proof/Laws/Memory.lean ====
section
/-!
SUPPORT. What the memory operations do: the canonical form is kept, a read after a write gives the byte written, a write
leaves every other address alone, and no listed address appears outside the bytes written.
-/

namespace Sys2Proof.Machine

theorem write_wf_aux (m : Memory) (a : Nat) (v : Byte) (h : m.wf) :
    (m.write a v).wf ∧ ∀ b, (∀ c ∈ m, b < c.1) → b < a → ∀ c ∈ m.write a v, b < c.1 := by
  induction m with
  | nil => simp [Memory.write]
  | cons hd tl ih =>
    obtain ⟨b, u⟩ := hd
    have hh := List.pairwise_cons.mp h
    obtain ⟨ih1, ih2⟩ := ih hh.2
    unfold Memory.write
    split
    · rename_i hlt
      constructor
      · refine List.pairwise_cons.mpr ⟨?_, h⟩
        intro c hc
        rcases List.mem_cons.mp hc with rfl | hc
        · exact hlt
        · exact Nat.lt_trans hlt (hh.1 c hc)
      · intro d hd ha c hc
        rcases List.mem_cons.mp hc with rfl | hc
        · exact ha
        · exact hd c hc
    · split
      · rename_i _ heq
        subst heq
        constructor
        · exact List.pairwise_cons.mpr ⟨hh.1, hh.2⟩
        · intro d hd ha c hc
          rcases List.mem_cons.mp hc with rfl | hc
          · exact ha
          · exact hd c (List.mem_cons_of_mem _ hc)
      · constructor
        · refine List.pairwise_cons.mpr ⟨?_, ih1⟩
          exact ih2 b hh.1 (by omega)
        · intro d hd ha c hc
          rcases List.mem_cons.mp hc with rfl | hc
          · exact hd _ (by simp)
          · exact ih2 d (fun c hc => hd c (List.mem_cons_of_mem _ hc)) ha c hc

/-- A write keeps the canonical form. -/
theorem write_wf {m : Memory} (h : m.wf) (a : Nat) (v : Byte) : (m.write a v).wf := (write_wf_aux m a v h).1

/-- A write keeps the canonical form, for any number of bytes. -/
theorem writeBytes_wf {m : Memory} (h : m.wf) (a : Nat) (vs : List Byte) : (m.writeBytes a vs).wf := by
  induction vs generalizing m a with
  | nil => exact h
  | cons v vs ih => exact ih (write_wf h a v) (a + 1)

/-- What a write lists was listed before, or is the byte written. -/
theorem mem_write {m : Memory} {a : Nat} {v : Byte} {c : Host.Cell} (h : c ∈ m.write a v) : c ∈ m ∨ c = (a, v) := by
  induction m with
  | nil => simpa [Memory.write] using h
  | cons hd tl ih =>
    unfold Memory.write at h
    split at h
    · rcases List.mem_cons.mp h with rfl | h
      · exact .inr rfl
      · exact .inl h
    · split at h
      · rcases List.mem_cons.mp h with rfl | h
        · exact .inr rfl
        · exact .inl (List.mem_cons_of_mem _ h)
      · rcases List.mem_cons.mp h with rfl | h
        · exact .inl (by simp)
        · rcases ih h with h | h
          · exact .inl (List.mem_cons_of_mem _ h)
          · exact .inr h

/-- A write inside the first `n` addresses lists nothing outside them. -/
theorem writeBytes_inside {m : Memory} {n a : Nat} {vs : List Byte} (h : ∀ c ∈ m, c.1 < n) (ha : a + vs.length ≤ n) :
    ∀ c ∈ m.writeBytes a vs, c.1 < n := by
  induction vs generalizing m a with
  | nil => exact h
  | cons v vs ih =>
    simp only [List.length_cons] at ha
    refine ih (fun c hc => ?_) (by omega)
    rcases mem_write hc with hc | rfl
    · exact h c hc
    · simp only; omega

/-- A read after a write, at every address. -/
theorem read?_write (m : Memory) (h : m.wf) (a b : Nat) (v : Byte) :
    (m.write a v).read? b = if b = a then some v else m.read? b := by
  induction m with
  | nil => simp [Memory.write, Memory.read?]
  | cons hd tl ih =>
    obtain ⟨c, u⟩ := hd
    have hh := List.pairwise_cons.mp h
    unfold Memory.write
    split
    · simp [Memory.read?]
    · split
      · rename_i _ heq
        subst heq
        simp only [Memory.read?]
        split <;> rfl
      · simp only [Memory.read?, ih hh.2]
        split
        · rename_i h1 h2 h3
          subst h3
          rw [if_neg (fun h => h2 h.symm)]
        · rfl

/-- A write leaves the byte at every other address alone, whatever the list's form. -/
theorem read?_write_ne (m : Memory) (a b : Nat) (v : Byte) (hb : b ≠ a) : (m.write a v).read? b = m.read? b := by
  induction m with
  | nil => simp [Memory.write, Memory.read?, hb]
  | cons hd tl ih =>
    obtain ⟨c, u⟩ := hd
    unfold Memory.write
    split
    · simp [Memory.read?, hb]
    · split
      · rename_i _ heq
        subst heq
        simp [Memory.read?, hb]
      · simp only [Memory.read?, ih]

/-- A write of a byte sequence leaves every byte outside it alone, whatever the list's form. -/
theorem read?_writeBytes_ne (m : Memory) (a b : Nat) (vs : List Byte) (hb : ¬(a ≤ b ∧ b < a + vs.length)) :
    (m.writeBytes a vs).read? b = m.read? b := by
  induction vs generalizing m a with
  | nil => rfl
  | cons v vs ih =>
    simp only [List.length_cons] at hb
    simp only [Memory.writeBytes]
    rw [ih _ _ (by omega), read?_write_ne _ _ _ _ (by omega)]

/-- A read after a write of a byte sequence, at every address. -/
theorem read?_writeBytes (m : Memory) (h : m.wf) (a b : Nat) (vs : List Byte) :
    (m.writeBytes a vs).read? b = if a ≤ b ∧ b < a + vs.length then vs[b - a]? else m.read? b := by
  induction vs generalizing m a with
  | nil =>
    rw [if_neg (by simp only [List.length_nil]; omega)]
    rfl
  | cons v vs ih =>
    simp only [Memory.writeBytes, ih _ (write_wf h a v), read?_write m h, List.length_cons]
    by_cases h1 : a + 1 ≤ b ∧ b < a + 1 + vs.length
    · rw [if_pos h1, if_pos ⟨by omega, by omega⟩]
      rw [show b - a = (b - (a + 1)) + 1 by omega]
      simp
    · rw [if_neg h1]
      by_cases h2 : b = a
      · subst h2; simp
      · rw [if_neg h2, if_neg (by omega)]

/-- A write leaves every byte outside it alone. -/
theorem read?_writeBytes_other (m : Memory) (h : m.wf) (a b : Nat) (vs : List Byte)
    (hb : b < a ∨ a + vs.length ≤ b) : (m.writeBytes a vs).read? b = m.read? b := by
  rw [read?_writeBytes m h, if_neg (by omega)]

/-- The bytes written are read back. -/
theorem byteAt_writeBytes (sp : Space) (m : Memory) (h : m.wf) (a b : Nat) (vs : List Byte) :
    byteAt sp (m.writeBytes a vs) b =
      if hb : a ≤ b ∧ b < a + vs.length then vs[b - a]'(by omega) else byteAt sp m b := by
  unfold byteAt
  rw [read?_writeBytes m h]
  split
  · rename_i hb
    rw [List.getElem?_eq_getElem (by omega : b - a < vs.length)]
    rfl
  · rfl

end Sys2Proof.Machine
end

