-- ==== Sys2Proof/Laws/CipherStep.lean ====
section
/-!
SUPPORT. What one step of a busy cipher unit can do, said once: `ceStep_spec`. Frames and invariants of the cipher
commands follow from it by induction on the number of steps.
-/

namespace Sys2Proof.Machine

/-- What the sequencing state of a cipher unit obeys between two steps (R31, R46). -/
structure CeUnit.RunInv (p : Params) (u : CeUnit) : Prop where
  idle    : u.flags.busy = false → u.cmd = 0 ∧ u.phase = .idle ∧ u.workspaceClear
  checks  : u.flags.busy = true → u.phase = .checks → 1 ≤ u.cmd.toNat ∧ u.cmd.toNat ≤ 5 ∧ u.workspaceClear
  running : u.flags.busy = true → u.phase ≠ .checks → u.phase ≠ .idle ∧ u.working p

/-- BUF is as before, or differs by one write of bytes that the command is to write. -/
def CeUnit.bufStep (p : Params) (u v : CeUnit) : Prop :=
  v.buf = u.buf ∨ ∃ a bytes, v.buf = u.buf.writeBytes a bytes ∧ u.dst.toNat ≤ a ∧
    a + bytes.length ≤ u.dst.toNat + u.len.toNat ∧ u.dst.toNat + u.len.toNat ≤ p.bufSize.val

/-- The report of a command after one more step: still running, or complete. -/
def CeUnit.reportStep (u v : CeUnit) : Prop :=
  (v.flags = u.flags ∧ v.err = u.err ∧ v.result = u.result ∧ v.cmd = u.cmd) ∨
    (v.flags.busy = false ∧ v.flags.done = true ∧ v.flags.ovr = u.flags.ovr ∧
      (v.flags.err = true ↔ v.err ≠ .success) ∧ (v.flags.err = true → v.result = 0))

/-- What a step may do. -/
structure CeStepOk (p : Params) (u : CeUnit) (r : CeUnit) : Prop where
  inv      : r.RunInv p
  operands : u.sameOperands r
  report   : u.reportStep r
  buf      : u.bufStep p r
  rng      : r.rng = u.rng ∨ u.cmd = 0x05

/-- The four cipher commands' operations change nothing but `S`, `CHAIN` and `TMP`. -/
structure CipherOps.Ok (m : CipherOps) : Prop where
  start : ∀ u, m.start u = { u with chain := (m.start u).chain }
  load  : ∀ b u, m.load b u = { u with st := (m.load b u).st, tmp := (m.load b u).tmp }
  fixup : ∀ u, m.fixup u = { u with st := (m.fixup u).st }
  next  : ∀ u, m.next u = { u with chain := (m.next u).chain }
  dir   : (m.first = encFirst ∧ m.round = encNext) ∨ (m.first = decFirst ∧ m.round = decNext)

theorem ok_ecbEnc : ecbEncOps.Ok := ⟨fun _ => rfl, fun _ _ => rfl, fun _ => rfl, fun _ => rfl, .inl ⟨rfl, rfl⟩⟩
theorem ok_ecbDec : ecbDecOps.Ok := ⟨fun _ => rfl, fun _ _ => rfl, fun _ => rfl, fun _ => rfl, .inr ⟨rfl, rfl⟩⟩
theorem ok_cbcEnc : cbcEncOps.Ok := ⟨fun _ => rfl, fun _ _ => rfl, fun _ => rfl, fun _ => rfl, .inl ⟨rfl, rfl⟩⟩
theorem ok_cbcDec : cbcDecOps.Ok := ⟨fun _ => rfl, fun _ _ => rfl, fun _ => rfl, fun _ => rfl, .inr ⟨rfl, rfl⟩⟩

/-- A finished unit is idle with a clear workspace. -/
theorem finish_runInv (p : Params) (e : ErrCode) (r : Word) (u : CeUnit) : (u.finish e r).RunInv p where
  idle _ := ⟨rfl, rfl, rfl, rfl, rfl, rfl, rfl, rfl, rfl, rfl, rfl⟩
  checks h := by cases h
  running h := by cases h

/-- The report of a finished unit. -/
theorem finish_report (e : ErrCode) (r : Word) (u : CeUnit) (h : e ≠ .success → r = 0) :
    u.reportStep (u.finish e r) :=
  .inr ⟨rfl, rfl, rfl, by simp, by simpa using h⟩

/-- Checks that fail give one of three codes. -/
theorem cipherChecks_error {p : Params} {u : CeUnit} {e : ErrCode} (h : cipherChecks p u = .error e) :
    e ≠ .success := by
  unfold cipherChecks at h
  split at h
  · cases h; decide
  · split at h
    · cases h; decide
    · split at h
      · cases h
      · cases h; decide

/-- One step of a cipher command. -/
theorem cipherStep_spec {m : CipherOps} (hm : m.Ok) (p : Params) (k : Nat) (u : CeUnit)
    (hb : u.flags.busy = true) (hc : 1 ≤ u.cmd.toNat ∧ u.cmd.toNat ≤ 4) (hi : u.RunInv p) :
    CeStepOk p u (cipherStep m p k u) := by
  unfold cipherStep
  split
  · -- idle: not while busy
    rename_i hp
    exact absurd hp (hi.running hb (by simp [hp])).1
  · -- checks
    rename_i hp
    obtain ⟨-, -, hws⟩ := hi.checks hb hp
    split
    · rename_i er her
      exact ⟨finish_runInv _ _ _ _, ⟨rfl, rfl, rfl, rfl, rfl, rfl⟩, finish_report _ _ _ (fun _ => rfl), .inl rfl, .inl rfl⟩
    · rename_i v hv
      unfold cipherChecks at hv
      split at hv
      · cases hv
      · rename_i w hw
        split at hv
        · cases hv
        · split at hv
          · rename_i hl hr
            cases hv
            simp only [inRange, Bool.and_eq_true, decide_eq_true_eq] at hr
            have hn : v.nk ≤ 4 * (v.nr + 1) := by
              unfold variantOf at hw
              split at hw <;> simp at hw <;> subst hw <;> decide
            refine ⟨⟨fun h => ?_, fun _ h => (by cases h), fun _ _ => ⟨by simp, ?_⟩⟩, ⟨rfl, rfl, rfl, rfl, rfl, rfl⟩,
              .inl ⟨rfl, rfl, rfl, rfl⟩, .inl rfl, .inl rfl⟩
            · simp only [hb] at h; cases h
            · obtain ⟨-, -, -, -, -, -, -, hro, hof⟩ := hws
              refine ⟨hc.1, hc.2, hw, Decidable.not_not.mp hl, hr.1, hr.2, Nat.le_refl _, hn, ?_, ?_, ?_, ?_⟩
              · show u.round ≤ v.nr; omega
              · show u.off % 16 = 0; omega
              · show u.off ≤ u.len.toNat; omega
              · intro h; rcases h with h | h <;> cases h
          · cases hv
  · -- expand
    rename_i hp
    obtain ⟨-, h1, h2, hv, hl, hs, hd, hk, h4, hro, h16, hof, hlt⟩ := hi.running hb (by simp [hp])
    split
    · rename_i hlt4
      refine ⟨⟨fun h => ?_, fun _ h => ?_, fun _ _ => ⟨by simp [hp], ?_⟩⟩, ⟨rfl, rfl, rfl, rfl, rfl, rfl⟩,
        .inl ⟨rfl, rfl, rfl, rfl⟩, .inl rfl, .inl rfl⟩
      · simp only [hb] at h; cases h
      · simp [hp] at h
      · exact ⟨h1, h2, hv, hl, hs, hd, Nat.le_succ_of_le hk, hlt4, hro, h16, hof, hlt⟩
    · rw [hm.start]
      refine ⟨⟨fun h => ?_, fun _ h => (by cases h), fun _ _ => ⟨by simp, ?_⟩⟩, ⟨rfl, rfl, rfl, rfl, rfl, rfl⟩,
        .inl ⟨rfl, rfl, rfl, rfl⟩, .inl rfl, .inl rfl⟩
      · simp only [hb] at h; cases h
      · refine ⟨h1, h2, hv, hl, hs, hd, hk, h4, hro, rfl, Nat.zero_le _, ?_⟩
        intro h; rcases h with h | h <;> cases h
  · -- block
    rename_i hp
    obtain ⟨-, h1, h2, hv, hl, hs, hd, hk, h4, hro, h16, hof, hlt⟩ := hi.running hb (by simp [hp])
    split
    · rename_i ho
      rw [hm.load]
      rcases hm.dir with ⟨hf, -⟩ | ⟨hf, -⟩ <;> rw [hf]
      · refine ⟨⟨fun h => ?_, fun _ h => (by cases h), fun _ _ => ⟨by simp [encFirst], ?_⟩⟩,
          ⟨rfl, rfl, rfl, rfl, rfl, rfl⟩, .inl ⟨rfl, rfl, rfl, rfl⟩, .inl rfl, .inl rfl⟩
        · simp only [encFirst, hb] at h; cases h
        · exact ⟨h1, h2, hv, hl, hs, hd, hk, h4, Nat.zero_le _, h16, hof, fun _ => ho⟩
      · refine ⟨⟨fun h => ?_, fun _ h => (by cases h), fun _ _ => ⟨by simp [decFirst], ?_⟩⟩,
          ⟨rfl, rfl, rfl, rfl, rfl, rfl⟩, .inl ⟨rfl, rfl, rfl, rfl⟩, .inl rfl, .inl rfl⟩
        · simp only [decFirst, hb] at h; cases h
        · exact ⟨h1, h2, hv, hl, hs, hd, hk, h4, Nat.le_refl _, h16, hof, fun _ => ho⟩
    · exact ⟨finish_runInv _ _ _ _, ⟨rfl, rfl, rfl, rfl, rfl, rfl⟩, finish_report _ _ _ (fun h => absurd rfl h),
        .inl rfl, .inl rfl⟩
  · -- rounds
    rename_i hp
    obtain ⟨-, h1, h2, hv, hl, hs, hd, hk, h4, hro, h16, hof, hlt⟩ := hi.running hb (by simp [hp])
    have hlt := hlt (.inl hp)
    have hbusy : ∀ v : CeUnit, v.flags = u.flags → ¬v.flags.busy = false := by
      intro v hv h; rw [hv, hb] at h; cases h
    rcases hm.dir with ⟨-, hf⟩ | ⟨-, hf⟩ <;> rw [hf]
    · unfold encNext
      split
      · rename_i hr
        refine ⟨⟨fun h => absurd h (hbusy _ rfl), fun _ h => ?_, fun _ _ => ⟨?_, ?_⟩⟩,
          ⟨rfl, rfl, rfl, rfl, rfl, rfl⟩, .inl ⟨rfl, rfl, rfl, rfl⟩, .inl rfl, .inl rfl⟩
        · simp [hp] at h
        · simp [hp]
        · exact ⟨h1, h2, hv, hl, hs, hd, hk, h4, Nat.le_of_lt hr, h16, hof, fun _ => hlt⟩
      · refine ⟨⟨fun h => absurd h (hbusy _ rfl), fun _ h => (by cases h), fun _ _ => ⟨by simp, ?_⟩⟩,
          ⟨rfl, rfl, rfl, rfl, rfl, rfl⟩, .inl ⟨rfl, rfl, rfl, rfl⟩, .inl rfl, .inl rfl⟩
        exact ⟨h1, h2, hv, hl, hs, hd, hk, h4, Nat.le_refl _, h16, hof, fun _ => hlt⟩
    · unfold decNext
      split
      · rename_i hr
        refine ⟨⟨fun h => absurd h (hbusy _ rfl), fun _ h => ?_, fun _ _ => ⟨?_, ?_⟩⟩,
          ⟨rfl, rfl, rfl, rfl, rfl, rfl⟩, .inl ⟨rfl, rfl, rfl, rfl⟩, .inl rfl, .inl rfl⟩
        · simp [hp] at h
        · simp [hp]
        · exact ⟨h1, h2, hv, hl, hs, hd, hk, h4, Nat.le_trans (Nat.sub_le _ _) hro, h16, hof, fun _ => hlt⟩
      · refine ⟨⟨fun h => absurd h (hbusy _ rfl), fun _ h => (by cases h), fun _ _ => ⟨by simp, ?_⟩⟩,
          ⟨rfl, rfl, rfl, rfl, rfl, rfl⟩, .inl ⟨rfl, rfl, rfl, rfl⟩, .inl rfl, .inl rfl⟩
        exact ⟨h1, h2, hv, hl, hs, hd, hk, h4, Nat.zero_le _, h16, hof, fun _ => hlt⟩
  · -- store
    rename_i hp
    obtain ⟨-, h1, h2, hv, hl, hs, hd, hk, h4, hro, h16, hof, hlt⟩ := hi.running hb (by simp [hp])
    have hlt := hlt (.inr hp)
    simp only
    rw [hm.next, hm.fixup]
    refine ⟨⟨fun h => ?_, fun _ h => (by cases h), fun _ _ => ⟨by simp, ?_⟩⟩, ⟨rfl, rfl, rfl, rfl, rfl, rfl⟩,
      .inl ⟨rfl, rfl, rfl, rfl⟩, .inr ⟨u.dst.toNat + u.off, _, rfl, Nat.le_add_right _ _, ?_, hd⟩, .inl rfl⟩
    · simp only [hb] at h; cases h
    · refine ⟨h1, h2, hv, hl, hs, hd, hk, h4, hro, ?_, ?_, ?_⟩
      · show (u.off + 16) % 16 = 0; omega
      · show u.off + 16 ≤ u.len.toNat; omega
      · intro h; rcases h with h | h <;> cases h
    · simp only [Vector.length_toList]; omega

/-- `rng_draw(n)` gives `n` bytes. -/
theorem draw_length (k n : Nat) (r : Rng) : (Rng.draw k n r).1.length = n := by
  induction n generalizing r with
  | zero => rfl
  | succ n ih => simp [Rng.draw, ih]

/-- Everything a step of a busy cipher unit can do. -/
theorem ceStep_spec (p : Params) (k : Nat) (u : CeUnit) (hb : u.flags.busy = true) (hi : u.RunInv p) :
    CeStepOk p u (ceStep p k u) := by
  unfold ceStep
  split
  · rename_i h; exact cipherStep_spec ok_ecbEnc p k u hb (by omega) hi
  · rename_i h; exact cipherStep_spec ok_ecbDec p k u hb (by omega) hi
  · rename_i h; exact cipherStep_spec ok_cbcEnc p k u hb (by omega) hi
  · rename_i h; exact cipherStep_spec ok_cbcDec p k u hb (by omega) hi
  · rename_i h
    have hc : u.cmd = 0x05 := BitVec.eq_of_toNat_eq h
    unfold genIvStep
    split
    · rename_i hr
      simp only [inRange, decide_eq_true_eq] at hr
      simp only
      split
      · have hl := draw_length k u.len.toNat (u.rng.isAvailable k).2
        refine ⟨finish_runInv _ _ _ _, ⟨rfl, rfl, rfl, rfl, rfl, rfl⟩, finish_report _ _ _ (fun h => absurd rfl h),
          .inr ⟨_, _, rfl, Nat.le_refl _, by omega, hr⟩, .inr hc⟩
      · exact ⟨finish_runInv _ _ _ _, ⟨rfl, rfl, rfl, rfl, rfl, rfl⟩, finish_report _ _ _ (fun _ => rfl),
          .inl rfl, .inr hc⟩
    · exact ⟨finish_runInv _ _ _ _, ⟨rfl, rfl, rfl, rfl, rfl, rfl⟩, finish_report _ _ _ (fun _ => rfl), .inl rfl, .inl rfl⟩
  · exact ⟨finish_runInv _ _ _ _, ⟨rfl, rfl, rfl, rfl, rfl, rfl⟩, finish_report _ _ _ (fun _ => rfl), .inl rfl, .inl rfl⟩

/-- What a run of steps may do, from a unit `u`. -/
structure CeRunOk (p : Params) (u : CeUnit) (r : CeUnit) : Prop where
  inv      : r.RunInv p
  operands : u.sameOperands r
  report   : u.reportStep r
  wf       : u.buf.wf → r.buf.wf
  inside   : (∀ c ∈ u.buf, c.1 < p.bufSize.val) → ∀ c ∈ r.buf, c.1 < p.bufSize.val
  outside  : ∀ a, ¬(u.dst.toNat ≤ a ∧ a < u.dst.toNat + u.len.toNat) → r.buf.read? a = u.buf.read? a
  rng      : r.rng = u.rng ∨ u.cmd = 0x05

/-- Everything a run of a cipher unit can do, by induction from `ceStep_spec`. -/
theorem ceRun_spec (p : Params) (k n : Nat) (u : CeUnit) (hi : u.RunInv p) :
    CeRunOk p u (ceRun p k n u) := by
  induction n generalizing u with
  | zero => exact ⟨hi, ⟨rfl, rfl, rfl, rfl, rfl, rfl⟩, .inl ⟨rfl, rfl, rfl, rfl⟩, id, id, fun _ _ => rfl, .inl rfl⟩
  | succ n ih =>
    unfold ceRun
    split
    · rename_i hb
      have h1 := ceStep_spec p k u hb hi
      have h2 := ih (ceStep p k u) h1.inv
      generalize ceStep p k u = r at h1 h2
      generalize ceRun p k n r = q at h2
      obtain ⟨o1, o2, o3, o4, o5, o6⟩ := h1.operands
      obtain ⟨q1, q2, q3, q4, q5, q6⟩ := h2.operands
      refine ⟨h2.inv, ⟨q1.trans o1, q2.trans o2, q3.trans o3, q4.trans o4, q5.trans o5, q6.trans o6⟩, ?_, ?_, ?_, ?_, ?_⟩
      · rcases h2.report with ⟨a1, a2, a3, a4⟩ | ⟨a1, a2, a3, a4, a5⟩
        · rcases h1.report with ⟨b1, b2, b3, b4⟩ | ⟨b1, b2, b3, b4, b5⟩
          · exact .inl ⟨a1.trans b1, a2.trans b2, a3.trans b3, a4.trans b4⟩
          · exact .inr ⟨a1 ▸ b1, a1 ▸ b2, a1 ▸ b3, by rw [a1, a2]; exact b4, by rw [a1, a3]; exact b5⟩
        · rcases h1.report with ⟨b1, -, -, -⟩ | ⟨-, -, b3, -, -⟩
          · exact .inr ⟨a1, a2, a3.trans (by rw [b1]), a4, a5⟩
          · exact .inr ⟨a1, a2, a3.trans b3, a4, a5⟩
      · intro hw
        refine h2.wf ?_
        rcases h1.buf with h | ⟨a, bs, h, -, -, -⟩
        · rw [h]; exact hw
        · rw [h]; exact writeBytes_wf hw a bs
      · intro hw
        refine h2.inside ?_
        rcases h1.buf with h | ⟨a, bs, h, h3, h4, h5⟩
        · rw [h]; exact hw
        · rw [h]; exact writeBytes_inside hw (by omega)
      · intro a ha
        rw [h2.outside a (by rw [o5, o6]; exact ha)]
        rcases h1.buf with h | ⟨b, bs, h, h3, h4, -⟩
        · rw [h]
        · rw [h]; exact read?_writeBytes_ne _ _ _ _ (by omega)
      · rcases h2.rng with h | hc
        · rw [h]; exact h1.rng
        · refine .inr ?_
          rcases h1.report with ⟨-, -, -, b4⟩ | ⟨b1, -, -, -, -⟩
          · rw [← b4]; exact hc
          · rw [(h1.inv.idle b1).1] at hc; cases hc
    · exact ⟨hi, ⟨rfl, rfl, rfl, rfl, rfl, rfl⟩, .inl ⟨rfl, rfl, rfl, rfl⟩, id, id, fun _ _ => rfl, .inl rfl⟩

end Sys2Proof.Machine
end

