-- ==== Sys2Proof/Laws/HostPort.lean ====
section
/-!
SUPPORT. HOST's side: the parts of a register address, when a memory move is let through, what a step makes of a move that
is no register write, and that the units' steps commute.
-/

namespace Sys2Proof.Machine

/-- A register address is its unit and its offset (R37). -/
theorem regAddr_parts {k o : Nat} (hk : k < 16) (ho : o < 0x1000) :
    unitOf (regAddr k o) = k ∧ offsetOf (regAddr k o) = o := by
  unfold unitOf offsetOf regAddr
  simp only [BitVec.toNat_ofNat]
  omega

/-- HOST's access to BUF is let through exactly when the unit is idle, or no byte of it is one that the command in progress
writes or, for a write, reads. -/
theorem ceFree_iff (u : CeUnit) (a n : Nat) (forWrite : Bool) : ceFree u a n forWrite = true ↔
    ¬(u.flags.busy = true ∧
      ∃ j, j < n ∧ ((forWrite = true ∧ u.inSource (a + j)) ∨ u.inDestination (a + j))) := by
  have hs : ∀ x, u.reads x = true ↔ u.inSource x := by intro x; simp [CeUnit.reads, CeUnit.inSource, and_assoc]
  have hd : ∀ x, u.writes x = true ↔ u.inDestination x := by intro x; simp [CeUnit.writes, CeUnit.inDestination]
  unfold ceFree
  cases u.flags.busy
  · simp
  · cases forWrite <;> simp [← hs, ← hd, and_comm]

/-- Every command answers a next state. -/
theorem exec_next (i : Instr) (s : State) : ∃ t, exec i s = .next t := by cases i <;> exact ⟨_, rfl⟩

/-- A step whose next move is no register write is that move. -/
theorem step_move {s : State} {m : Move} {rest : List Move} (h : s.moves = m :: rest) (hm : ∀ a v, m ≠ .write a v) :
    step s = hostMove m (takeMove s) := by
  unfold step
  rw [h]
  cases m <;> first | rfl | exact absurd rfl (hm _ _)

/-- A step whose next move is a register write, a command or not, answers a next state. -/
theorem step_write {s : State} {a : RegAddr} {v : Word} {rest : List Move} (h : s.moves = .write a v :: rest) :
    ∃ t, step s = .next t := by
  unfold step
  rw [h]
  simp only [fetch]
  split <;> rename_i heq <;> split at heq <;> cases heq
  · exact exec_next _ _
  · exact ⟨_, rfl⟩
  · exact ⟨_, rfl⟩

/-! ## The units take their steps in any order (R275) -/

/-- Two cipher units. -/
theorem lapseCe_comm (s : State) (j k : Nat) : lapseCe j (lapseCe k s) = lapseCe k (lapseCe j s) := by
  by_cases h : j = k
  · rw [h]
  · simp only [lapseCe, onCe_params]
    exact onCe_comm _ _ _ _ _ (Ne.symm h)

/-- A cipher unit and BS. -/
theorem lapseCe_lapseBs (s : State) (k : Nat) : lapseCe k (lapseBs s) = lapseBs (lapseCe k s) := by
  simp only [lapseCe, lapseBs, onCe_params, onCe_fwb, onCe_img, onBs_params]
  exact (onCe_onBs _ _ _ _).symm

end Sys2Proof.Machine
end

