-- ==== Sys2Proof/Laws/PerInstr.lean ====
section
/-!
SUPPORT. The family `CodeGroup` of statements about the instructions as syntax: one lemma per constructor.
-/

namespace Sys2Proof.Laws.CodeGroup

/-- The bus action of a well-formed command is a write to offset 0 of its unit, and the group bits of its code are 1 for
the bootloader sequencer and 0 for a cipher unit (spec/30_encoding.md R92, R93; spec/10_state.md R37). -/
def Statement (i : Instr) : Prop :=
  i.wellFormed = true →
    offsetOf (encode i).1 = 0 ∧ unitOf (encode i).1 = targetUnit i ∧
      groupField (encode i).2 = if targetUnit i = bsUnit then 1 else 0

/-- A command register's address gives back its unit, and its offset is 0. -/
theorem commandRegister_parts {u : Nat} (h : u < 16) : offsetOf (regAddr u 0) = 0 ∧ unitOf (regAddr u 0) = u := by
  unfold offsetOf unitOf regAddr
  rw [BitVec.toNat_ofNat]
  omega

theorem ofCipher {i : Instr} {k : Nat} (hw : i.wellFormed = true → k < 15) (hu : targetUnit i = k)
    (hg : groupField (codeOf i) = 0) : Statement i := by
  intro h
  have hk := hw h
  obtain ⟨h1, h2⟩ := commandRegister_parts (show k < 16 by omega)
  refine ⟨by unfold encode; rw [hu]; exact h1, by unfold encode; rw [hu]; exact h2, ?_⟩
  rw [hu, if_neg (by unfold bsUnit; omega)]
  exact hg

theorem ecbEnc (k : Nat) : Statement (.ecbEnc k) := ofCipher (k := k) (fun h => of_decide_eq_true h) rfl (by simp only [codeOf]; decide)
theorem ecbDec (k : Nat) : Statement (.ecbDec k) := ofCipher (k := k) (fun h => of_decide_eq_true h) rfl (by simp only [codeOf]; decide)
theorem cbcEnc (k : Nat) : Statement (.cbcEnc k) := ofCipher (k := k) (fun h => of_decide_eq_true h) rfl (by simp only [codeOf]; decide)
theorem cbcDec (k : Nat) : Statement (.cbcDec k) := ofCipher (k := k) (fun h => of_decide_eq_true h) rfl (by simp only [codeOf]; decide)
theorem genIv (k : Nat) : Statement (.genIv k) := ofCipher (k := k) (fun h => of_decide_eq_true h) rfl (by simp only [codeOf]; decide)
theorem devInit : Statement .devInit := fun _ => by decide
theorem blkStart : Statement .blkStart := fun _ => by decide
theorem blkWrite : Statement .blkWrite := fun _ => by decide
theorem chunkWrite : Statement .chunkWrite := fun _ => by decide
theorem blkProgram : Statement .blkProgram := fun _ => by decide
theorem devLoad : Statement .devLoad := fun _ => by decide

end Sys2Proof.Laws.CodeGroup
end

