-- ==== Sys2Proof/Tests/Slice0.lean ====
section
/-!
SUPPORT. The model's own tests: command codes written out bit by bit, the well-formedness check, vectors of
spec/95_test_vectors.md (each test names its vector), and for every obligation with hypotheses a state that meets them.
-/

namespace Sys2Proof.Tests

-- One theorem at a time: the many kernel evaluations below, elaborated side by side, take a thread each.
set_option Elab.async false

open Sys2Proof.Machine

/-! ## Small machines -/

/-- The parameter instance of spec/95_test_vectors.md section 2. -/
def params : Params :=
  { moreCe := 0, bufSize := 65536, fwbSize := 65536
    regions := #v[⟨0, 0x000000, ⟨0xFFFF, by decide⟩⟩, ⟨1, 0x200000, ⟨0x7, by decide⟩⟩,
      ⟨2, 0x300000, ⟨0xD, by decide⟩⟩, ⟨3, 0xF00000, ⟨0xFF, by decide⟩⟩]
    classProtocol := 0
    typeEnterBoot := 12, typeEnterBootAck := 13, typeEnterBootNack := 14
    typeStartBlock := 15, typeStartBlockAck := 50, typeStartBlockNack := 51
    typeBlockData := 16, typeBlockDataAck := 17, typeBlockDataNack := 18
    typeProgramBlock := 19, typeProgramBlockAck := 20, typeProgramBlockNack := 21
    expectedBootAlgorithm := 0, defaultTimeoutMs := 1000, crc16Init := 0xFFFF }

/-- The GUID of section 2: `00 11 22 ... ff`. -/
def guid : Guid := Vector.ofFn fun i => BitVec.ofNat 8 (0x11 * i.val)

/-- Bytes as a block. -/
def block (bytes : List Byte) : Block := Vector.ofFn fun k => bytes.getD k.val 0

/-- Bytes as a key. -/
def keyOf (bytes : List Byte) : Vector Byte 32 := Vector.ofFn fun k => bytes.getD k.val 0

/-- The AES-128 key of section 3. -/
def key128 : Vector Byte 32 :=
  keyOf [0x2b, 0x7e, 0x15, 0x16, 0x28, 0xae, 0xd2, 0xa6, 0xab, 0xf7, 0x15, 0x88, 0x09, 0xcf, 0x4f, 0x3c]

/-- The key of V20 to V22: `00 01 02 ...`. -/
def keyUp : Vector Byte 32 := Vector.ofFn fun k => BitVec.ofNat 8 k.val

/-- `00 01 02 ... 0f`, the state of V16 and the IV of V27. -/
def up : Block := Vector.ofFn fun k => BitVec.ofNat 8 k.val

/-- `00 11 22 ... ff`, the input of V20 to V22. -/
def elevens : Block := Vector.ofFn fun k => BitVec.ofNat 8 (0x11 * k.val)

/-- The first block of `PT` (V24). -/
def plain : List Byte :=
  [0x6b, 0xc1, 0xbe, 0xe2, 0x2e, 0x40, 0x9f, 0x96, 0xe9, 0x3d, 0x7e, 0x11, 0x73, 0x93, 0x17, 0x2a]

/-- The first block of V24. -/
def ecbText : List Byte :=
  [0x3a, 0xd7, 0x7b, 0xb4, 0x0d, 0x7a, 0x36, 0x60, 0xa8, 0x9e, 0xca, 0xf3, 0x24, 0x66, 0xef, 0x97]

/-- The first block of V27. -/
def cbcText : List Byte :=
  [0x76, 0x49, 0xab, 0xac, 0x81, 0x19, 0xb2, 0x46, 0xce, 0xe9, 0x8e, 0x9b, 0x12, 0xe9, 0x19, 0x7d]

/-- A cipher unit after reset, with operands written and bytes put at address 0 of BUF. -/
def unit (variant : Half) (src dst len : Word) (bytes : List Byte := []) : CeUnit :=
  { CeUnit.reset Rng.powerOn (Memory.writeBytes [] 0 bytes) with
    key := key128, iv := up, variant := variant, src := src, dst := dst, len := len }

/-- An environment in which every send succeeds, the queue holds `answers`, and `now()` gives 5000, 5001, ... -/
def env (answers : List (PortStatus × Event)) : Env :=
  { timer := 4999, ticks := List.replicate 16 1
    sendStatus := answers.map fun _ => .ok, counts := answers.map fun _ => (.ok, 1), receives := answers
    registers := [(.ok, 0, 0x1234)], draws := 0, sent := [], messages := [] }

/-- An event from the session's node. -/
def event (typ : Half) (data : List Byte := []) : Event :=
  { cls := 0, typ := typ, timestamp := 0, guid := guid,
    len := ⟨min 512 data.length, by omega⟩, data := ⟨(data.take 512).toArray, by simp⟩ }

/-- A successful receive of such an event. -/
def answer (typ : Half) (data : List Byte := []) : PortStatus × Event := (.ok, event typ data)

/-- The enter-bootloader ACK of section 2: 64, 10. -/
def enterAck : PortStatus × Event := answer 13 [0, 0, 0, 0x40, 0, 0, 0, 0x0a]

/-- BS after reset with the operands of section 2. -/
def bsIdle : BsUnit :=
  { BsUnit.reset 1000 with guid := guid, nickname := 0x2A, page := 1, devcode := 0x1234, ctrl := 8 }

/-- BS in a session with that node, in session state `st`, of blocks of `size` bytes. -/
def session (st : SessionState) (size : Word := 64) : BsUnit :=
  { bsIdle with
    state := st, blockSize := size, numBlocks := 10, chunkSize := 8
    sGuid := guid, sNickname := 0x2A, sPage := 1, sDevcode := 0x1234, sTimeout := 1000, sCtrl := 8 }

/-- A cipher unit that has just accepted `ECB_ENC`. -/
def busyUnit : CeUnit := (unit 128 0 16 16 plain).accept 0x01

/-- BS waiting for the answer to a start-block request. -/
def waitingBs : BsUnit := { (session .bootModeConfirmed).accept 0x11 with point := .wait (.startBlock 5), deadlineT0 := 5000 }

/-- A machine with one cipher unit. -/
def machine (u : CeUnit) (b : BsUnit) (e : Env) : State :=
  { params := params, ces := [u], bs := b, fwb := [], img := [], env := e, moves := [], pace := 128, readData := some 0 }

/-- A machine for the cipher commands. -/
def cipherMachine (u : CeUnit) : State := machine u bsIdle (env [])

/-- A machine for the bootloader commands. -/
def bootMachine (b : BsUnit) (answers : List (PortStatus × Event) := []) : State := machine (unit 0 0 0 0) b (env answers)

/-- A machine with one HOST move pending. -/
def withMove (m : Move) (s : State) : State := { s with moves := [m] }

/-- The state a command leads to. -/
def after (i : Instr) (s : State) : State :=
  match exec i s with
  | .next t => t
  | .fault _ => s
  | .refused _ => s

/-- The report of cipher unit 0: `CE_STATUS`, `CE_ERR`, `CE_RESULT`. -/
def ceReport (s : State) : List Nat :=
  s.ces.map (fun u => (u.flags.toByte false).toNat) ++ s.ces.map (fun u => u.err.toByte.toNat) ++
    s.ces.map fun u => u.result.toNat

/-- Bytes of BUF of cipher unit 0. -/
def bufBytes (s : State) (a n : Nat) : List Byte := s.ces.flatMap fun u => memRead (.buf 0) u.buf a n

/-- The report of BS: `BS_STATUS`, `BS_ERR`, `BS_STATE`. -/
def bsReport (s : State) : List Nat :=
  [(s.bs.flags.toByte s.bs.warn).toNat, s.bs.err.toByte.toNat, s.bs.state.toByte.toNat]

/-- What was sent: types and payloads. -/
def sentEvents (s : State) : List (Half × List Byte) := s.env.sent.map fun e => (e.typ, e.payload)

/-- The status port: progress and message id. -/
def statusPort (s : State) : List (Int × Nat) := s.env.messages.map fun m => (m.1.toInt, m.2.toByte.toNat)

/-! ## Codes (R92, R93, R97), group field first -/

theorem test_decode_cipher_codes :
    decodeTableWord 8 0b0000_0001 = some (.ecbEnc 0) ∧ decodeTableWord 8 0b0000_0010 = some (.ecbDec 0) ∧
    decodeTableWord 8 0b0000_0011 = some (.cbcEnc 0) ∧ decodeTableWord 8 0b0000_0100 = some (.cbcDec 0) ∧
    decodeTableWord 8 0b0000_0101 = some (.genIv 0) := by decide

theorem test_decode_bootloader_codes :
    decodeTableWord 8 0b0001_0000 = some .devInit ∧ decodeTableWord 8 0b0001_0001 = some .blkStart ∧
    decodeTableWord 8 0b0001_0010 = some .blkWrite ∧ decodeTableWord 8 0b0001_0011 = some .chunkWrite ∧
    decodeTableWord 8 0b0001_0100 = some .blkProgram ∧ decodeTableWord 8 0b0001_0101 = some .devLoad := by decide

theorem test_decode_reserved_codes :
    decodeTableWord 8 0x00 = none ∧ decodeTableWord 8 0x06 = none ∧ decodeTableWord 8 0x0F = none ∧
    decodeTableWord 8 0x16 = none ∧ decodeTableWord 8 0x1F = none ∧ decodeTableWord 8 0x20 = none ∧
    decodeTableWord 8 0xFF = none ∧ decodeTableWord 8 0x101 = none ∧ decodeTableWord 16 0x01 = none := by decide

/-- The register addresses of P1 and P3, a second cipher unit's, and the four ways a write is no command. -/
theorem test_decode_addresses :
    decode 0x0000 0x01 = .ok (.ecbEnc 0) ∧ decode 0x2000 0x04 = .ok (.cbcDec 2) ∧ decode 0xF000 0x15 = .ok .devLoad ∧
    decode 0x0004 0x01 = .error .notCommandRegister ∧ decode 0x0000 0x06 = .error .reservedFunction ∧
    decode 0xF000 0x27 = .error .reservedGroup ∧ decode 0xF000 0x01 = .error .wrongUnit ∧
    decode 0x0000 0x10 = .error .wrongUnit := by decide

theorem test_encode_words :
    encode (.ecbEnc 0) = (0x0000, 0x01) ∧ encode (.cbcEnc 14) = (0xE000, 0x03) ∧ encode .devLoad = (0xF000, 0x15) := by
  decide

/-! ## Well-formedness: an ill-formed term for each check -/

theorem test_wellFormed_ecbEnc : (Instr.ecbEnc 15).wellFormed = false := by decide
theorem test_wellFormed_ecbDec : (Instr.ecbDec 15).wellFormed = false := by decide
theorem test_wellFormed_cbcEnc : (Instr.cbcEnc 16).wellFormed = false := by decide
theorem test_wellFormed_cbcDec : (Instr.cbcDec 15).wellFormed = false := by decide
theorem test_wellFormed_genIv : (Instr.genIv 15).wellFormed = false ∧ (Instr.genIv 14).wellFormed = true := by decide

/-! ## The cipher's arithmetic (V13 to V18, V20 to V22) -/

/-- V13, V14. -/
theorem test_field :
    [0x00, 0x01, 0x57, 0xae, 0x47, 0x8e, 0x80, 0xff].map xtime = [0x00, 0x02, 0xae, 0x47, 0x8e, 0x07, 0x1b, 0xe5] ∧
    gmul 0x57 0x13 = 0xfe ∧ gmul 0x57 0x83 = 0xc1 ∧ gmul 0x53 0xca = 0x01 ∧ gmul 0xbf 0x03 = 0xda ∧
    gmul 0x57 0x09 = 0xd9 ∧ gmul 0x57 0x0b = 0x77 ∧ gmul 0x57 0x0d = 0x9e ∧ gmul 0x57 0x0e = 0x67 := by
  decide +kernel

/-- V15. -/
theorem test_tables :
    sbox 0x00 = 0x63 ∧ sbox 0x53 = 0xed ∧ sbox 0xff = 0x16 ∧ invSbox 0x00 = 0x52 ∧ invSbox 0x63 = 0x00 ∧
    invSbox 0xed = 0x53 ∧ (List.range' 1 10).map rcon = [0x01, 0x02, 0x04, 0x08, 0x10, 0x20, 0x40, 0x80, 0x1b, 0x36] := by
  decide +kernel

/-- V16. -/
theorem test_shifts_and_mixes :
    (shiftRows up).toList = [0, 5, 10, 15, 4, 9, 14, 3, 8, 13, 2, 7, 12, 1, 6, 11] ∧
    (invShiftRows up).toList = [0, 13, 10, 7, 4, 1, 14, 11, 8, 5, 2, 15, 12, 9, 6, 3] ∧
    (mixColumns up).toList = [2, 7, 0, 5, 6, 3, 4, 1, 10, 15, 8, 13, 14, 11, 12, 9] ∧
    (invMixColumns up).toList = [10, 15, 8, 13, 14, 11, 12, 9, 2, 7, 0, 5, 6, 3, 4, 1] := by decide +kernel

/-- Section 3: a word of the plain step, the last word, and the words of the extra substitution for 256. -/
theorem test_schedule :
    (scheduleWord (expandKey key128 ⟨4, 10⟩) 4).toList = [0xa0, 0xfa, 0xfe, 0x17] ∧
    (scheduleWord (expandKey key128 ⟨4, 10⟩) 43).toList = [0xb6, 0x63, 0x0c, 0xa6] ∧
    (scheduleWord (expandKey (keyOf (List.replicate 24 0xff)) ⟨6, 12⟩) 51).toList = [0x13, 0x30, 0xb4, 0x18] ∧
    (scheduleWord (expandKey (keyOf []) ⟨8, 14⟩) 12).toList = [0xaa, 0xfb, 0xfb, 0xfb] ∧
    (scheduleWord (expandKey (keyOf []) ⟨8, 14⟩) 59).toList = [0xcb, 0x70, 0x63, 0x85] := by decide +kernel

/-- V21. -/
theorem test_encBlock_192 :
    (encBlock (expandKey keyUp ⟨6, 12⟩) 12 elevens).toList =
      [0xdd, 0xa9, 0x7c, 0xa4, 0x86, 0x4c, 0xdf, 0xe0, 0x6e, 0xaf, 0x70, 0xa0, 0xec, 0x0d, 0x71, 0x91] := by
  decide +kernel

/-- V22. -/
theorem test_decBlock_256 :
    decBlock (expandKey keyUp ⟨8, 14⟩) 14
      (block [0x8e, 0xa2, 0xb7, 0xca, 0x51, 0x67, 0x45, 0xbf, 0xea, 0xfc, 0x49, 0x90, 0x4b, 0x49, 0x60, 0x89]) =
      elevens := by decide +kernel

/-! ## The cipher commands -/

/-- V1, P1. -/
theorem test_ecbEnc :
    let t := after (.ecbEnc 0) (cipherMachine (unit 128 0 16 16 plain))
    ceReport t = [0x02, 0, 16] ∧ bufBytes t 0 32 = plain ++ ecbText := by decide +kernel

/-- P1, in place. -/
theorem test_ecbDec :
    let t := after (.ecbDec 0) (cipherMachine (unit 128 0 0 16 ecbText))
    ceReport t = [0x02, 0, 16] ∧ bufBytes t 0 16 = plain := by decide +kernel

/-- V27's first block. -/
theorem test_cbcEnc :
    let t := after (.cbcEnc 0) (cipherMachine (unit 128 0 16 16 plain))
    ceReport t = [0x02, 0, 16] ∧ bufBytes t 0 32 = plain ++ cbcText := by decide +kernel

/-- V33's first block, in place. -/
theorem test_cbcDec :
    let t := after (.cbcDec 0) (cipherMachine (unit 128 0 0 16 cbcText))
    ceReport t = [0x02, 0, 16] ∧ bufBytes t 0 16 = plain := by decide +kernel

/-- V30, V31: the order of the checks, and the empty range at the end of BUF. -/
theorem test_cipher_checks :
    ceReport (after (.ecbEnc 0) (cipherMachine (unit 0 0 0 16))) = [0x06, 8, 0] ∧
    ceReport (after (.ecbDec 0) (cipherMachine (unit 129 0xFFF8 0 20))) = [0x06, 8, 0] ∧
    ceReport (after (.ecbEnc 0) (cipherMachine (unit 128 0xFFF8 0 20))) = [0x06, 9, 0] ∧
    ceReport (after (.cbcEnc 0) (cipherMachine (unit 128 0 0xFFF1 16))) = [0x06, 10, 0] ∧
    ceReport (after (.ecbEnc 0) (cipherMachine (unit 128 0xFFFFFFF0 0 32))) = [0x06, 10, 0] ∧
    ceReport (after (.cbcDec 0) (cipherMachine (unit 192 65536 65536 0))) = [0x02, 0, 0] ∧
    ceReport (after (.cbcDec 0) (cipherMachine (unit 128 65537 65536 0))) = [0x06, 10, 0] := by decide +kernel

/-- A random source that answers. -/
def source (available : Bool) : Rng :=
  { available := [available], bytes := [0xd0, 0xd1, 0xd2, 0xd3, 0xd4, 0xd5], draws := 0 }

/-- V37: five bytes with variant 0. -/
theorem test_genIv_available :
    let t := after (.genIv 0) (cipherMachine { unit 0 0 0x40 5 with rng := source true })
    ceReport t = [0x02, 0, 5] ∧ bufBytes t 0x40 5 = [0xd0, 0xd1, 0xd2, 0xd3, 0xd4] ∧
    t.ces.map (fun u => u.rng.bytes) = [[0xd5]] := by
  decide +kernel

/-- V37: the source unavailable; out of range, where nothing is drawn. -/
theorem test_genIv_unavailable :
    let t := after (.genIv 0) (cipherMachine { unit 0 0 0x40 5 with rng := source false })
    let r := after (.genIv 0) (cipherMachine { unit 0 0 0xFFF8 16 with rng := source true })
    ceReport t = [0x02, 0, 0] ∧ t.ces.map (fun u => u.buf) = [[]] ∧ ceReport r = [0x06, 10, 0] ∧
    r.ces.map (fun u => u.rng) = [source true] := by decide +kernel

/-- V39: illegal codes on either unit. -/
theorem test_illegal_codes :
    ceReport (refuseIllegal 0x0000 0x06 (cipherMachine (unit 128 0 0 0))) = [0x06, 12, 0] ∧
    bsReport (refuseIllegal 0xF000 0x01 (bootMachine (session .blockStarted))) = [0x06, 12, 4] := by decide +kernel

/-- V39: a write to a busy unit's command register: `BUSY` and `OVR`, then `DONE` and `OVR` at completion. -/
theorem test_overrun :
    let s := { cipherMachine (unit 128 0 0 0) with pace := 0 }
    let t := after (.cbcEnc 0) (after (.ecbEnc 0) s)
    ceReport t = [0x11, 0, 0] ∧ ceReport (after (.ecbEnc 0) s) = [0x01, 0, 0] ∧
    (t.ces.map fun u => ((ceRun params 0 64 u).flags.toByte false).toNat) = [0x12] := by decide +kernel

/-! ## The bootloader commands -/

/-- V40. -/
theorem test_devInit :
    let t := after .devInit (bootMachine bsIdle [enterAck])
    bsReport t = [0x02, 0, 3] ∧ sentEvents t = [(12, [0x2a, 0, 0, 0x33, 0x55, 0x77, 0, 1])] ∧
    [t.bs.blockSize, t.bs.numBlocks, t.bs.chunkSize] = [64, 10, 8] ∧ t.bs.checksum = 0xFFFF ∧
    t.bs.remoteDevcode = 0x1234 ∧ statusPort t = [(-1, 1), (-1, 2), (-1, 4), (-1, 5)] := by decide +kernel

/-- V45: the block size below the chunk size. -/
theorem test_devInit_size :
    let t := after .devInit (bootMachine bsIdle [answer 13 [0, 0, 0, 4, 0, 0, 0, 0x0a]])
    bsReport t = [0x06, 5, 8] ∧ sentEvents t = [(12, [0x2a, 0, 0, 0x33, 0x55, 0x77, 0, 1])] ∧
    [t.bs.blockSize, t.bs.numBlocks, t.bs.chunkSize] = [4, 10, 8] ∧
    statusPort t = [(-1, 1), (-1, 2), (-1, 4), (-1, 9)] := by decide +kernel

/-- V50. -/
theorem test_blkStart :
    let b := { session .bootModeConfirmed with blockNo := 0x102, memtype := 1, chunkIdx := 3 }
    let t := after .blkStart (bootMachine b [answer 50])
    bsReport t = [0x02, 0, 4] ∧ sentEvents t = [(15, [0, 0, 1, 2, 1, 0, 0, 0])] ∧ t.bs.curBlock = 0x102 ∧
    t.bs.chunkIdx = 0 := by decide +kernel

/-- V50: the NACK, and the wrong state. -/
theorem test_blkStart_fails :
    let t := after .blkStart (bootMachine { session .bootModeConfirmed with blockNo := 0x102 } [answer 51])
    let r := after .blkStart (bootMachine (session .blockStarted) [answer 50])
    bsReport t = [0x06, 3, 8] ∧ t.bs.curBlock = 0 ∧ bsReport r = [0x06, 11, 4] ∧ sentEvents r = [] := by decide +kernel

/-- V51, and P5's line 6 on a block of 64 bytes. -/
theorem test_chunkWrite :
    let s := { bootMachine { session .blockStarted with src := 0x100, chunkLen := 8 } [answer 17] with
      fwb := Memory.writeBytes [] 0x100 [0x80, 0x81, 0x82, 0x83, 0x84, 0x85, 0x86, 0x87, 0x88] }
    let t := after .chunkWrite s
    bsReport t = [0x02, 0, 4] ∧ t.bs.chunkIdx = 1 ∧
    sentEvents t = [(16, [0x80, 0x81, 0x82, 0x83, 0x84, 0x85, 0x86, 0x87])] := by decide +kernel

/-- V51: the checks in their order. -/
theorem test_chunkWrite_refused :
    let go := fun (st : SessionState) (src len : Word) =>
      bsReport (after .chunkWrite (bootMachine { session st with src := src, chunkLen := len }))
    go .blockStarted 0 9 = [0x06, 5, 4] ∧ go .blockStarted 0xFFFC 8 = [0x06, 10, 4] ∧
    go .bootModeConfirmed 0 9 = [0x06, 11, 3] := by decide +kernel

/-- V60 and V61 in small: a block of 12 bytes goes as chunks of 8 and 4. -/
theorem test_blkWrite :
    let s := { bootMachine (session .blockStarted 12) [answer 17, answer 17] with
      fwb := Memory.writeBytes [] 0 [0, 1, 2, 3, 4, 5, 6, 7, 8, 9, 10, 11, 12] }
    let t := after .blkWrite s
    bsReport t = [0x02, 0, 5] ∧ t.bs.chunkIdx = 2 ∧
    sentEvents t = [(16, [0, 1, 2, 3, 4, 5, 6, 7]), (16, [8, 9, 10, 11])] := by decide +kernel

/-- P5, lines 7 and 13. -/
theorem test_blkWrite_refused :
    bsReport (after .blkWrite (bootMachine { session .blockStarted with chunkIdx := 1 })) = [0x06, 11, 4] ∧
    bsReport (after .blkWrite (bootMachine { session .blockStarted with src := 0xFFF0 })) = [0x06, 10, 4] := by
  decide +kernel

/-- V52. -/
theorem test_blkProgram :
    let t := after .blkProgram (bootMachine { session .blockWritten with blockNo := 0x102 } [answer 20])
    bsReport t = [0x02, 0, 6] ∧ sentEvents t = [(19, [0, 0, 1, 2])] := by decide +kernel

/-- V66. -/
theorem test_devLoad_empty :
    let t := after .devLoad (bootMachine (session .bootModeConfirmed))
    bsReport t = [0x02, 0, 7] ∧ t.bs.region = 4 ∧ sentEvents t = [] ∧ statusPort t = [(100, 8)] := by decide +kernel

/-- P4's region 3 in small: blocks of 8 bytes, the image's bytes `de ad` at `0xF00013`. -/
theorem test_devLoad :
    let s := { bootMachine (session .bootModeConfirmed 8) [answer 50, answer 17, answer 20] with
      img := [(0xF00013, 0xde), (0xF00014, 0xad)] }
    let t := after .devLoad s
    bsReport t = [0x02, 0, 7] ∧ t.bs.region = 4 ∧ t.bs.blockIdx = 1 ∧ t.bs.curBlock = 0x1E0002 ∧
    sentEvents t = [(15, [0, 0x1e, 0, 2, 3, 0, 0, 0]), (16, [0xff, 0xff, 0xff, 0xde, 0xad, 0xff, 0xff, 0xff]),
      (19, [0, 0x1e, 0, 2])] ∧
    statusPort t = [(-1, 6), (100, 7), (100, 8)] := by decide +kernel

/-- V64. -/
theorem test_spans :
    let code := regionOf params 0
    span [(70, 1), (129, 2), (0x200000, 3)] code = some (70, 130) ∧ loadBlocks 64 70 130 = (64, 2) ∧
    loadBlocks 64 63 64 = (0, 1) ∧ loadBlocks 64 63 65 = (0, 2) ∧ loadBlocks 64 0 640 = (0, 10) ∧
    span [(0xF00010, 1), (0xF00013, 2)] code = none ∧
    span [(0xF00010, 1), (0xF00013, 2)] (regionOf params 3) = some (0xF00010, 0xF00014) := by decide +kernel

/-- V65. -/
theorem test_progress :
    (List.range' 1 7).map (fun k => progressOf k 7) = [14, 28, 42, 57, 71, 85, 100] ∧ progressOf 1 1 = 100 := by
  decide +kernel

/-! ## A step -/

/-- The table word 0x01 as the next step, and a HOST write and read of an operand register. -/
theorem test_step_withFetchWord :
    step ((cipherMachine (unit 128 0 0 0)).withFetchWord 8 0x01) = exec (.ecbEnc 0) (cipherMachine (unit 128 0 0 0)) := by
  rfl

/-- P3's line 7, read back: `BS_CTRL` keeps its low four bits (R36). -/
theorem test_register_readBack :
    (hostRead 0xF044 (hostWrite 0xF044 0xFA (bootMachine bsIdle))).readData = some 0x0A ∧
    (hostRead 0x0021 (hostWrite 0x0021 0x17E (cipherMachine (unit 0 0 0 0)))).readData = some 0x7E := by decide +kernel

/-- The fault a step ends in, if it does. -/
def stopOf (s : State) : Option Fault :=
  match step s with
  | .next _ => none
  | .fault f => some f
  | .refused _ => none

/-- R79, R60: HOST at a byte a busy unit reads or writes, and outside the memories; a busy unit's source may be read. -/
theorem test_host_memory_moves :
    let busy := cipherMachine ((unit 128 0 16 16 plain).accept 0x01)
    stopOf (withMove (.bufWrite 0 0 [1]) busy) = some .hostTouchesBusyMemory ∧
    stopOf (withMove (.bufRead 0 31) busy) = some .hostTouchesBusyMemory ∧
    stopOf (withMove (.bufRead 0 15) busy) = none ∧ stopOf (withMove (.bufWrite 0 32 [1]) busy) = none ∧
    stopOf (withMove (.fwbRead 65536) busy) = some .hostAddressOutside ∧
    stopOf (withMove (.bufRead 1 0) busy) = some .hostAddressOutside := by decide +kernel

/-- What HOST's read data is after a step. -/
def readAfter (s : State) : Option Word :=
  match step s with
  | .next t => t.readData
  | .fault _ => none
  | .refused _ => none

/-- R20, R63: a populated address of IMG and an unpopulated one. -/
theorem test_imgRead :
    let s := { bootMachine waitingBs with img := [(0xF00013, 0xde)] }
    readAfter (withMove (.imgRead 0xF00013) s) = some 0xde ∧ readAfter (withMove (.imgRead 0xF00014) s) = none := by
  decide +kernel

/-- The phase of each cipher unit and the pending answers of BS after a step. -/
def progressAfter (s : State) : List CePhase × Nat :=
  match step s with
  | .next t => (t.ces.map fun u => u.phase, t.env.counts.length)
  | .fault _ => ([], 0)
  | .refused _ => ([], 0)

/-- R20: one unit alone takes a step: CE[1], BS; R256: a `WAIT` on a unit that does not exist stops no unit. -/
theorem test_solo_steps :
    let s := { machine busyUnit waitingBs (env [answer 17]) with ces := [busyUnit, busyUnit] }
    progressAfter (withMove (.lapseCe 1) s) = ([.checks, .expand], 1) ∧
    progressAfter (withMove .lapseBs s) = ([.checks, .checks], 0) ∧
    progressAfter (withMove (.waitCe 2) s) = ([.expand, .expand], 0) := by decide +kernel

/-- R275: two units draw in either order, and BS sends, with the same end. -/
theorem test_interleaved_draws :
    let draw (b : Byte) : CeUnit :=
      { unit 0 0 0 1 with rng := { available := [true], bytes := [b], draws := 0 } }.accept 0x05
    let s := { machine (draw 1) waitingBs (env [answer 17]) with ces := [draw 1, draw 2] }
    let t := lapseCe 0 (lapseBs (lapseCe 1 s))
    lapseCe 1 (lapseBs (lapseCe 0 s)) = t ∧ t.ces.map (fun u => u.buf) = [[(0, 1)], [(0, 2)]] := by decide +kernel

/-- R37: a `WAIT` on unit 15 does not read the status of BS, nor one on unit 16 that of CE[0]. -/
theorem test_wait_beyond_map :
    let done : Flags := { busy := false, done := true, err := false, ovr := false }
    let s := machine { unit 0 0 0 0 with flags := done } { bsIdle with flags := done } (env [])
    readAfter (withMove (.waitCe 0) s) = some 2 ∧ readAfter (withMove .waitBs s) = some 2 ∧
    readAfter (withMove (.waitCe 15) s) = some 0 ∧ readAfter (withMove (.waitCe 16) s) = some 0 := by decide +kernel

/-! ## Witnesses

For every obligation with hypotheses, a state and operands that meet them all; for one with several clauses, one for each
clause, at the ends of its ranges. Each is named after its obligation. -/

theorem witness_CommandMap :
    (14 < 15 ∧ (0 : Byte) ∉ [1, 2, 3, 4, 5]) ∧
    (¬(1 ≤ (0x00 : Byte).toNat ∧ (0x00 : Byte).toNat ≤ 5) ∧ ¬(1 ≤ (0x06 : Byte).toNat ∧ (0x06 : Byte).toNat ≤ 5)) ∧
    ¬(0x10 ≤ (0x0F : Byte).toNat ∧ (0x0F : Byte).toNat ≤ 0x15) ∧
    ¬(0x10 ≤ (0x16 : Byte).toNat ∧ (0x16 : Byte).toNat ≤ 0x15) := by decide

theorem witness_DecodeInvertsEncode :
    (Instr.genIv 14).wellFormed = true ∧ (Instr.ecbEnc 0).wellFormed = true ∧ Instr.devLoad.wellFormed = true := by decide

theorem witness_EncodeInvertsDecode :
    decode 0xE000 0x05 = .ok (.genIv 14) ∧ decode 0x0000 0x01 = .ok (.ecbEnc 0) ∧ decode 0xF000 0x10 = .ok .devInit := by
  decide

theorem witness_StepRunsDecodedCommand :
    (withMove (.write 0xF000 0x15) (bootMachine bsIdle)).moves = .write 0xF000 0x15 :: [] ∧
    decode 0xF000 ((0x15 : Word).setWidth 8) = .ok .devLoad ∧ decodeTableWord 8 0x05 = some (.genIv 0) := by decide

theorem unit_idleClear (variant : Half) (src dst len : Word) (bytes : List Byte) :
    (unit variant src dst len bytes).idleClear :=
  ⟨rfl, rfl, rfl, rfl, rfl, rfl, rfl, rfl, rfl, rfl, rfl, rfl⟩

theorem session_idleClear (st : SessionState) (size : Word) : (session st size).idleClear := ⟨rfl, rfl, rfl⟩

theorem witness_ReservedCodeIsRefused :
    (∀ v : Word, v ∈ [0x06, 0x00, 0x10, 0xFF] → ¬(1 ≤ (v.setWidth 8).toNat ∧ (v.setWidth 8).toNat ≤ 5) ∧
      (withMove (.write (regAddr 0 0) v) (cipherMachine (unit 128 0 0 0))).ces[0]? = some (unit 128 0 0 0)) ∧
    (unit 128 0 0 0).idleClear ∧ (session .blockStarted).idleClear ∧
    ∀ v : Word, v ∈ [0x0F, 0x16, 0x01] → ¬(0x10 ≤ (v.setWidth 8).toNat ∧ (v.setWidth 8).toNat ≤ 0x15) :=
  ⟨by
      intro v hv
      simp only [List.mem_cons, List.not_mem_nil, or_false] at hv
      rcases hv with rfl | rfl | rfl | rfl <;> exact ⟨by decide, rfl⟩,
    unit_idleClear _ _ _ _ _, session_idleClear _ _, by
      intro v hv
      simp only [List.mem_cons, List.not_mem_nil, or_false] at hv
      rcases hv with rfl | rfl | rfl <;> decide⟩

theorem witness_BusyUnitOverrun :
    (cipherMachine busyUnit).ces[0]? = some busyUnit ∧ busyUnit.flags.busy = true ∧
    (bootMachine waitingBs).bs.flags.busy = true := by decide

theorem witness_AcceptClearsOverrun :
    (cipherMachine (unit 0 0 0 0)).ces[0]? = some (unit 0 0 0 0) ∧ (unit 0 0 0 0).flags.busy = false ∧
    (∃ t w, exec (.ecbEnc 0) (cipherMachine (unit 0 0 0 0)) = .next t ∧ t.ces[0]? = some w) ∧
    bsIdle.flags.busy = false ∧ ∃ t, exec .blkStart (bootMachine bsIdle) = .next t :=
  ⟨rfl, rfl, ⟨_, _, rfl, rfl⟩, rfl, _, rfl⟩

theorem witness_BlockTransformsInvert :
    variantOf 128 = some ⟨4, 10⟩ ∧ variantOf 192 = some ⟨6, 12⟩ ∧ variantOf 256 = some ⟨8, 14⟩ := by decide

/-- Two keys that differ in their last byte alone, past the 16 bytes that variant 128 reads. -/
theorem witness_KeyScheduleWords :
    variantOf 128 = some ⟨4, 10⟩ ∧ variantOf 0 = none ∧ variantOf 16 = none ∧
    (∀ j, j < 4 * 4 → (key128.set 31 0xFF).getD j 0 = key128.getD j 0) ∧ key128.set 31 0xFF ≠ key128 ∧
    (3 < 4 ∧ 4 ≤ 4 ∧ 43 < 4 * (10 + 1) ∧ 4 * (10 + 1) ≤ 44) := by decide +kernel

theorem witness_CipherRefusals :
    (unit 129 0 0 0).idleClear ∧ (cipherMachine (unit 129 0 0 0)).ces[0]? = some (unit 129 0 0 0) ∧
    1 ≤ (cipherMachine (unit 129 0 0 0)).pace ∧
    (unit 0 0 0 0).variant.toNat ∉ [128, 192, 256] ∧ (unit 129 0 0 0).variant.toNat ∉ [128, 192, 256] ∧
    ((unit 128 0 0 15).variant.toNat ∈ [128, 192, 256] ∧ (unit 128 0 0 15).len.toNat % 16 ≠ 0) ∧
    ((unit 256 0xFFF1 0 16).variant.toNat ∈ [128, 192, 256] ∧ (unit 256 0xFFF1 0 16).len.toNat % 16 = 0 ∧
      params.bufSize.val < (unit 256 0xFFF1 0 16).src.toNat + (unit 256 0xFFF1 0 16).len.toNat) ∧
    params.bufSize.val < (unit 256 0 0xFFF1 16).dst.toNat + (unit 256 0 0xFFF1 16).len.toNat :=
  ⟨unit_idleClear _ _ _ _ _, rfl, by decide, by decide, by decide, by decide, by decide +kernel, by decide +kernel⟩

/-- The four result statements: the range that ends where BUF ends (V30), and a pace that just suffices. -/
theorem witness_EcbEncResult :
    ({ cipherMachine (unit 128 0xFFF0 0xFFF0 16) with pace := 80 }).ces[0]? = some (unit 128 0xFFF0 0xFFF0 16) ∧
    (unit 128 0xFFF0 0xFFF0 16).idleClear ∧ variantOf (unit 128 0xFFF0 0xFFF0 16).variant = some ⟨4, 10⟩ ∧
    (16 : Word).toNat % 16 = 0 ∧ (0xFFF0 : Word).toNat + (16 : Word).toNat ≤ params.bufSize.val ∧
    (16 : Word).toNat + 64 ≤ 80 :=
  ⟨rfl, unit_idleClear _ _ _ _ _, by decide, by decide, by decide, by decide⟩

theorem witness_EcbDecResult :
    (cipherMachine (unit 192 0 16 16)).ces[0]? = some (unit 192 0 16 16) ∧ (unit 192 0 16 16).idleClear ∧
    variantOf (unit 192 0 16 16).variant = some ⟨6, 12⟩ ∧ (16 : Word).toNat % 16 = 0 ∧
    (16 : Word).toNat + (16 : Word).toNat ≤ params.bufSize.val ∧
    (16 : Word).toNat + 64 ≤ (cipherMachine (unit 192 0 16 16)).pace :=
  ⟨rfl, unit_idleClear _ _ _ _ _, by decide, by decide, by decide, by decide⟩

theorem witness_CbcEncResult :
    (cipherMachine (unit 256 0 0 64)).ces[0]? = some (unit 256 0 0 64) ∧ (unit 256 0 0 64).idleClear ∧
    variantOf (unit 256 0 0 64).variant = some ⟨8, 14⟩ ∧ (64 : Word).toNat % 16 = 0 ∧
    (0 : Word).toNat + (64 : Word).toNat ≤ params.bufSize.val ∧
    (64 : Word).toNat + 64 ≤ (cipherMachine (unit 256 0 0 64)).pace :=
  ⟨rfl, unit_idleClear _ _ _ _ _, by decide, by decide, by decide, by decide⟩

theorem witness_CbcDecResult :
    (cipherMachine (unit 256 64 0 32)).ces[0]? = some (unit 256 64 0 32) ∧ (unit 256 64 0 32).idleClear ∧
    variantOf (unit 256 64 0 32).variant = some ⟨8, 14⟩ ∧ (32 : Word).toNat % 16 = 0 ∧
    (64 : Word).toNat + (32 : Word).toNat ≤ params.bufSize.val ∧
    (32 : Word).toNat + 64 ≤ (cipherMachine (unit 256 64 0 32)).pace :=
  ⟨rfl, unit_idleClear _ _ _ _ _, by decide, by decide, by decide, by decide⟩

/-- In place, and disjoint ranges that touch, either way round; the first and the last block. -/
theorem witness_EcbBlocks :
    (unit 128 0 0 32 plain).buf.wf ∧ 0 < (unit 128 0 0 32 plain).len.toNat / 16 ∧
    1 < (unit 128 0 0 32 plain).len.toNat / 16 ∧ (unit 128 0 0 32 plain).src = (unit 128 0 0 32 plain).dst ∧
    (unit 128 0 32 32).src.toNat + (unit 128 0 32 32).len.toNat ≤ (unit 128 0 32 32).dst.toNat ∧
    (unit 128 32 0 32).dst.toNat + (unit 128 32 0 32).len.toNat ≤ (unit 128 32 0 32).src.toNat := by decide +kernel

theorem witness_CbcBlocks :
    (unit 128 0 32 32 plain).buf.wf ∧ 0 + 1 < (unit 128 0 32 32 plain).len.toNat / 16 ∧
    0 < (unit 128 0 32 16 plain).len.toNat / 16 ∧
    (unit 128 0 32 32 plain).src.toNat + (unit 128 0 32 32 plain).len.toNat ≤ (unit 128 0 32 32 plain).dst.toNat ∧
    (unit 128 0 0 32 plain).src = (unit 128 0 0 32 plain).dst ∧
    (unit 128 32 0 32).dst.toNat + (unit 128 32 0 32).len.toNat ≤ (unit 128 32 0 32).src.toNat := by decide +kernel

theorem witness_CipherCommandFrame :
    ((cipherMachine (unit 128 0 16 16)).ces[0]? = some (unit 128 0 16 16) ∧
      ((unit 128 0 16 16).flags.busy = false → (unit 128 0 16 16).idleClear) ∧
      ∃ t, exec (.cbcDec 0) (cipherMachine (unit 128 0 16 16)) = .next t) ∧
    ((cipherMachine busyUnit).ces[0]? = some busyUnit ∧ (busyUnit.flags.busy = false → busyUnit.idleClear) ∧
      ∃ t, exec (.genIv 0) (cipherMachine busyUnit) = .next t) ∧
    ¬((16 : Word).toNat ≤ 32 ∧ 32 < (16 : Word).toNat + (16 : Word).toNat) ∧
    ¬((16 : Word).toNat ≤ 15 ∧ 15 < (16 : Word).toNat + (16 : Word).toNat) :=
  ⟨⟨rfl, fun _ => unit_idleClear _ _ _ _ _, _, rfl⟩, ⟨rfl, fun h => (Bool.noConfusion h), _, rfl⟩, by decide, by decide⟩

/-- Available, unavailable, one byte out of range; and a source that holds more bytes than are drawn. -/
theorem witness_GenIvResult :
    (unit 0 0 0xFFF0 16).idleClear ∧
    ((0xFFF0 : Word).toNat + (16 : Word).toNat ≤ params.bufSize.val ∧ ((source true).isAvailable 0).1 = true ∧
      ((source false).isAvailable 0).1 = false) ∧
    params.bufSize.val < (0xFFF1 : Word).toNat + (16 : Word).toNat ∧
    (source true).bytes = [0xd0, 0xd1] ++ [0xd2, 0xd3, 0xd4, 0xd5] :=
  ⟨unit_idleClear _ _ _ _ _, by decide, by decide, rfl⟩

/-- One block from 0 to 16 and back to 32. -/
theorem witness_EcbRoundTrip :
    (cipherMachine (unit 128 0 16 16 plain)).ces[0]? = some (unit 128 0 16 16 plain) ∧
    (unit 128 0 16 16 plain).idleClear ∧ (unit 128 0 16 16 plain).buf.wf ∧
    variantOf (unit 128 0 16 16 plain).variant = some ⟨4, 10⟩ ∧ (16 : Word).toNat % 16 = 0 ∧
    (0 : Word).toNat + (16 : Word).toNat ≤ params.bufSize.val ∧ (16 : Word).toNat + (16 : Word).toNat ≤ params.bufSize.val ∧
    (32 : Word).toNat + (16 : Word).toNat ≤ params.bufSize.val ∧
    (16 : Word).toNat + 64 ≤ (cipherMachine (unit 128 0 16 16 plain)).pace ∧
    (0 : Word).toNat + (16 : Word).toNat ≤ (16 : Word).toNat ∧ (16 : Word).toNat + (16 : Word).toNat ≤ (32 : Word).toNat ∧
    15 < (16 : Word).toNat :=
  ⟨rfl, unit_idleClear _ _ _ _ _, by decide +kernel, by decide, by decide, by decide, by decide, by decide, by decide,
    by decide, by decide, by decide⟩

/-- In place throughout. -/
theorem witness_CbcRoundTrip :
    (cipherMachine (unit 256 16 16 32 plain)).ces[0]? = some (unit 256 16 16 32 plain) ∧
    (unit 256 16 16 32 plain).idleClear ∧ (unit 256 16 16 32 plain).buf.wf ∧
    variantOf (unit 256 16 16 32 plain).variant = some ⟨8, 14⟩ ∧ (32 : Word).toNat % 16 = 0 ∧
    (16 : Word).toNat + (32 : Word).toNat ≤ params.bufSize.val ∧
    (32 : Word).toNat + 64 ≤ (cipherMachine (unit 256 16 16 32 plain)).pace ∧
    (unit 256 16 16 32 plain).src = (unit 256 16 16 32 plain).dst ∧ (unit 256 16 16 32 plain).dst = 16 :=
  ⟨rfl, unit_idleClear _ _ _ _ _, by decide +kernel, by decide, by decide, by decide, by decide, rfl, rfl⟩

/-- V31: both operands just past the last byte of BUF. -/
theorem witness_ZeroLengthCipher :
    (unit 128 65536 65536 0).idleClear ∧ (unit 128 65536 65536 0).len = 0 ∧ 64 ≤ (cipherMachine (unit 128 65536 65536 0)).pace ∧
    (unit 128 65536 65536 0).variant.toNat ∈ [128, 192, 256] ∧
    (unit 128 65536 65536 0).src.toNat ≤ params.bufSize.val ∧ (unit 0 0 0 0).variant.toNat ∉ [128, 192, 256] :=
  ⟨unit_idleClear _ _ _ _ _, rfl, by decide, by decide, by decide, by decide⟩

/-- A populated address at each end of a region, one past it, a region without data; and a region of one address, the
last of the address space. -/
theorem witness_SpanOfRegion :
    Memory.wf [(0x200000, 1), (0x200007, 2), (0x200008, 3)] ∧
    span [(0x200000, 1), (0x200007, 2), (0x200008, 3)] (regionOf params 1) = some (0x200000, 0x200008) ∧
    span [(0x200000, 1), (0x200007, 2), (0x200008, 3)] (regionOf params 2) = none ∧
    Memory.wf [(0xFFFFFFFF, 1)] ∧ ∃ h, span [(0xFFFFFFFF, 1)] ⟨3, 0xFFFFFFFF, ⟨0, h⟩⟩ = some (0xFFFFFFFF, 0x100000000) :=
  ⟨by decide +kernel, by decide +kernel, by decide +kernel, by decide +kernel, by decide, by decide +kernel⟩

theorem witness_BlocksCoverSpan : 0 < 1 ∧ 0 < 64 ∧ 0xFFFFFFFF < 0x100000000 ∧ 63 < 64 := by decide

/-- V61: 100 bytes in chunks of 8, the last of 4; and a block of one chunk. -/
theorem witness_ChunksPartitionBlock :
    0 < 8 ∧ 0 < (List.replicate 100 (0 : Byte)).length ∧ 11 + 1 < ceilDiv (List.replicate 100 (0 : Byte)).length 8 ∧
    0 < (List.replicate 8 (0 : Byte)).length := by decide

theorem witness_DevInitOpensSession :
    (session .failed).flags.busy = false ∧ (∃ t, exec .devInit (bootMachine (session .failed)) = .next t) ∧
    ∃ t, exec .devInit { bootMachine (session .failed) with pace := 0 } = .next t := ⟨rfl, ⟨_, rfl⟩, _, rfl⟩

/-- The payload of section 2's ACK, and V46's: a block size equal to the chunk size. -/
theorem witness_DevInitResult :
    bsIdle.flags.busy = false ∧ 3 ≤ (bootMachine bsIdle [enterAck]).pace ∧
    (bootMachine bsIdle [enterAck]).env.registers = (.ok, params.expectedBootAlgorithm, 0x1234) :: [] ∧
    (0x1234 : Half) = bsIdle.devcode ∧ abortMismatch bsIdle.ctrl = false ∧
    (bootMachine bsIdle [enterAck]).env.oneAnswer params bsIdle.guid params.typeEnterBootAck enterAck.2 [] [] [] ∧
    8 ≤ enterAck.2.len.val ∧ (chunkSizeOf bsIdle.ctrl).toNat ≤ (ackBlockSize enterAck.2.payload).toNat ∧
    (chunkSizeOf bsIdle.ctrl).toNat ≤ (ackBlockSize [0, 0, 0, 8, 0, 0, 0, 0x0a]).toNat ∧
    (chunkSizeOf 0x09).toNat ≤ (ackBlockSize [0, 0, 2, 0, 0, 0, 0, 0x0a]).toNat :=
  ⟨rfl, by decide, rfl, by decide, by decide, ⟨rfl, ⟨1, by decide, rfl⟩, rfl, rfl, rfl, rfl⟩, by decide, by decide,
    by decide, by decide⟩

/-- V47 (a), (b) and (c). -/
theorem witness_DevInitEarlyFailures :
    bsIdle.flags.busy = false ∧ 1 ≤ (bootMachine bsIdle).pace ∧
    (∀ r : PortStatus × Byte × Half, ({ env [] with registers := [r] } : Env).registers = r :: []) ∧
    PortStatus.failed ≠ .ok ∧ (0x01 : Byte) ≠ params.expectedBootAlgorithm ∧
    (0x9999 : Half) ≠ ({ bsIdle with ctrl := 0x0A } : BsUnit).devcode ∧
    abortMismatch ({ bsIdle with ctrl := 0x0A } : BsUnit).ctrl = true :=
  ⟨rfl, by decide, fun _ => rfl, by decide, by decide, by decide, by decide⟩

/-- V47 (f), V43, V44 and V45. -/
theorem witness_DevInitLateFailures :
    bsIdle.flags.busy = false ∧ 3 ≤ (bootMachine bsIdle).pace ∧
    (env []).registers = (.ok, params.expectedBootAlgorithm, 0x1234) :: [] ∧ (0x1234 : Half) = bsIdle.devcode ∧
    ({ env [] with sendStatus := [.failed] } : Env).sendStatus = .failed :: [] ∧
    (env [answer 14]).oneAnswer params bsIdle.guid params.typeEnterBootNack (event 14) [] [] [] ∧
    params.typeEnterBootNack ≠ params.typeEnterBootAck ∧
    (env [answer 13 [0, 0, 0, 0x40, 0, 0, 0]]).oneAnswer params bsIdle.guid params.typeEnterBootAck
      (event 13 [0, 0, 0, 0x40, 0, 0, 0]) [] [] [] ∧
    (event 13 [0, 0, 0, 0x40, 0, 0, 0]).len.val < 8 ∧
    (env [answer 13 [0, 0, 0, 7, 0, 0, 0, 0x0a]]).oneAnswer params bsIdle.guid params.typeEnterBootAck
      (event 13 [0, 0, 0, 7, 0, 0, 0, 0x0a]) [] [] [] ∧
    (8 ≤ (event 13 [0, 0, 0, 7, 0, 0, 0, 0x0a]).len.val ∧
      (ackBlockSize (event 13 [0, 0, 0, 7, 0, 0, 0, 0x0a]).payload).toNat < (chunkSizeOf bsIdle.ctrl).toNat) :=
  ⟨rfl, by decide, rfl, by decide, rfl, ⟨rfl, ⟨1, by decide, rfl⟩, rfl, rfl, rfl, rfl⟩, by decide,
    ⟨rfl, ⟨1, by decide, rfl⟩, rfl, rfl, rfl, rfl⟩, by decide, ⟨rfl, ⟨1, by decide, rfl⟩, rfl, rfl, rfl, rfl⟩, by decide⟩

theorem witness_StateGuards :
    (session .init).flags.busy = false ∧ 1 ≤ (bootMachine (session .init)).pace ∧
    ((session .init).state ≠ .bootModeConfirmed ∧ (session .init).state ≠ .blockProgrammed ∧
      (session .init).state ≠ .blockStarted ∧ (session .init).state ≠ .blockWritten) ∧
    ({ session .blockStarted with chunkIdx := 1 } : BsUnit).chunkIdx ≠ 0 ∧
    ((session .bootModeConfirmed).state = .bootModeConfirmed ∧ (session .blockProgrammed).state = .blockProgrammed ∧
      (session .blockWritten).state = .blockWritten) ∧
    ({ bootMachine (session .rebooted) with pace := 0 }).pace = 0 ∧
    ({ bootMachine (session .blockWritten) with pace := 1 }).pace = 1 := by decide

/-- One byte too many for a chunk; a range that ends one byte past FWB; a block that does. -/
theorem witness_LocalRefusals :
    (session .blockStarted).flags.busy = false ∧ (session .blockStarted).state = .blockStarted ∧
    1 ≤ (bootMachine (session .blockStarted)).pace ∧ (session .blockStarted).chunkSize.toNat < (9 : Word).toNat ∧
    (8 : Word).toNat ≤ (session .blockStarted).chunkSize.toNat ∧
    params.fwbSize.val < (0xFFF9 : Word).toNat + (8 : Word).toNat ∧ (session .blockStarted).chunkIdx = 0 ∧
    params.fwbSize.val < (0xFFC1 : Word).toNat + (session .blockStarted).blockSize.toNat := by decide

theorem witness_BlkStartResult :
    (session .bootModeConfirmed).flags.busy = false ∧ 3 ≤ (bootMachine (session .blockProgrammed)).pace ∧
    (session .bootModeConfirmed).state = .bootModeConfirmed ∧ (session .blockProgrammed).state = .blockProgrammed ∧
    (bootMachine (session .bootModeConfirmed) [answer 50]).env.oneAnswer params (session .bootModeConfirmed).sGuid
      params.typeStartBlockAck (event 50) [] [] [] :=
  ⟨rfl, by decide, rfl, rfl, rfl, ⟨1, by decide, rfl⟩, rfl, rfl, rfl, rfl⟩

/-- A full chunk that ends where FWB ends, and an empty one (V51). -/
theorem witness_ChunkWriteResult :
    (session .blockStarted).flags.busy = false ∧ 3 ≤ (bootMachine (session .blockStarted)).pace ∧
    (session .blockStarted).state = .blockStarted ∧ (8 : Word).toNat ≤ (session .blockStarted).chunkSize.toNat ∧
    (0xFFF8 : Word).toNat + (8 : Word).toNat ≤ params.fwbSize.val ∧
    (0 : Word).toNat ≤ (session .blockStarted).chunkSize.toNat ∧ (65536 : Word).toNat + (0 : Word).toNat ≤ params.fwbSize.val ∧
    (bootMachine (session .blockStarted) [answer 17]).env.oneAnswer params (session .blockStarted).sGuid
      params.typeBlockDataAck (event 17) [] [] [] :=
  ⟨rfl, by decide, rfl, by decide, by decide, by decide, by decide, rfl, ⟨1, by decide, rfl⟩, rfl, rfl, rfl, rfl⟩

theorem witness_BlkProgramResult :
    (session .blockWritten).flags.busy = false ∧ 3 ≤ (bootMachine (session .blockWritten)).pace ∧
    (session .blockWritten).state = .blockWritten ∧
    (bootMachine (session .blockWritten) [answer 20]).env.oneAnswer params (session .blockWritten).sGuid
      params.typeProgramBlockAck (event 20) [] [] [] :=
  ⟨rfl, by decide, rfl, rfl, ⟨1, by decide, rfl⟩, rfl, rfl, rfl, rfl⟩

/-- The hypotheses on the machine in the three disjuncts, a failing send, and the three NACKs. -/
theorem witness_StepCommandFailures :
    (3 ≤ (bootMachine (session .blockStarted)).pace ∧ (session .bootModeConfirmed).state = .bootModeConfirmed ∧
      (session .blockStarted).state = .blockStarted ∧ (session .blockWritten).state = .blockWritten) ∧
    ((session .blockStarted).chunkLen.toNat ≤ (session .blockStarted).chunkSize.toNat ∧
      (session .blockStarted).src.toNat + (session .blockStarted).chunkLen.toNat ≤ params.fwbSize.val) ∧
    ({ env [] with sendStatus := [.failed] } : Env).sendStatus = .failed :: [] ∧
    ((env [answer 51]).oneAnswer params guid params.typeStartBlockNack (event 51) [] [] [] ∧
      params.typeStartBlockNack ≠ params.typeStartBlockAck) ∧
    ((env [answer 18]).oneAnswer params guid params.typeBlockDataNack (event 18) [] [] [] ∧
      params.typeBlockDataNack ≠ params.typeBlockDataAck) ∧
    ((env [answer 21]).oneAnswer params guid params.typeProgramBlockNack (event 21) [] [] [] ∧
      params.typeProgramBlockNack ≠ params.typeProgramBlockAck) :=
  ⟨by decide, by decide, rfl, ⟨⟨rfl, ⟨1, by decide, rfl⟩, rfl, rfl, rfl, rfl⟩, by decide⟩,
    ⟨⟨rfl, ⟨1, by decide, rfl⟩, rfl, rfl, rfl, rfl⟩, by decide⟩, ⟨rfl, ⟨1, by decide, rfl⟩, rfl, rfl, rfl, rfl⟩, by decide⟩

/-- A block of 12 bytes at the end of FWB: two chunks, both acknowledged. -/
theorem witness_BlkWriteResult :
    let b : BsUnit := { session .blockStarted 12 with src := 0xFFF4 }
    let s := bootMachine b [answer 17, answer 17]
    s.bs.flags.busy = false ∧ s.bs.state = .blockStarted ∧ s.bs.chunkIdx = 0 ∧ 0 < s.bs.chunkSize.toNat ∧
    s.bs.chunkSize.toNat ≤ s.bs.blockSize.toNat ∧ s.bs.src.toNat + s.bs.blockSize.toNat ≤ s.params.fwbSize.val ∧
    2 * (blockDataRequests s.params s.bs (memRead .fwb s.fwb s.bs.src.toNat s.bs.blockSize.toNat)).length + 1 ≤ s.pace ∧
    s.env.agrees s.params s.bs
      (blockDataRequests s.params s.bs (memRead .fwb s.fwb s.bs.src.toNat s.bs.blockSize.toNat)) [] [] [] :=
  ⟨rfl, rfl, rfl, by decide, by decide, by decide, by decide, rfl, ⟨[(.ok, 1), (.ok, 1)], rfl, by decide, rfl⟩,
    [answer 17, answer 17], rfl, rfl⟩

/-- The same block; the first chunk is acknowledged and the second send fails. The failure can also be the first. -/
theorem witness_BlkWriteStopsAtFailure :
    let s := { bootMachine (session .blockStarted 12) with env := { env [answer 17] with sendStatus := [.ok, .failed] } }
    let reqs := blockDataRequests s.params s.bs (memRead .fwb s.fwb s.bs.src.toNat s.bs.blockSize.toNat)
    s.bs.chunkSize.toNat ≤ s.bs.blockSize.toNat ∧ s.bs.src.toNat + s.bs.blockSize.toNat ≤ s.params.fwbSize.val ∧
    1 < reqs.length ∧ 2 * 1 + 2 ≤ s.pace ∧ s.env.agrees s.params s.bs (reqs.take 1) (.failed :: []) [] [] ∧
    ({ env [] with sendStatus := [.failed] } : Env).agrees s.params s.bs (reqs.take 0) (.failed :: []) [] [] :=
  ⟨by decide, by decide, by decide, by decide, ⟨rfl, ⟨[(.ok, 1)], rfl, by decide, rfl⟩, [answer 17], rfl, rfl⟩,
    rfl, ⟨[], rfl, by decide, rfl⟩, [], rfl, rfl⟩

/-- A poll that fails, a poll that finds nothing, a receive that fails, and each of the three mismatches (V48), with the
elapsed time at the limit and one past it (V41 (b)). -/
theorem witness_WaitDropsAndTimesOut :
    waitingBs.flags.busy = true ∧ waitingBs.point = .wait (.startBlock 5) ∧
    (∀ (d : Word) (c : PortStatus × Word) (r : PortStatus × Event),
      let e : Env := { env [] with timer := 5000, ticks := [d], counts := [c], receives := [r] }
      e.ticks = d :: [] ∧ e.counts = c :: [] ∧ e.receives = r :: []) ∧
    (PortStatus.failed ≠ .ok ∧ (event 50).typ = ackType params (.startBlock 5) ∧
      ({ event 50 with cls := 10 } : Event).cls ≠ params.classProtocol ∧
      ({ event 50 with guid := Vector.replicate 16 0xee } : Event).guid ≠ waitingBs.sGuid ∧
      ((event 17).typ ≠ ackType params (.startBlock 5) ∧ (event 17).typ ≠ nackType params (.startBlock 5))) ∧
    ¬waitingBs.sTimeout.toNat < ((5000 : Word) + 1000 - waitingBs.deadlineT0).toNat ∧
    waitingBs.sTimeout.toNat < ((5000 : Word) + 1001 - waitingBs.deadlineT0).toNat ∧
    ({ waitingBs with sTimeout := 0xFFFFFFFF } : BsUnit).sTimeout = 0xFFFFFFFF ∧
    (2 ≤ ({ env [] with counts := [(.ok, 0), (.failed, 3)] } : Env).counts.length ∧
      ∀ c ∈ ({ env [] with counts := [(.ok, 0), (.failed, 3)] } : Env).counts, c.1 ≠ .ok ∨ c.2 = 0) :=
  ⟨rfl, rfl, fun _ _ _ => ⟨rfl, rfl, rfl⟩, by decide, by decide, by decide, rfl, by decide⟩

/-- V49 in the wait for a chunk's ACK: two events of class 10, then the ACK, with the elapsed time at its limit at the
second deadline test; and BLK_START's wait, with no foreign event. -/
theorem witness_AckBehindForeignEvents :
    let b : BsUnit := { waitingBs with cmd := 0x12, state := .blockStarted, point := .wait (.blockData 0) }
    let other : Event := { event 17 with cls := 10 }
    let polls : List (PortStatus × Word) := [(.ok, 3), (.ok, 2), (.ok, 1)]
    let e : Env := { env [(.ok, other), (.ok, other), answer 17] with timer := 5000, ticks := [400, 600], counts := polls }
    (b.flags.busy = true ∧ b.point = .wait (.blockData 0) ∧ (∀ f ∈ [other, other], f.cls ≠ params.classProtocol) ∧
      ((event 17).cls = params.classProtocol ∧ (event 17).guid = b.sGuid ∧
        (event 17).typ = ackType params (.blockData 0)) ∧
      polls.length = [other, other].length + 1 ∧ (∀ c ∈ polls, c.1 = .ok ∧ c.2 ≠ 0) ∧ e.counts = polls ++ [] ∧
      e.receives = [other, other].map (fun f => (PortStatus.ok, f)) ++ (.ok, event 17) :: [] ∧
      ([400, 600] : List Word).length = [other, other].length ∧ e.ticks = [400, 600] ++ [] ∧
      (∀ n, n < [other, other].length →
        (e.timer + (([400, 600] : List Word).take (n + 1)).sum - b.deadlineT0).toNat ≤ b.sTimeout.toNat)) ∧
    (waitingBs.point = .wait (.startBlock 5) ∧ waitingBs.cmd = 0x11 ∧ (event 50).typ = ackType params (.startBlock 5) ∧
      (env [answer 50]).counts = [(.ok, 1)] ++ [] ∧ (env [answer 50]).receives = [] ++ (.ok, event 50) :: []) := by
  decide

/-- One block of 8 bytes in region 3. -/
def loadMachine : State :=
  { bootMachine (session .bootModeConfirmed 8) [answer 50, answer 17, answer 20] with img := [(0xF000FF, 0xde)] }

theorem witness_DevLoadResult :
    loadMachine.bs.flags.busy = false ∧ loadMachine.bs.state = .bootModeConfirmed ∧
    0 < loadMachine.bs.chunkSize.toNat ∧ loadMachine.bs.chunkSize.toNat ≤ loadMachine.bs.blockSize.toNat ∧
    2 * (loadRequests loadMachine.params loadMachine.img loadMachine.bs).length + 6 ≤ loadMachine.pace ∧
    loadMachine.env.agrees loadMachine.params loadMachine.bs
      (loadRequests loadMachine.params loadMachine.img loadMachine.bs) [] [] [] :=
  ⟨rfl, rfl, by decide, by decide, by decide +kernel, by decide +kernel,
    ⟨[(.ok, 1), (.ok, 1), (.ok, 1)], by decide +kernel, by decide, rfl⟩,
    [answer 50, answer 17, answer 20], by decide +kernel, rfl⟩

/-- An image with data in no region: an address just past each one's end. -/
theorem witness_EmptyImageLoad :
    let s := { bootMachine (session .bootModeConfirmed) with
      img := [(0x010000, 1), (0x200008, 2), (0x30000E, 3), (0xF00100, 4)] }
    s.bs.flags.busy = false ∧ s.bs.state = .bootModeConfirmed ∧ 6 ≤ s.pace ∧
    ∀ r, r < 4 → span s.img (regionOf s.params r) = none := by decide +kernel

theorem witness_BootCommandFrame :
    (∃ t, exec .devLoad loadMachine = .next t) ∧ ∃ t, exec .devInit (bootMachine waitingBs) = .next t :=
  ⟨⟨_, rfl⟩, _, rfl⟩

theorem witness_SessionFrame :
    loadMachine.bs.flags.busy = false ∧ (∃ t, exec .devLoad loadMachine = .next t) ∧
    (∃ t, exec .blkWrite (bootMachine (session .blockStarted)) = .next t) ∧
    ∃ t, exec .blkProgram (bootMachine (session .blockWritten)) = .next t := ⟨rfl, ⟨_, rfl⟩, ⟨_, rfl⟩, _, rfl⟩

/-- A unit about to send, with a send that succeeds and one that fails; and a unit that waits. -/
theorem witness_OneRequestInFlight :
    ({ waitingBs with point := .sendStartBlock 5 0 } : BsUnit).flags.busy = true ∧ waitingBs.flags.busy = true ∧
    (({ env [] with sendStatus := [.ok] } : Env).tpSend (event 15)).1 = .ok ∧
    (({ env [] with sendStatus := [.failed] } : Env).tpSend (event 15)).1 ≠ .ok := by decide

theorem witness_StatusPortGated :
    let b : BsUnit := { session .bootModeConfirmed with ctrl := 0, sCtrl := 0 }
    b.flags.busy = false ∧ statusEn b.sCtrl = false ∧ statusEn b.ctrl = false ∧
    (∃ t, exec .blkStart (bootMachine b [answer 51]) = .next t) ∧ ∃ t, exec .devLoad (bootMachine b) = .next t :=
  ⟨rfl, by decide, by decide, ⟨_, rfl⟩, _, rfl⟩

theorem session_Inv_bs : BsUnit.Inv (session .bootModeConfirmed) where
  exclusive := by decide
  errDone := by decide
  errCode := by decide
  idle := by decide
  busy h := by cases h
  ctrlBits := by decide
  sCtrlBits := by decide
  region := by decide
  session := by decide
  started := by decide
  failed := by decide
  written := by decide

theorem waitingBs_Inv : waitingBs.Inv where
  exclusive := by decide
  errDone := by decide
  errCode := by decide
  idle := by decide
  busy _ := ⟨by decide, Or.inl rfl, Or.inl rfl⟩
  ctrlBits := by decide
  sCtrlBits := by decide
  region := by decide
  session := by decide
  started := by decide
  failed := by decide
  written := by decide

theorem witness_TransitionTable : waitingBs.Inv ∧ waitingBs.flags.busy = true := ⟨waitingBs_Inv, rfl⟩

theorem unit_Inv : (unit 128 0 16 16 plain).Inv params where
  bufWf := by decide +kernel
  bufInside := by decide +kernel
  exclusive := by decide
  errDone := by decide
  errCode := by decide
  failedResult := by decide
  idle _ := ⟨rfl, rfl, rfl, rfl, rfl, rfl, rfl, rfl, rfl, rfl, rfl⟩
  checks h := by cases h
  running h := by cases h

/-- A machine inside a session: a block of plaintext in BUF, BS waiting for an answer, time about to pass. -/
def midSession : State := withMove .lapse (machine (unit 128 0 16 16 plain) waitingBs (env [answer 50]))

theorem witness_StepKeepsInv : midSession.Inv ∧ ∃ t, step midSession = .next t :=
  ⟨{ units := by intro u hu; cases List.mem_singleton.mp hu; exact unit_Inv
     unitCount := rfl, bs := waitingBs_Inv, fwbWf := List.Pairwise.nil, fwbInside := by decide,
     imgWf := List.Pairwise.nil, imgInside := by decide }, _, rfl⟩

/-- An operand register of each width, the first and the last offset of each range; a unit that does not exist. -/
theorem witness_OperandRegistersReadBack :
    14 < 15 ∧ (cipherMachine (unit 0 0 0 0)).ces[0]? = some (unit 0 0 0 0) ∧ (unit 0 0 0 0).flags.busy = false ∧
    (0x020 ≤ 0x04F ∧ 0x04F < 0x050) ∧ (0x050 ≤ 0x050 ∧ 0xFFF < 0x1000) ∧ bsIdle.flags.busy = false ∧
    (0x070 ≤ 0x07F ∧ 0x07F < 0x080) ∧ (0x100 ≤ 0x100) ∧ (cipherMachine (unit 0 0 0 0)).ces[1]? = none := by decide

/-- The last cipher unit of the map, busy and idle; the first and the last offset of each range of BS. -/
theorem witness_StatusRegisterBits :
    14 < 15 ∧ (cipherMachine busyUnit).ces[0]? = some busyUnit ∧ (unit 0 0 0 0).flags.busy = false ∧
    (0x004 ∈ [0x004, 0x008, 0x00C] ∧ 0x00C ∈ [0x004, 0x008, 0x00C]) ∧ bsIdle.flags.busy = false ∧
    (0 < 0x001 ∧ 0x001 < 0x040) ∧ (0 < 0x03F ∧ 0x03F < 0x040) := by decide

/-- The last request that fits an event: a chunk of 512 bytes. -/
theorem witness_PayloadLayouts :
    (List.replicate 512 (0 : Byte)).length ≤ 512 ∧
    (requestEvent params bsIdle 16 (List.replicate 512 0)).payload.length = 512 := by decide +kernel

/-- No unit of the machine is busy, so no move touches a busy unit's bytes. -/
theorem idle_touches_nothing (m : Move) : ¬(bootMachine bsIdle).touchesBusy m := by
  have hce : ∀ (k : Nat) (u : CeUnit), (bootMachine bsIdle).ces[k]? = some u → u.flags.busy = true → False := by
    intro k u hu hb
    cases k with
    | zero => cases hu; cases hb
    | succ k => cases hu
  intro h
  cases m with
  | bufWrite k a bytes => obtain ⟨u, hu, hb, -⟩ := h; exact hce k u hu hb
  | bufRead k a => obtain ⟨u, hu, hb, -⟩ := h; exact hce k u hu hb
  | _ => cases h

/-- The last byte of BUF, of FWB and of IMG; a populated and an unpopulated address of IMG. -/
theorem witness_HostMemoryMoves :
    ((bootMachine bsIdle).ces[0]? = some (unit 0 0 0 0) ∧ (unit 0 0 0 0).buf.wf ∧ (bootMachine bsIdle).fwb.wf ∧
      (bootMachine bsIdle).img.wf) ∧
    (¬(bootMachine bsIdle).outside (.bufWrite 0 0xFFFF [1]) ∧ ¬(bootMachine bsIdle).outside (.fwbWrite 0xFFFE [1, 2]) ∧
      ¬(bootMachine bsIdle).outside (.imgWrite 0xFFFFFFFF [1]) ∧ ¬(bootMachine bsIdle).outside (.bufRead 0 0xFFFF) ∧
      ¬(bootMachine bsIdle).outside (.fwbRead 0xFFFF)) ∧
    ∀ m, (withMove m (bootMachine bsIdle)).moves = m :: [] ∧ ¬(withMove m (bootMachine bsIdle)).touchesBusy m :=
  ⟨by decide,
    ⟨by show ¬(_ ∨ _); decide, by show ¬_ < _; decide, by show ¬_ < _; decide, by show ¬(_ ∨ _); decide,
      by show ¬_ ≤ _; decide⟩,
    fun m => ⟨rfl, idle_touches_nothing m⟩⟩

/-- One byte past BUF, and BUF of an absent unit; the last byte of a busy unit's source for a write and the first of its
destination for a read, IMG with BS busy; and its source for a read, a byte past its destination for a write. -/
theorem witness_OnlyHostMemoryMovesStop :
    let s := machine busyUnit waitingBs (env [])
    (s.outside (.bufWrite 0 0xFFFF [1, 2]) ∧ s.outside (.bufRead 1 0)) ∧
    (s.touchesBusy (.bufWrite 0 14 [1, 2]) ∧ s.touchesBusy (.bufRead 0 16) ∧ s.touchesBusy .imgClear) ∧
    ¬s.outside (.bufRead 0 15) ∧ ¬s.touchesBusy (.bufRead 0 15) ∧ ¬s.touchesBusy (.bufWrite 0 32 [1]) := by
  refine ⟨⟨.inr (by decide), .inl rfl⟩,
    ⟨⟨busyUnit, rfl, rfl, 1, by decide, .inl ⟨by decide, by decide, by decide⟩⟩,
      ⟨busyUnit, rfl, rfl, by decide, by decide⟩, rfl⟩, ?_, ?_, ?_⟩
  · show ¬(_ ∨ _); decide
  · rintro ⟨u, hu, -, h⟩; cases hu; revert h; show ¬(_ ∧ _); decide
  · rintro ⟨u, hu, -, j, hj, h⟩
    cases hu
    obtain rfl : j = 0 := by simpa using hj
    revert h
    show ¬((_ ∧ _ ∧ _) ∨ (_ ∧ _))
    decide

theorem witness_BusyUnitIgnoresWrites :
    (withMove (.write (regAddr 0 0x01C) 5) (cipherMachine busyUnit)).moves = .write (regAddr 0 0x01C) 5 :: [] ∧
    (cipherMachine busyUnit).ces[0]? = some busyUnit ∧ busyUnit.flags.busy = true ∧
    (withMove (.write (regAddr 15 0x07F) 5) (bootMachine waitingBs)).moves = .write (regAddr 15 0x07F) 5 :: [] ∧
    waitingBs.flags.busy = true := by decide

theorem witness_IdleMachineKeepsState :
    (bootMachine (session .failed)).moves = [] ∧ (∀ u ∈ (bootMachine (session .failed)).ces, u.flags.busy = false) ∧
    (bootMachine (session .failed)).bs.flags.busy = false := by decide

/-- `ECB_ENC` cut after 7 of its steps; two units and BS, all busy, and two orders of their steps, one step for each unit
or more; commands for different units. -/
theorem witness_CutsAndInterleavingsAgree :
    ((cipherMachine (unit 128 0 16 16 plain)).moves = [] ∧
      (∀ u ∈ (cipherMachine (unit 128 0 16 16 plain)).ces, u.flags.busy = false) ∧
      (cipherMachine (unit 128 0 16 16 plain)).bs.flags.busy = false ∧
      (∃ t, exec (.ecbEnc 0) { cipherMachine (unit 128 0 16 16 plain) with pace := 7 } = .next t) ∧
      ∃ t, exec (.ecbEnc 0) { cipherMachine (unit 128 0 16 16 plain) with pace := 7 + 60 } = .next t) ∧
    ([.lapseCe 0, .lapseBs, .lapseCe 1, .lapseCe 0] : List Move).Perm [.lapseCe 1, .lapseCe 0, .lapseCe 0, .lapseBs] ∧
    (∀ m ∈ ([.lapseCe 0, .lapseBs, .lapseCe 1, .lapseCe 0] : List Move), m = .lapseBs ∨ ∃ k, m = .lapseCe k) ∧
    (soloLapse (.genIv 0) ≠ soloLapse (.genIv 1) ∧ soloLapse (.genIv 14) ≠ soloLapse .devInit) ∧
    ([.lapseCe 1, .lapseBs, .lapseCe 0] : List Move).Perm (.lapseBs :: (List.range [busyUnit, busyUnit].length).map .lapseCe) :=
  ⟨⟨rfl, by decide +kernel, rfl, ⟨_, rfl⟩, _, rfl⟩, by decide, by simp, by decide, by decide⟩

theorem witness_ResetInput :
    (withMove .reset (machine busyUnit waitingBs (env []))).moves = .reset :: [] := rfl

end Sys2Proof.Tests
end

section
/-!
SUPPORT. A command by the kind of unit it runs on: what `exec` is for the five cipher commands and for the six bootloader
commands, and what an idle unit makes of it.
-/

namespace Sys2Proof.Machine

/-! ## Commands by unit -/

/-- Where the accept step of a bootloader command puts BS: `DEV_INIT` opens the session, the others begin with their
checks (R180, R221). -/
def bsStart (p : Params) : Instr → BsUnit → BsUnit
  | .devInit => sessionOpen p
  | _ => startAtChecks

/-- A command runs on BS or on one cipher unit. -/
theorem soloLapse_cases (i : Instr) : soloLapse i = .lapseBs ∨ ∃ k, soloLapse i = .lapseCe k := by
  cases i <;> simp [soloLapse]

/-- A command of cipher unit `k` is a write of its code to that unit's command register. -/
theorem exec_ce {i : Instr} {k : Nat} (h : soloLapse i = .lapseCe k) (s : State) :
    exec i s = .next (issueCe k (codeOf i) s) := by
  cases i <;> cases h <;> rfl

/-- A bootloader command is a write of its code to `BS_CMD`. -/
theorem exec_bs {i : Instr} (h : soloLapse i = .lapseBs) (s : State) :
    exec i s = .next (issueBs (codeOf i) (bsStart s.params i) s) := by
  cases i <;> cases h <;> rfl

theorem soloLapse_cipher {i : Instr} {k : Nat} (h : i ∈ [.ecbEnc k, .ecbDec k, .cbcEnc k, .cbcDec k, .genIv k]) :
    soloLapse i = .lapseCe k := by
  simp only [List.mem_cons, List.not_mem_nil, or_false] at h
  rcases h with rfl | rfl | rfl | rfl | rfl <;> rfl

theorem soloLapse_boot {i : Instr} (h : i ∈ [.devInit, .blkStart, .blkWrite, .chunkWrite, .blkProgram, .devLoad]) :
    soloLapse i = .lapseBs := by
  simp only [List.mem_cons, List.not_mem_nil, or_false] at h
  rcases h with rfl | rfl | rfl | rfl | rfl | rfl <;> rfl

/-- The cipher commands' codes are 1 to 5, and `GEN_IV`'s alone is 5 (R93). -/
theorem codeOf_cipher {i : Instr} {k : Nat} (h : soloLapse i = .lapseCe k) :
    1 ≤ (codeOf i).toNat ∧ (codeOf i).toNat ≤ 5 ∧ (codeOf i = 0x05 → i = .genIv k) := by
  cases i <;> cases h <;> simp [codeOf]

/-- `DEV_INIT`'s code alone is 0x10 (R93). -/
theorem codeOf_eq_devInit {i : Instr} (h : codeOf i = 0x10) : i = .devInit := by
  cases i <;> cases h
  rfl

/-! ## Changes to one cipher unit -/

/-- Two changes that agree on the unit they are made to. -/
theorem onCe_congr {s : State} {k : Nat} {f g : CeUnit → CeUnit} (h : ∀ u, s.ces[k]? = some u → f u = g u) :
    s.onCe k f = s.onCe k g := by
  cases hu : s.ces[k]? with
  | none => rw [onCe_none _ _ _ hu, onCe_none _ _ _ hu]
  | some u => rw [onCe_some _ _ _ _ hu, onCe_some _ _ _ _ hu, h u hu]

/-- Two changes to one unit are one change. -/
theorem onCe_onCe (s : State) (k : Nat) (f g : CeUnit → CeUnit) :
    (s.onCe k f).onCe k g = s.onCe k fun u => g (f u) := by
  simp only [onCe_eq]
  congr 1
  apply List.ext_getElem?
  intro n
  by_cases h : k = n <;> simp [h, Function.comp_def]

/-! ## A command issued to an idle unit -/

/-- An idle cipher unit accepts and runs. -/
theorem issueCe_idle {s : State} {k : Nat} (c : Byte) (h : ∀ u, s.ces[k]? = some u → u.flags.busy = false) :
    issueCe k c s = s.onCe k fun u => ceRun s.params k s.pace (u.accept c) :=
  onCe_congr fun u hu => by simp [h u hu]

/-- Idle BS accepts, and runs from where the accept step puts it. -/
theorem issueBs_idle {s : State} (c : Byte) (start : BsUnit → BsUnit) (h : s.bs.flags.busy = false) :
    issueBs c start s = s.onBs fun x => bsRun s.params s.fwb s.img s.pace (start (x.1.accept c), x.2) := by
  simp [issueBs, State.onBs, h]

/-- Commands to two cipher units can be issued in either order (R275). -/
theorem issueCe_comm (s : State) {j k : Nat} (h : j ≠ k) (c d : Byte) :
    issueCe k d (issueCe j c s) = issueCe j c (issueCe k d s) := by
  simp only [issueCe, onCe_params, onCe_pace]
  exact onCe_comm _ _ _ _ _ h

/-- A command to a cipher unit and one to BS can be issued in either order (R275). -/
theorem issueCe_issueBs (s : State) (k : Nat) (c d : Byte) (start : BsUnit → BsUnit) :
    issueBs d start (issueCe k c s) = issueCe k c (issueBs d start s) := by
  simp only [issueCe, issueBs, onCe_params, onCe_fwb, onCe_img, onCe_pace, onBs_params, onBs_pace]
  exact onCe_onBs _ _ _ _

theorem issueCe_params (k : Nat) (c : Byte) (s : State) : (issueCe k c s).params = s.params := onCe_params _ _ _
theorem issueCe_bs (k : Nat) (c : Byte) (s : State) : (issueCe k c s).bs = s.bs := onCe_bs _ _ _
theorem issueCe_moves (k : Nat) (c : Byte) (s : State) : (issueCe k c s).moves = s.moves := onCe_moves _ _ _
theorem issueCe_other (s : State) {j k : Nat} (c : Byte) (h : j ≠ k) : (issueCe k c s).ces[j]? = s.ces[j]? :=
  onCe_other _ _ _ _ h

end Sys2Proof.Machine
end

section
/-!
SUPPORT. Time passing: what a run of lapses, of all units or of single ones, comes to, and that the order of the units'
steps does not matter (R23, R275). Settles O55.
-/

namespace Sys2Proof.Machine

/-- A run takes its first step, then the rest. -/
theorem run_succ {s t : State} (n : Nat) (h : step s = .next t) :
    Host.Core.run Sys2Proof.core (n + 1) s = Host.Core.run Sys2Proof.core n t := by
  simp [Host.Core.run, Sys2Proof.core, h]

/-! ## All units take steps -/

/-- The machine after every unit has taken up to `m` steps. -/
def lapses (m : Nat) (s : State) : State :=
  { s with
    ces := s.ces.mapIdx fun k u => ceRun s.params k m u
    bs := (bsRun s.params s.fwb s.img m (s.bs, s.env)).1
    env := (bsRun s.params s.fwb s.img m (s.bs, s.env)).2 }

/-- The map that keeps every entry keeps the list. -/
theorem mapIdx_unchanged {α : Type} (l : List α) : l.mapIdx (fun _ u => u) = l := by simp [List.mapIdx_eq_iff]

theorem lapses_zero (s : State) : lapses 0 s = s := by
  have h : s.ces.mapIdx (fun k u => ceRun s.params k 0 u) = s.ces := mapIdx_unchanged s.ces
  simp only [lapses, h, bsRun]

theorem lapses_succ (m : Nat) (s : State) : lapses (m + 1) s = lapses m (lapse s) := by
  simp only [lapses, lapse, Nat.add_comm m 1, ceRun_add, bsRun_add, List.mapIdx_mapIdx, Function.comp_def]

/-- With no move pending, `m` steps of the machine are `m` lapses. -/
theorem run_lapses (m : Nat) (s : State) (h : s.moves = []) :
    Host.Core.run Sys2Proof.core m s = .next (lapses m s) := by
  induction m generalizing s with
  | zero => rw [lapses_zero]; rfl
  | succ m ih =>
    rw [lapses_succ, ← ih (lapse s) h]
    exact run_succ m (by simp [step, h, fetch])

/-- When all cipher units but `k` are idle and BS is, lapses are steps of unit `k`. -/
theorem lapses_ce {s : State} {k : Nat} (m : Nat)
    (hc : ∀ j u, j ≠ k → s.ces[j]? = some u → u.flags.busy = false) (hb : s.bs.flags.busy = false) :
    lapses m s = s.onCe k (ceRun s.params k m) := by
  have hces : s.ces.mapIdx (fun j u => ceRun s.params j m u) = s.ces.modify k (ceRun s.params k m) := by
    apply List.ext_getElem?
    intro j
    rw [List.getElem?_mapIdx, List.getElem?_modify]
    cases hu : s.ces[j]? with
    | none => rfl
    | some u =>
      by_cases hj : k = j
      · simp [hj]
      · simp [hj, ceRun_idle _ _ _ _ (hc j u (Ne.symm hj) hu)]
  rw [onCe_eq, lapses, hces, bsRun_idle _ _ _ _ _ hb]

/-- When all cipher units are idle, lapses are steps of BS. -/
theorem lapses_bs {s : State} (m : Nat) (hc : ∀ u ∈ s.ces, u.flags.busy = false) :
    lapses m s = s.onBs (bsRun s.params s.fwb s.img m) := by
  have hces : s.ces.mapIdx (fun k u => ceRun s.params k m u) = s.ces :=
    List.mapIdx_eq_iff.mpr fun k => by
      cases hu : s.ces[k]? with
      | none => rfl
      | some u => simp [ceRun_idle _ _ _ _ (hc u (List.mem_of_getElem? hu))]
  rw [lapses, hces]
  rfl

/-! ## Single units take steps -/

/-- The move lets one unit alone take a step. -/
def Move.single (m : Move) : Prop := m = .lapseBs ∨ ∃ k, m = .lapseCe k

/-- What such a move does; the other moves are not spoken of. -/
def singleStep (s : State) : Move → State
  | .lapseCe k => lapseCe k s
  | .lapseBs => lapseBs s
  | _ => s

/-- Any two of the units' steps can be taken in either order (R275). -/
theorem singleStep_comm {m m' : Move} (h : m.single) (h' : m'.single) (s : State) :
    singleStep (singleStep s m) m' = singleStep (singleStep s m') m := by
  rcases h with rfl | ⟨j, rfl⟩ <;> rcases h' with rfl | ⟨k, rfl⟩
  · rfl
  · exact lapseCe_lapseBs s k
  · exact (lapseCe_lapseBs s j).symm
  · exact lapseCe_comm s k j

/-- No unit's step looks at HOST's coming moves. -/
theorem singleStep_moves {m : Move} (h : m.single) (s : State) (ms : List Move) :
    singleStep { s with moves := ms } m = { singleStep s m with moves := ms } := by
  rcases h with rfl | ⟨k, rfl⟩
  · rfl
  · simp only [singleStep, lapseCe, onCe_eq]

/-- The machine's step on such a move is the unit's step. -/
theorem step_single {m : Move} (h : m.single) (s : State) (ms : List Move) :
    step { s with moves := m :: ms } = .next { singleStep s m with moves := ms } := by
  rw [← singleStep_moves h]
  rcases h with rfl | ⟨k, rfl⟩ <;> rfl

/-- A run of single units' steps takes them one after the other. -/
theorem run_singles (ms : List Move) (h : ∀ m ∈ ms, m.single) (s : State) :
    Host.Core.run Sys2Proof.core ms.length { s with moves := ms } = .next { ms.foldl singleStep s with moves := [] } := by
  induction ms generalizing s with
  | nil => rfl
  | cons m ms ih =>
    obtain ⟨hm, hms⟩ := List.forall_mem_cons.mp h
    rw [List.length_cons, run_succ _ (step_single hm s ms), ih hms, List.foldl_cons]

/-- Two orders of the same single steps end in the same state. -/
theorem foldl_singleStep_perm {ms ms' : List Move} (hp : ms.Perm ms') (h : ∀ m ∈ ms, m.single) (s : State) :
    ms.foldl singleStep s = ms'.foldl singleStep s :=
  hp.foldl_eq' (fun m hm m' hm' z => singleStep_comm (h m hm) (h m' hm') z) s

/-- Runs of the same single steps in two orders end in the same state (R275). -/
theorem run_singles_perm {ms ms' : List Move} (hp : ms.Perm ms') (h : ∀ m ∈ ms, m.single) (s : State) :
    Host.Core.run Sys2Proof.core ms.length { s with moves := ms } =
      Host.Core.run Sys2Proof.core ms'.length { s with moves := ms' } := by
  rw [run_singles ms h, run_singles ms' (fun m hm => h m (hp.mem_iff.mpr hm)), foldl_singleStep_perm hp h]

/-- `m` steps of cipher unit `k` alone. -/
theorem foldl_replicate_lapseCe (k m : Nat) (s : State) :
    (List.replicate m (.lapseCe k)).foldl singleStep s = s.onCe k (ceRun s.params k m) := by
  induction m generalizing s with
  | zero => rw [onCe_eq]; exact (congrArg (fun l => { s with ces := l }) (List.modify_id k s.ces)).symm
  | succ m ih =>
    rw [List.replicate_succ, List.foldl_cons, ih]
    simp only [singleStep, lapseCe, onCe_params, onCe_onCe, Nat.add_comm m 1]
    exact onCe_congr fun u _ => (ceRun_add _ _ _ _ u).symm

/-- `m` steps of BS alone. -/
theorem foldl_replicate_lapseBs (m : Nat) (s : State) :
    (List.replicate m .lapseBs).foldl singleStep s = s.onBs (bsRun s.params s.fwb s.img m) := by
  induction m generalizing s with
  | zero => rfl
  | succ m ih =>
    rw [List.replicate_succ, List.foldl_cons, ih]
    simp only [singleStep, lapseBs, State.onBs, Nat.add_comm m 1, bsRun_add]

/-- HOST lets cipher unit `k` alone take `m` steps. -/
theorem run_replicate_lapseCe (k m : Nat) (s : State) :
    Host.Core.run Sys2Proof.core m { s with moves := List.replicate m (.lapseCe k) } =
      .next { s.onCe k (ceRun s.params k m) with moves := [] } := by
  have h := run_singles (List.replicate m (.lapseCe k)) (fun _ hm => .inr ⟨k, List.eq_of_mem_replicate hm⟩) s
  rwa [List.length_replicate, foldl_replicate_lapseCe] at h

/-- HOST lets BS alone take `m` steps. -/
theorem run_replicate_lapseBs (m : Nat) (s : State) :
    Host.Core.run Sys2Proof.core m { s with moves := List.replicate m .lapseBs } =
      .next { s.onBs (bsRun s.params s.fwb s.img m) with moves := [] } := by
  have h := run_singles (List.replicate m .lapseBs) (fun _ hm => .inl (List.eq_of_mem_replicate hm)) s
  rwa [List.length_replicate, foldl_replicate_lapseBs] at h

/-- One step of each of the first `n` cipher units. -/
theorem foldl_range_lapseCe (n : Nat) (s : State) :
    ((List.range n).map .lapseCe).foldl singleStep s =
      { s with ces := s.ces.mapIdx fun k u => if k < n then ceRun s.params k 1 u else u } := by
  induction n with
  | zero => simp [mapIdx_unchanged]
  | succ n ih =>
    rw [List.range_succ, List.map_append, List.foldl_append, ih]
    simp only [List.map_cons, List.map_nil, List.foldl_cons, List.foldl_nil, singleStep, lapseCe, onCe_eq]
    congr 1
    apply List.ext_getElem?
    intro k
    rw [List.getElem?_modify, List.getElem?_mapIdx, List.getElem?_mapIdx]
    rcases Nat.lt_trichotomy k n with h | h | h
    · simp [h, Nat.lt_succ_of_lt h, Nat.ne_of_gt h]
    · simp [h]
    · simp [Nat.ne_of_lt h, show ¬k < n by omega, show ¬k < n + 1 by omega]

/-- A lapse of time is one step of BS and one of each cipher unit. -/
theorem foldl_all_units (s : State) :
    (.lapseBs :: (List.range s.ces.length).map .lapseCe).foldl singleStep s = lapse s := by
  rw [List.foldl_cons, foldl_range_lapseCe]
  have h : (lapseBs s).ces.mapIdx (fun k u => if k < s.ces.length then ceRun s.params k 1 u else u) =
      s.ces.mapIdx fun k u => ceRun s.params k 1 u :=
    List.mapIdx_eq_mapIdx_iff.mpr fun k hk => if_pos hk
  simp only [singleStep, lapse]
  exact congrArg (fun l => { lapseBs s with ces := l }) h

/-! ## A command cut in two -/

/-- A cipher command that gets `m` further steps is where more steps at once take it. -/
theorem issueCe_further {s : State} {k : Nat} (c : Byte) (n m : Nat)
    (h : ∀ u, s.ces[k]? = some u → u.flags.busy = false) :
    (issueCe k c { s with pace := n }).onCe k (ceRun s.params k m) =
      { issueCe k c { s with pace := n + m } with pace := n } := by
  rw [issueCe_idle (s := { s with pace := n }) c h, issueCe_idle (s := { s with pace := n + m }) c h, onCe_onCe]
  simp only [onCe_eq, ceRun_add]

/-- The same of a bootloader command. -/
theorem issueBs_further {s : State} (c : Byte) (start : BsUnit → BsUnit) (n m : Nat) (h : s.bs.flags.busy = false) :
    (issueBs c start { s with pace := n }).onBs (bsRun s.params s.fwb s.img m) =
      { issueBs c start { s with pace := n + m } with pace := n } := by
  rw [issueBs_idle (s := { s with pace := n }) c start h, issueBs_idle (s := { s with pace := n + m }) c start h]
  simp only [State.onBs, bsRun_add]

/-- From `t`, `m` lapses and `m` steps of one unit alone both lead to `t'`, but for the field `pace`. -/
def MeetsAfter (m : Nat) (alone : Move) (t t' : State) : Prop :=
  (∃ w, Host.Core.run Sys2Proof.core m t = .next w ∧ { w with pace := 0 } = { t' with pace := 0 }) ∧
    ∃ w, Host.Core.run Sys2Proof.core m { t with moves := List.replicate m alone } = .next w ∧
      { w with pace := 0 } = { t' with pace := 0 }

/-- Steps of one unit that are the lapses of the whole machine, and that end in `t'` but for its `pace`. -/
theorem meetsAfter_intro {m n : Nat} {alone : Move} {t t' r : State} (hm : t.moves = []) (hl : lapses m t = r)
    (ha : Host.Core.run Sys2Proof.core m { t with moves := List.replicate m alone } = .next { r with moves := [] })
    (hr : r = { t' with pace := n }) : MeetsAfter m alone t t' := by
  have hmoves : r.moves = [] := by rw [← hl]; exact hm
  refine ⟨⟨r, by rw [run_lapses m t hm, hl], by rw [hr]⟩, ⟨_, ha, ?_⟩⟩
  rw [← hmoves, hr]

/-- R20, R23: where a command on an otherwise idle machine is cut does not matter. -/
theorem command_cut {s t t' : State} {i : Instr} {n m : Nat} (hm : s.moves = [])
    (hc : ∀ u ∈ s.ces, u.flags.busy = false) (hb : s.bs.flags.busy = false)
    (ht : exec i { s with pace := n } = .next t) (ht' : exec i { s with pace := n + m } = .next t') :
    MeetsAfter m (soloLapse i) t t' := by
  rcases soloLapse_cases i with h | ⟨k, h⟩
  · rw [exec_bs h] at ht ht'
    cases ht
    cases ht'
    rw [h]
    exact meetsAfter_intro hm (lapses_bs m hc) (run_replicate_lapseBs m _) (issueBs_further _ _ n m hb)
  · have hk : ∀ u, s.ces[k]? = some u → u.flags.busy = false := fun u hu => hc u (List.mem_of_getElem? hu)
    rw [exec_ce h] at ht ht'
    cases ht
    cases ht'
    rw [h]
    refine meetsAfter_intro (n := n) ?_ (lapses_ce m (fun j u hj hu => ?_) ?_) (run_replicate_lapseCe k m _) ?_
    · rw [issueCe_moves]; exact hm
    · rw [issueCe_other _ _ hj] at hu; exact hc u (List.mem_of_getElem? hu)
    · rw [issueCe_bs]; exact hb
    · rw [issueCe_params]; exact issueCe_further _ n m hk

/-! ## Commands to different units -/

/-- Two commands to different units lead to the same state in either order, however far each gets (R275). -/
theorem exec_comm (s : State) {i j : Instr} (h : soloLapse i ≠ soloLapse j) :
    ∃ t t' w, exec i s = .next t ∧ exec j t = .next w ∧ exec j s = .next t' ∧ exec i t' = .next w := by
  rcases soloLapse_cases i with hi | ⟨k, hi⟩ <;> rcases soloLapse_cases j with hj | ⟨l, hj⟩
  · exact absurd (hi.trans hj.symm) h
  · refine ⟨_, _, _, exec_bs hi s, exec_ce hj _, exec_ce hj s, (exec_bs hi _).trans ?_⟩
    rw [issueCe_params, issueCe_issueBs]
  · refine ⟨_, _, _, exec_ce hi s, exec_bs hj _, exec_bs hj s, (exec_ce hi _).trans ?_⟩
    rw [issueCe_params, issueCe_issueBs]
  · have hkl : l ≠ k := fun e => h (by rw [hi, hj, e])
    exact ⟨_, _, _, exec_ce hi s, exec_ce hj _, exec_ce hj s,
      (exec_ce hi _).trans (congrArg _ (issueCe_comm s hkl _ _))⟩

/-- A lapse of time is one step of each unit, whatever order they take (R275). -/
theorem step_lapse_eq_singles (s : State) (ms : List Move)
    (hp : ms.Perm (.lapseBs :: (List.range s.ces.length).map .lapseCe)) :
    step { s with moves := [] } = Host.Core.run Sys2Proof.core ms.length { s with moves := ms } := by
  have hsingle : ∀ m ∈ ms, m.single := fun m hm => by
    rcases List.mem_cons.mp (hp.mem_iff.mp hm) with rfl | h
    · exact .inl rfl
    · obtain ⟨k, -, rfl⟩ := List.mem_map.mp h
      exact .inr ⟨k, rfl⟩
  rw [run_singles ms hsingle, foldl_singleStep_perm hp hsingle, foldl_all_units]
  rfl

/-- Settles O55: a command's cuts are sums of runs, and the units' steps and commands change different parts of the
machine. -/
theorem cutsAndInterleavingsAgree : Obligations.CutsAndInterleavingsAgree :=
  ⟨fun _ _ _ _ _ _ hm hc hb ht ht' => command_cut hm hc hb ht ht',
    fun s _ _ hp h => run_singles_perm hp h s,
    fun s _ _ h => exec_comm s h,
    step_lapse_eq_singles⟩

end Sys2Proof.Machine
end

section
/-!
SUPPORT. The frames of the commands, from what a run of a unit's steps can change (`ceRun_spec`, `bsRun_frame`). Settles O20
and O45.
-/

namespace Sys2Proof.Machine

/-! ## The cipher-unit commands -/

/-- An idle unit that accepts one of the five codes is at the start of a command. -/
theorem accept_runInv {p : Params} {c : Byte} {u : CeUnit} (hc : 1 ≤ c.toNat ∧ c.toNat ≤ 5) (h : u.idleClear) :
    (u.accept c).RunInv p where
  idle hb := by cases hb
  checks _ _ := ⟨hc.1, hc.2, h.2.2.2⟩
  running _ hp := absurd rfl hp

/-- A command issued to a cipher unit that exists. -/
theorem issueCe_setCe {s : State} {k : Nat} {u : CeUnit} (c : Byte) (h : s.ces[k]? = some u) :
    issueCe k c s = s.setCe k
      (if u.flags.busy then { u with flags := u.flags.overrun } else ceRun s.params k s.pace (u.accept c)) :=
  onCe_some _ _ _ _ h

/-- Settles O20: a busy unit only sets `OVR`; an idle one runs, and `ceRun_spec` says what a run can change. -/
theorem cipherCommandFrame : Obligations.CipherCommandFrame := by
  intro s t k u i hi hu hidle ht
  have hs := soloLapse_cipher hi
  obtain ⟨hc1, hc5, hgen⟩ := codeOf_cipher hs
  rw [exec_ce hs, issueCe_setCe _ hu] at ht
  cases ht
  refine ⟨_, rfl, ?_⟩
  cases hb : u.flags.busy with
  | true =>
    rw [if_pos rfl]
    exact ⟨⟨rfl, rfl, rfl, rfl, rfl, rfl⟩, fun _ _ => rfl, fun h => absurd (hb.symm.trans h) (by decide), fun _ => rfl⟩
  | false =>
    rw [if_neg (by decide)]
    have hrun := ceRun_spec s.params k s.pace _ (accept_runInv (p := s.params) ⟨hc1, hc5⟩ (hidle hb))
    exact ⟨hrun.operands, fun a ha => by rw [byteAt, hrun.outside a ha]; rfl, fun h => ⟨h, hrun.inv.idle h⟩,
      fun hne => hrun.rng.resolve_right fun hc => hne (hgen hc)⟩

/-! ## The bootloader commands -/

theorem sameOperands_trans {a b c : BsUnit} (h1 : a.sameOperands b) (h2 : b.sameOperands c) : a.sameOperands c := by
  obtain ⟨p1, p2, p3, p4, p5, p6, p7, p8, p9, p10⟩ := h1
  obtain ⟨q1, q2, q3, q4, q5, q6, q7, q8, q9, q10⟩ := h2
  exact ⟨q1.trans p1, q2.trans p2, q3.trans p3, q4.trans p4, q5.trans p5, q6.trans p6, q7.trans p7, q8.trans p8,
    q9.trans p9, q10.trans p10⟩

/-- The accept step writes no operand register (R22). -/
theorem bsStart_operands (p : Params) (i : Instr) (c : Byte) (b : BsUnit) :
    b.sameOperands (bsStart p i (b.accept c)) := by
  unfold bsStart
  split <;> exact ⟨rfl, rfl, rfl, rfl, rfl, rfl, rfl, rfl, rfl, rfl⟩

/-- The accept step puts BS at a place of the command's pseudocode. -/
theorem bsStart_onCommand {i : Instr} (h : soloLapse i = .lapseBs) (p : Params) (b : BsUnit) (e : Env) :
    OnCommand (codeOf i) (bsStart p i (b.accept (codeOf i)), e) := by
  intro _
  cases i <;> cases h
  · exact ⟨rfl, rfl⟩
  all_goals exact ⟨rfl, by simp [BsUnit.cmdPoint, bsStart, startAtChecks, codeOf]⟩

/-- Settles O45: busy BS only sets `OVR`; idle BS runs from its accept step, and `bsRun_frame` says what a run can
change. -/
theorem bootCommandFrame : Obligations.BootCommandFrame := by
  intro s t i hi ht
  have hs := soloLapse_boot hi
  rw [exec_bs hs] at ht
  cases ht
  refine ⟨rfl, ?_⟩
  by_cases hb : s.bs.flags.busy = true
  · simp only [issueBs, onBs_bs, onBs_env, if_pos hb]
    exact ⟨⟨rfl, rfl, rfl, rfl, rfl, rfl, rfl, rfl, rfl, rfl⟩, fun _ => trivial, ⟨[], by simp⟩, ⟨[], by simp⟩⟩
  · rw [issueBs_idle _ _ (by simpa using hb), onBs_bs, onBs_env]
    have hrun := (bsRun_frame s.params s.fwb s.img s.pace _ (bsStart_onCommand hs s.params s.bs s.env)).1
    exact ⟨sameOperands_trans (bsStart_operands s.params i (codeOf i) s.bs) hrun.operands,
      fun hne => hrun.registers fun hc => hne (codeOf_eq_devInit hc), hrun.later.messages, hrun.later.sent⟩

end Sys2Proof.Machine
end

section
/-!
SUPPORT. The words of the key schedule: which word each write of `EXPAND_KEY` sets, and which the loop leaves alone
(R141, R142). Settles O12.
-/

namespace Sys2Proof.Machine

/-- The three rows of R8. -/
theorem variantOf_eq_some_iff (x : Half) (v : Variant) : variantOf x = some v ↔
    (x.toNat = 128 ∧ v = { nk := 4, nr := 10 }) ∨ (x.toNat = 192 ∧ v = { nk := 6, nr := 12 }) ∨
      (x.toNat = 256 ∧ v = { nk := 8, nr := 14 }) := by
  unfold variantOf
  split
  case h_1 h => simp [h, eq_comm]
  case h_2 h => simp [h, eq_comm]
  case h_3 h => simp [h, eq_comm]
  case h_4 h1 h2 h3 =>
    refine ⟨nofun, ?_⟩
    rintro (⟨h, -⟩ | ⟨h, -⟩ | ⟨h, -⟩)
    · exact absurd h h1
    · exact absurd h h2
    · exact absurd h h3

theorem scheduleWord_eq_getElem? (W : Vector CWord 60) (j : Nat) : scheduleWord W j = W[j]?.getD zeroWord := by
  simp [scheduleWord, Vector.getD]

/-- A word of the schedule after one word has been set. -/
theorem scheduleWord_setIfInBounds (W : Vector CWord 60) (i j : Nat) (x : CWord) :
    scheduleWord (W.setIfInBounds i x) j = if i = j ∧ j < 60 then x else scheduleWord W j := by
  rw [scheduleWord_eq_getElem?, scheduleWord_eq_getElem?, Vector.getElem?_setIfInBounds]
  by_cases h : i = j
  · subst h
    by_cases hi : i < 60 <;> simp [hi]
  · simp [h]

/-- The schedule before expansion: the key's words, then zeros. -/
theorem scheduleWord_copyKey (key : Vector Byte 32) (nk j : Nat) :
    scheduleWord (copyKey key nk) j = if j < nk ∧ j < 60 then keyWord key j else zeroWord := by
  unfold copyKey
  induction nk with
  | zero =>
    rw [if_neg (by omega), List.range_zero, List.foldl_nil, scheduleWord_eq_getElem?, Vector.getElem?_replicate]
    split <;> rfl
  | succ nk ih =>
    rw [List.range_succ, List.foldl_append, List.foldl_cons, List.foldl_nil, scheduleWord_setIfInBounds, ih]
    by_cases h : nk = j
    · simp [h]
    · rw [if_neg (by omega)]
      congr 1
      simp only [eq_iff_iff]
      omega

/-- Passes of the loop at words `a` to `a + n - 1` leave every other word alone. -/
theorem scheduleWord_passes_outside (nk n a j : Nat) (W : Vector CWord 60) (h : j < a ∨ a + n ≤ j) :
    scheduleWord ((List.range' a n).foldl (expandStep nk) W) j = scheduleWord W j := by
  induction n generalizing a W with
  | zero => rfl
  | succ n ih =>
    rw [List.range'_succ, List.foldl_cons, ih _ _ (by omega), expandStep, scheduleWord_setIfInBounds,
      if_neg (by omega)]

/-- Passes of the loop at words `a` to `a + n - 1` make each of them what R141's recurrence gives, in terms of the words
as they are at the end. -/
theorem scheduleWord_passes_inside {nk n a i : Nat} (W : Vector CWord 60) (hk : 1 ≤ nk) (ha : 1 ≤ a) (hn : a + n ≤ 60)
    (hi : a ≤ i) (hin : i < a + n) :
    scheduleWord ((List.range' a n).foldl (expandStep nk) W) i =
      xorWord (scheduleWord ((List.range' a n).foldl (expandStep nk) W) (i - nk))
        (expandTemp nk i (scheduleWord ((List.range' a n).foldl (expandStep nk) W) (i - 1))) := by
  induction n generalizing a W with
  | zero => omega
  | succ n ih =>
    by_cases h : i = a
    · subst h
      rw [scheduleWord_passes_outside nk (n + 1) i (i - nk) W (by omega),
        scheduleWord_passes_outside nk (n + 1) i (i - 1) W (by omega), List.range'_succ, List.foldl_cons,
        scheduleWord_passes_outside nk n (i + 1) i _ (by omega), expandStep, scheduleWord_setIfInBounds,
        if_pos ⟨rfl, by omega⟩]
    · rw [List.range'_succ, List.foldl_cons]
      exact ih _ (by omega) (by omega) (by omega) (by omega)

/-- A key word reads four bytes of the key. -/
theorem keyWord_congr {key key' : Vector Byte 32} {j n : Nat} (hj : j < n)
    (h : ∀ b, b < 4 * n → key'.getD b 0 = key.getD b 0) : keyWord key' j = keyWord key j := by
  unfold keyWord
  congr 1
  funext b
  exact h _ (by omega)

/-- The schedule is the one of the key's first `Nk` words. -/
theorem expandKey_congr {key key' : Vector Byte 32} (v : Variant)
    (h : ∀ b, b < 4 * v.nk → key'.getD b 0 = key.getD b 0) : expandKey key' v = expandKey key v := by
  have hcopy : copyKey key' v.nk = copyKey key v.nk :=
    List.foldl_ext _ _ _ fun W j hj => by rw [keyWord_congr (List.mem_range.mp hj) h]
  rw [expandKey, hcopy, expandKey]

/-- Settles O12: the loop's passes set word `i` once, from words that no later pass changes. -/
theorem keyScheduleWords : Obligations.KeyScheduleWords := by
  refine ⟨variantOf_eq_some_iff, fun key x v hv => ?_⟩
  have hb : 1 ≤ v.nk ∧ v.nk ≤ 4 * (v.nr + 1) ∧ 4 * (v.nr + 1) ≤ 60 := by
    rcases (variantOf_eq_some_iff x v).mp hv with ⟨-, rfl⟩ | ⟨-, rfl⟩ | ⟨-, rfl⟩ <;> decide
  obtain ⟨hnk, hle, h60⟩ := hb
  refine ⟨fun j hj => ?_, fun i hi hlt => ?_, fun i hi => ?_, fun _ h => expandKey_congr v h⟩
  · rw [expandKey, scheduleWord_passes_outside _ _ _ _ _ (by omega), scheduleWord_copyKey, if_pos (by omega)]
  · exact scheduleWord_passes_inside _ hnk hnk (by omega) hi (by omega)
  · rw [expandKey, scheduleWord_passes_outside _ _ _ _ _ (by omega), scheduleWord_copyKey, if_neg (by omega)]

end Sys2Proof.Machine
end

section
/-!
SUPPORT. `ceil_div`, the blocks of a span and the chunks of a block (R13, R206, R207, R228), and the bytes of the wire
payloads (R14, R100 to R105). Settles O27, O28 and O25.
-/

namespace Sys2Proof.Machine

/-! ## ceil_div -/

theorem ceilDiv_pos {a c : Nat} (ha : 0 < a) (hc : 0 < c) : 0 < ceilDiv a c :=
  Nat.div_pos (by omega) hc

/-- One piece of size `c` fewer than `ceil_div(a, c)` does not reach to `a`. -/
theorem pred_ceilDiv_mul_lt {a c : Nat} (ha : 0 < a) (hc : 0 < c) : (ceilDiv a c - 1) * c < a := by
  have h : ceilDiv a c * c ≤ a + c - 1 := Nat.div_mul_le_self _ _
  have hpos := ceilDiv_pos ha hc
  rw [Nat.sub_mul]
  omega

/-! ## The blocks of a span -/

/-- Settles O27, from the two bounds on `ceil_div`. -/
theorem blocksCoverSpan : Obligations.BlocksCoverSpan := by
  intro bs lo hi hbs hlt
  have hmod := Nat.mod_lt lo hbs
  have hle := Nat.mod_le lo bs
  have hpos : 0 < hi - (lo - lo % bs) := by omega
  have hreach := ceilDiv_mul_le (hi - (lo - lo % bs)) bs hbs
  have hfewer := pred_ceilDiv_mul_lt hpos hbs
  refine ⟨?_, Nat.sub_le _ _, ?_, ceilDiv_pos hpos hbs, ?_, ?_⟩ <;> simp only [loadBlocks]
  · exact Nat.mod_eq_zero_of_dvd (Nat.dvd_sub_mod lo)
  all_goals omega

/-! ## The chunks of a block -/

/-- The first `n` chunks joined are the block's first `n * c` bytes. -/
theorem flatten_chunks (data : List Byte) (c n : Nat) :
    ((List.range n).map (chunkSlice data c)).flatten = data.take (n * c) := by
  induction n with
  | zero => simp
  | succ n ih =>
    rw [List.range_succ, List.map_append, List.flatten_append, ih, Nat.succ_mul, List.take_add]
    simp [chunkSlice]

theorem chunkSlice_length_eq (data : List Byte) (c k : Nat) :
    (chunkSlice data c k).length = min c (data.length - k * c) := by simp [chunkSlice]

/-- Settles O28: the chunks are consecutive slices, and `ceil_div` of them just reach the end of the block. -/
theorem chunksPartitionBlock : Obligations.ChunksPartitionBlock := by
  intro data c hc hd
  have hreach := ceilDiv_mul_le data.length c hc
  have hfewer := pred_ceilDiv_mul_lt hd hc
  have hpos := ceilDiv_pos hd hc
  refine ⟨?_, by simp [blockChunks], fun k hk => ?_, chunkSlice data c (ceilDiv data.length c - 1), ?_, ?_, ?_⟩
  · rw [blockChunks, flatten_chunks, List.take_of_length_le hreach]
  · have hkc : (k + 1) * c ≤ (ceilDiv data.length c - 1) * c := Nat.mul_le_mul_right c (by omega)
    rw [Nat.succ_mul] at hkc
    simp only [blockChunks, List.getElem?_map, List.getElem?_range (show k < ceilDiv data.length c by omega),
      Option.map_some, chunkSlice_length_eq]
    congr 1
    omega
  · rw [blockChunks, List.getLast?_map, List.getLast?_range, if_neg (by omega)]
    rfl
  · rw [chunkSlice_length_eq]
    omega
  · exact chunkSlice_length _ _ _

/-! ## The bytes of a payload -/

/-- `be32_bytes` gives the four bytes of a value, most significant first (R14). -/
theorem be32Bytes_eq (n : Word) : be32Bytes n =
    [BitVec.ofNat 8 (n.toNat / 2 ^ 24), BitVec.ofNat 8 (n.toNat / 2 ^ 16), BitVec.ofNat 8 (n.toNat / 2 ^ 8),
      BitVec.ofNat 8 n.toNat] := by
  simp only [be32Bytes, BitVec.extractLsb', Nat.shiftRight_eq_div_pow, Nat.pow_zero, Nat.div_one]

/-- A bit of `be32` is a bit of the byte it lies in (R14). -/
theorem be32_getLsbD (b0 b1 b2 b3 : Byte) (i : Nat) : (be32 b0 b1 b2 b3).getLsbD i =
    if i < 8 then b3.getLsbD i else if i < 16 then b2.getLsbD (i - 8) else if i < 24 then b1.getLsbD (i - 16)
    else b0.getLsbD (i - 24) := by
  simp only [be32, BitVec.getLsbD_append, Nat.sub_sub]
  split
  · rfl
  · simp only [show i - 8 < 8 ↔ i < 16 by omega, show i - (8 + 8) < 8 ↔ i < 24 by omega]

/-- `be32` of the four bytes of a value is the value (R14). -/
theorem be32_be32Bytes (n : Word) :
    be32 (n.extractLsb' 24 8) (n.extractLsb' 16 8) (n.extractLsb' 8 8) (n.extractLsb' 0 8) = n := by
  apply BitVec.eq_of_getLsbD_eq
  intro i hi
  rw [be32_getLsbD]
  simp only [BitVec.getLsbD_extractLsb']
  grind

/-- The byte at bits `k` to `k + 7` of a value, from its bits. -/
theorem extractLsb'_eq_of_bits {w : Word} {x : Byte} {k : Nat}
    (h : ∀ i, i < 8 → w.getLsbD (k + i) = x.getLsbD i) : w.extractLsb' k 8 = x :=
  BitVec.eq_of_getLsbD_eq fun i hi => by simp [hi, h i hi]

/-- `be32_bytes` of four bytes as a value gives the bytes (R14). -/
theorem be32Bytes_be32 (b0 b1 b2 b3 : Byte) : be32Bytes (be32 b0 b1 b2 b3) = [b0, b1, b2, b3] := by
  simp only [be32Bytes, List.cons.injEq, and_true]
  refine ⟨extractLsb'_eq_of_bits fun i hi => ?_, extractLsb'_eq_of_bits fun i hi => ?_,
    extractLsb'_eq_of_bits fun i hi => ?_, extractLsb'_eq_of_bits fun i hi => ?_⟩ <;> rw [be32_getLsbD] <;> grind

/-- Settles O25: `be32` and `be32_bytes` undo each other bit by bit, and a request of at most 512 bytes is not cut. -/
theorem payloadLayouts : Obligations.PayloadLayouts := by
  refine ⟨fun p b => ?_, fun n m => ?_, be32Bytes_eq, fun m n rest => ⟨?_, ?_⟩, be32Bytes_be32, fun ev => ?_,
    fun p b typ payload hl => ⟨?_, rfl, rfl, rfl, rfl⟩⟩
  · simp only [enterBootPayload, BitVec.extractLsb', Nat.shiftRight_eq_div_pow, Nat.pow_zero, Nat.div_one]
  · rw [startBlockPayload, be32Bytes_eq]
    rfl
  · exact be32_be32Bytes m
  · exact be32_be32Bytes n
  · rw [payload_length]
    exact ⟨rfl, by omega⟩
  · rw [requestEvent_payload, List.take_of_length_le hl]

end Sys2Proof.Machine
end

section
/-!
SUPPORT. The decoder and the encoder undo each other: what a write to a unit's command register decodes to, and what a write
that decodes must have been (R37, R92, R93). Settles O2 and O3.
-/

namespace Sys2Proof

/-! ## From a command to its write -/

/-- A write to offset 0 of a unit below BS with a group 0 code is read by the cipher table. -/
theorem decode_cipherRegister {k : Nat} (hk : k < 15) {c : Byte} (hc : groupField c = 0) :
    decode (regAddr k 0) c = decodeCe k (funcField c) := by
  obtain ⟨ho, hu⟩ := Laws.CodeGroup.commandRegister_parts (show k < 16 by omega)
  have hne : ¬k = bsUnit := Nat.ne_of_lt hk
  simp [decode, ho, hu, hc, hne]

/-- A write to `BS_CMD` with a group 1 code is read by the bootloader table. -/
theorem decode_bootRegister {c : Byte} (hc : groupField c = 1) : decode (regAddr bsUnit 0) c = decodeBs (funcField c) := by
  obtain ⟨ho, hu⟩ := Laws.CodeGroup.commandRegister_parts (show bsUnit < 16 by decide)
  simp [decode, ho, hu, hc]

/-- Settles O2: each command's code names its group and its row in the group's table. -/
theorem decodeInvertsEncode : Obligations.DecodeInvertsEncode := by
  intro i hw
  cases i
  case ecbEnc k | ecbDec k | cbcEnc k | cbcDec k | genIv k =>
    exact decode_cipherRegister (of_decide_eq_true hw) (by simp [encode, codeOf, groupField])
  all_goals exact decode_bootRegister rfl

/-! ## From a write to its command -/

/-- The command register of a unit is the unit's base address. -/
theorem regAddr_unitOf {a : RegAddr} (h : offsetOf a = 0) : regAddr (unitOf a) 0 = a := by
  apply BitVec.eq_of_toNat_eq
  unfold offsetOf at h
  unfold regAddr unitOf
  rw [BitVec.toNat_ofNat]
  omega

/-- A code is its two fields. -/
theorem code_eq_of_fields {c d : Byte} (hg : groupField c = groupField d) (hf : funcField c = funcField d) : c = d := by
  apply BitVec.eq_of_toNat_eq
  unfold groupField at hg
  unfold funcField at hf
  omega

/-- What the cipher table answers is a command of the unit it was asked for, with the function asked for. -/
theorem decodeCe_ok {k f : Nat} {i : Instr} (h : decodeCe k f = .ok i) :
    targetUnit i = k ∧ i.wellFormed = ceIndexFits k ∧ groupField (codeOf i) = 0 ∧ funcField (codeOf i) = f := by
  unfold decodeCe at h
  split at h <;> cases h <;> simp [targetUnit, Instr.wellFormed, codeOf, groupField, funcField]

/-- The same of the bootloader table. -/
theorem decodeBs_ok {f : Nat} {i : Instr} (h : decodeBs f = .ok i) :
    targetUnit i = bsUnit ∧ i.wellFormed = true ∧ groupField (codeOf i) = 1 ∧ funcField (codeOf i) = f := by
  unfold decodeBs at h
  split at h <;> cases h <;> decide

/-- A write that decodes is one to offset 0, of a group 0 code below BS or of a group 1 code at BS. -/
theorem decode_ok {a : RegAddr} {c : Byte} {i : Instr} (h : decode a c = .ok i) : offsetOf a = 0 ∧
    (groupField c = 0 ∧ unitOf a ≠ bsUnit ∧ decodeCe (unitOf a) (funcField c) = .ok i ∨
      groupField c = 1 ∧ unitOf a = bsUnit ∧ decodeBs (funcField c) = .ok i) := by
  unfold decode at h
  split at h
  · cases h
  · rename_i ho
    refine ⟨Decidable.not_not.mp ho, ?_⟩
    split at h
    · split at h
      · cases h
      · exact .inl ⟨‹_›, ‹_›, h⟩
    · split at h
      · split at h
        · exact .inr ⟨‹_›, ‹_›, h⟩
        · cases h
      · cases h

/-- Settles O3: the address is the base of the command's unit, and the code's two fields are the command's. -/
theorem encodeInvertsDecode : Obligations.EncodeInvertsDecode := by
  intro a c i h
  obtain ⟨ho, ⟨hg, hu, hd⟩ | ⟨hg, hu, hd⟩⟩ := decode_ok h
  · obtain ⟨ht, hw, hcg, hcf⟩ := decodeCe_ok hd
    have hlt : unitOf a < 15 := by
      have := a.isLt
      unfold unitOf bsUnit at *
      omega
    refine ⟨hw.trans (decide_eq_true hlt), Prod.ext ?_ (code_eq_of_fields (hcg.trans hg.symm) hcf)⟩
    rw [encode, ht]
    exact regAddr_unitOf ho
  · obtain ⟨ht, hw, hcg, hcf⟩ := decodeBs_ok hd
    refine ⟨hw, Prod.ext ?_ (code_eq_of_fields (hcg.trans hg.symm) hcf)⟩
    rw [encode, ht, ← hu]
    exact regAddr_unitOf ho

end Sys2Proof
end

section
/-!
SUPPORT. The invariant of the whole machine: what keeps `CeUnit.Inv` and `BsUnit.Inv`, from what a run of a unit's steps can do
(`ceRun_spec`, `bsRun_inv`), and how a change to one unit is carried to the machine. Settles O58 and O59.
-/

namespace Sys2Proof.Machine

/-! ## A cipher unit -/

theorem ceInv_runInv {p : Params} {u : CeUnit} (h : u.Inv p) : u.RunInv p := ⟨h.idle, h.checks, h.running⟩

/-- A change of an idle unit's operand registers keeps the invariant. -/
theorem ceInv_of_idle {p : Params} {u v : CeUnit} (h : u.Inv p) (hb : u.flags.busy = false) (hf : v.flags = u.flags)
    (he : v.err = u.err) (hr : v.result = u.result) (hw : v.buf = u.buf)
    (hi : v.cmd = 0 ∧ v.phase = .idle ∧ v.workspaceClear) : v.Inv p where
  bufWf := hw ▸ h.bufWf
  bufInside := hw ▸ h.bufInside
  exclusive := hf ▸ h.exclusive
  errDone := hf ▸ h.errDone
  errCode := by rw [hf, he]; exact h.errCode
  failedResult := by rw [hf, hr]; exact h.failedResult
  idle _ := hi
  checks hv := by rw [hf, hb] at hv; cases hv
  running hv := by rw [hf, hb] at hv; cases hv

/-- A run of steps keeps the invariant. -/
theorem ceRun_inv {p : Params} {u : CeUnit} (k n : Nat) (h : u.Inv p) : (ceRun p k n u).Inv p := by
  have hrun := ceRun_spec p k n u (ceInv_runInv h)
  generalize ceRun p k n u = r at hrun
  obtain ⟨hex, hed, hec, hfr⟩ : ¬(r.flags.busy = true ∧ r.flags.done = true) ∧
      (r.flags.err = true → r.flags.done = true) ∧
      (r.flags.done = true → (r.flags.err = true ↔ r.err ≠ .success)) ∧ (r.flags.err = true → r.result = 0) := by
    rcases hrun.report with ⟨hf, he, hr, -⟩ | ⟨hb, hd, -, he, hr⟩
    · rw [hf, he, hr]
      exact ⟨h.exclusive, h.errDone, h.errCode, h.failedResult⟩
    · exact ⟨by simp [hb], fun _ => hd, fun _ => he, hr⟩
  exact ⟨hrun.wf h.bufWf, hrun.inside h.bufInside, hex, hed, hec, hfr, hrun.inv.idle, hrun.inv.checks, hrun.inv.running⟩

/-- A unit that accepts one of the five codes while idle obeys the invariant. -/
theorem ceAccept_inv {p : Params} {u : CeUnit} {c : Byte} (h : u.Inv p) (hb : u.flags.busy = false)
    (hc : 1 ≤ c.toNat ∧ c.toNat ≤ 5) : (u.accept c).Inv p where
  bufWf := h.bufWf
  bufInside := h.bufInside
  exclusive := by simp
  errDone := by simp
  errCode := by simp
  failedResult := by simp
  idle hv := by cases hv
  checks _ _ := ⟨hc.1, hc.2, (h.idle hb).2.2⟩
  running _ hp := absurd rfl hp

/-- Setting `OVR` keeps the invariant. -/
theorem ceOverrun_inv {p : Params} {u : CeUnit} (h : u.Inv p) : CeUnit.Inv p { u with flags := u.flags.overrun } :=
  ⟨h.bufWf, h.bufInside, h.exclusive, h.errDone, h.errCode, h.failedResult, h.idle, h.checks, h.running⟩

/-- A refused command leaves a unit that obeys the invariant. -/
theorem ceRefuse_inv {p : Params} {u : CeUnit} {e : ErrCode} (hw : u.buf.wf) (hi : ∀ c ∈ u.buf, c.1 < p.bufSize.val)
    (he : e ≠ .success) : (u.refuse e).Inv p where
  bufWf := hw
  bufInside := hi
  exclusive := by simp [CeUnit.refuse]
  errDone := by simp [CeUnit.refuse]
  errCode := by simp [CeUnit.refuse, he]
  failedResult := by simp [CeUnit.refuse]
  idle _ := (finish_runInv p e 0 u).idle rfl
  checks hv := by cases hv
  running hv := by cases hv

/-- A reset unit obeys the invariant, whatever bytes its BUF keeps. -/
theorem ceReset_inv {p : Params} {m : Memory} (r : Rng) (hw : m.wf) (hi : ∀ c ∈ m, c.1 < p.bufSize.val) :
    (CeUnit.reset r m).Inv p where
  bufWf := hw
  bufInside := hi
  exclusive := by simp [CeUnit.reset, Flags.reset]
  errDone := by simp [CeUnit.reset, Flags.reset]
  errCode := by simp [CeUnit.reset, Flags.reset]
  failedResult := by simp [CeUnit.reset, Flags.reset]
  idle _ := ⟨rfl, rfl, rfl, rfl, rfl, rfl, rfl, rfl, rfl, rfl, rfl⟩
  checks hv := by cases hv
  running hv := by cases hv

/-- HOST's bytes inside BUF keep the invariant. -/
theorem ceFill_inv {p : Params} {u : CeUnit} {a : Nat} {bytes : List Byte} (h : u.Inv p)
    (ha : a + bytes.length ≤ p.bufSize.val) : CeUnit.Inv p { u with buf := u.buf.writeBytes a bytes } :=
  ⟨writeBytes_wf h.bufWf a bytes, writeBytes_inside h.bufInside ha, h.exclusive, h.errDone, h.errCode, h.failedResult,
    h.idle, h.checks, h.running⟩

/-- A register write to an idle unit keeps the invariant. -/
theorem ceWrite_inv {p : Params} {u : CeUnit} (o : Nat) (v : Word) (h : u.Inv p) (hb : u.flags.busy = false) :
    (ceWrite u o v).Inv p := by
  have hi := h.idle hb
  unfold ceWrite
  split
  iterate 4 exact ceInv_of_idle h hb rfl rfl rfl rfl hi
  split
  · exact ceInv_of_idle h hb rfl rfl rfl rfl hi
  · split
    · exact ceInv_of_idle h hb rfl rfl rfl rfl hi
    · exact h

/-! ## BS -/

/-- BS that accepts a command while idle, put where the command begins, obeys the invariant. -/
theorem bsStart_inv {p : Params} {b : BsUnit} {i : Instr} (hs : soloLapse i = .lapseBs) (h : b.Inv)
    (hb : b.flags.busy = false) : (bsStart p i (b.accept (codeOf i))).Inv := by
  obtain ⟨-, -, ht⟩ := h.idle hb
  have hopen : (sessionOpen p (b.accept 0x10)).Inv :=
    busy_inv ⟨h.ctrlBits, h.ctrlBits, Nat.zero_le _, nofun, nofun, nofun⟩ rfl rfl rfl nofun ⟨rfl, rfl, rfl⟩
  have hchecks : ∀ c : Byte, 0x11 ≤ c.toNat → c.toNat ≤ 0x15 → (startAtChecks (b.accept c)).Inv := fun c h1 h2 =>
    busy_inv ⟨h.ctrlBits, h.sCtrlBits, h.region, h.session, h.started, h.written⟩ rfl rfl rfl nofun ⟨h1, h2, ht⟩
  cases i <;> cases hs
  · exact hopen
  all_goals exact hchecks _ (by decide) (by decide)

/-- Setting `OVR` keeps the invariant. -/
theorem bsOverrun_inv {b : BsUnit} (h : b.Inv) : BsUnit.Inv { b with flags := b.flags.overrun } :=
  ⟨h.exclusive, h.errDone, h.errCode, h.idle, h.busy, h.ctrlBits, h.sCtrlBits, h.region, h.session, h.started, h.failed,
    h.written⟩

/-- A code that is no bootloader command, refused by idle BS, keeps the invariant. -/
theorem bsRefuseIllegal_inv {b : BsUnit} (c : Byte) (h : b.Inv) (hb : b.flags.busy = false) :
    ((b.accept c).finish .illegalCmd).Inv :=
  finish_inv .illegalCmd (b := b.accept c) ⟨h.ctrlBits, h.sCtrlBits, h.region, h.session, h.started, h.written⟩
    (h.idle hb).2.2 (fun _ => by decide)

theorem bsReset_inv (t : Word) : (BsUnit.reset t).Inv where
  exclusive := by simp [BsUnit.reset, Flags.reset]
  errDone := by simp [BsUnit.reset, Flags.reset]
  errCode := by simp [BsUnit.reset, Flags.reset]
  idle _ := ⟨rfl, rfl, rfl⟩
  busy h := by cases h
  ctrlBits := BitVec.zero_and
  sCtrlBits := BitVec.zero_and
  region := Nat.zero_le _
  session h := by cases h
  started h := by cases h
  failed h := by cases h
  written h := by rcases h with h | h <;> cases h

/-- HOST's writes keep the reserved bits of `BS_CTRL` zero (R36). -/
theorem ctrlWrite_reserved (v : Byte) : ctrlWrite v &&& 0xF0 = 0 := by
  rw [ctrlWrite, BitVec.and_assoc]
  exact BitVec.and_zero

/-- A register write to idle BS keeps the invariant. -/
theorem bsWrite_inv {b : BsUnit} (o : Nat) (v : Word) (h : b.Inv) (hb : b.flags.busy = false) : (bsWrite b o v).Inv := by
  have hbusy : ∀ {q : Prop}, b.flags.busy = true → q := fun h' => absurd (hb.symm.trans h') (by decide)
  unfold bsWrite
  split
  case h_2 =>
    exact ⟨h.exclusive, h.errDone, h.errCode, h.idle, hbusy, ctrlWrite_reserved _, h.sCtrlBits, h.region, h.session,
      h.started, h.failed, h.written⟩
  case h_10 =>
    split
    · exact ⟨h.exclusive, h.errDone, h.errCode, h.idle, hbusy, h.ctrlBits, h.sCtrlBits, h.region, h.session, h.started,
        h.failed, h.written⟩
    · exact h
  all_goals
    exact ⟨h.exclusive, h.errDone, h.errCode, h.idle, hbusy, h.ctrlBits, h.sCtrlBits, h.region, h.session, h.started,
      h.failed, h.written⟩

/-! ## The machine -/

/-- HOST's coming moves, HOST's data and the environment are not part of the invariant. -/
theorem inv_host {s : State} (h : s.Inv) (e : Env) (ms : List Move) (d : Option Word) :
    State.Inv { s with env := e, moves := ms, readData := d } :=
  ⟨h.units, h.unitCount, h.bs, h.fwbWf, h.fwbInside, h.imgWf, h.imgInside⟩

/-- A change of one cipher unit. -/
theorem onCe_inv {s : State} {k : Nat} {f : CeUnit → CeUnit} (h : s.Inv)
    (hf : ∀ u, u.Inv s.params → (f u).Inv s.params) : (s.onCe k f).Inv := by
  rw [onCe_eq]
  refine ⟨fun v hv => ?_, (List.length_modify _ _ _).trans h.unitCount, h.bs, h.fwbWf, h.fwbInside, h.imgWf, h.imgInside⟩
  obtain ⟨j, hj⟩ := List.mem_iff_getElem?.mp hv
  rw [List.getElem?_modify] at hj
  obtain ⟨u, hu, rfl⟩ := Option.map_eq_some_iff.mp hj
  have hu := h.units u (List.mem_of_getElem? hu)
  split
  · exact hf u hu
  · exact hu

/-- A change of BS and the environment. -/
theorem onBs_inv {s : State} {f : BsWorld → BsWorld} (h : s.Inv) (hf : (f (s.bs, s.env)).1.Inv) : (s.onBs f).Inv :=
  ⟨h.units, h.unitCount, hf, h.fwbWf, h.fwbInside, h.imgWf, h.imgInside⟩

theorem issueCe_inv {s : State} {k : Nat} {c : Byte} (h : s.Inv) (hc : 1 ≤ c.toNat ∧ c.toNat ≤ 5) :
    (issueCe k c s).Inv := by
  refine onCe_inv h fun u hu => ?_
  split
  · exact ceOverrun_inv hu
  · exact ceRun_inv k s.pace (ceAccept_inv hu (by simpa using ‹¬u.flags.busy = true›) hc)

theorem issueBs_inv {s : State} {i : Instr} (hi : soloLapse i = .lapseBs) (h : s.Inv) :
    (issueBs (codeOf i) (bsStart s.params i) s).Inv := by
  refine onBs_inv h ?_
  split
  · exact bsOverrun_inv h.bs
  · exact bsRun_inv _ _ _ _ _ (bsStart_inv hi h.bs (by simpa using ‹¬s.bs.flags.busy = true›))

/-- Every command keeps the invariant. -/
theorem exec_inv {s t : State} {i : Instr} (h : s.Inv) (ht : exec i s = .next t) : t.Inv := by
  rcases soloLapse_cases i with hi | ⟨k, hi⟩
  · rw [exec_bs hi] at ht
    cases ht
    exact issueBs_inv hi h
  · rw [exec_ce hi] at ht
    cases ht
    obtain ⟨h1, h5, -⟩ := codeOf_cipher hi
    exact issueCe_inv h ⟨h1, h5⟩

theorem refuseIllegal_inv {s : State} (a : RegAddr) (c : Byte) (h : s.Inv) : (refuseIllegal a c s).Inv := by
  unfold refuseIllegal
  split
  · refine onBs_inv h ?_
    split
    · exact bsOverrun_inv h.bs
    · exact bsRefuseIllegal_inv c h.bs (by simpa using ‹¬s.bs.flags.busy = true›)
  · refine onCe_inv h fun u hu => ?_
    split
    · exact ceOverrun_inv hu
    · exact ceRefuse_inv hu.bufWf hu.bufInside (by decide)

theorem hostWrite_inv {s : State} (a : RegAddr) (v : Word) (h : s.Inv) : (hostWrite a v s).Inv := by
  unfold hostWrite
  split
  · refine onBs_inv h ?_
    cases hb : s.bs.flags.busy with
    | true => simpa [hb] using h.bs
    | false => simpa [hb] using bsWrite_inv _ v h.bs hb
  · refine onCe_inv h fun u hu => ?_
    split
    · exact hu
    · exact ceWrite_inv _ v hu (by simpa using ‹¬u.flags.busy = true›)

theorem hostRead_inv {s : State} (a : RegAddr) (h : s.Inv) : (hostRead a s).Inv := by
  unfold hostRead
  split
  · split
    · exact inv_host h _ _ _
    · exact inv_host h _ _ _
  · split
    · exact inv_host h _ _ _
    · exact inv_host h _ _ _

theorem lapse_inv {s : State} (h : s.Inv) : (lapse s).Inv := by
  refine ⟨fun v hv => ?_, ?_, bsRun_inv _ _ _ _ _ h.bs, h.fwbWf, h.fwbInside, h.imgWf, h.imgInside⟩
  · obtain ⟨j, hj, rfl⟩ := List.mem_mapIdx.mp hv
    exact ceRun_inv j 1 (h.units _ (List.getElem_mem hj))
  · exact (List.length_mapIdx).trans h.unitCount

theorem resetInput_inv {s : State} (h : s.Inv) : (resetInput s).Inv := by
  refine ⟨fun v hv => ?_, (List.length_map _).trans h.unitCount, bsReset_inv _, h.fwbWf, h.fwbInside, h.imgWf, h.imgInside⟩
  obtain ⟨u, hu, rfl⟩ := List.mem_map.mp hv
  exact ceReset_inv u.rng (h.units u hu).bufWf (h.units u hu).bufInside

theorem waitCe_inv {s : State} (k : Nat) (h : s.Inv) : (waitCe k s).Inv := by
  unfold waitCe
  split
  · split
    · exact inv_host h _ _ _
    · exact lapse_inv (inv_host h _ _ _)
  · exact lapse_inv (inv_host h _ _ _)

theorem waitBs_inv {s : State} (h : s.Inv) : (waitBs s).Inv := by
  unfold waitBs
  split
  · exact inv_host h _ _ _
  · exact lapse_inv (inv_host h _ _ _)

/-- A guarded move that answers a next state has passed its guard. -/
theorem next_of_guard {c : Prop} [Decidable c] {r : Fault} {o : Host.Outcome State Fault Refusal} {t : State}
    (h : (if c then .fault r else o) = .next t) : ¬c ∧ o = .next t := by
  by_cases hc : c
  · rw [if_pos hc] at h; cases h
  · rw [if_neg hc] at h; exact ⟨hc, h⟩

theorem bufWrite_inv {s t : State} {k : Nat} {a : Word} {bytes : List Byte} (h : s.Inv)
    (ht : hostMove (.bufWrite k a bytes) s = .next t) : t.Inv := by
  simp only [hostMove] at ht
  split at ht
  · cases ht
  · obtain ⟨hin, ht⟩ := next_of_guard ht
    split at ht <;> cases ht
    exact onCe_inv h fun u hu => ceFill_inv hu (Nat.not_lt.mp hin)

theorem bufRead_inv {s t : State} {k : Nat} {a : Word} (h : s.Inv) (ht : hostMove (.bufRead k a) s = .next t) : t.Inv := by
  simp only [hostMove] at ht
  split at ht
  · cases ht
  · obtain ⟨-, ht⟩ := next_of_guard ht
    split at ht <;> cases ht
    exact inv_host h _ _ _

/-- Every move of HOST that is no command keeps the invariant. -/
theorem hostMove_inv {s t : State} {m : Move} (h : s.Inv) (ht : hostMove m s = .next t) : t.Inv := by
  cases m
  case write a v => cases ht; exact hostWrite_inv a v h
  case read a => cases ht; exact hostRead_inv a h
  case bufWrite k a bytes => exact bufWrite_inv h ht
  case bufRead k a => exact bufRead_inv h ht
  case fwbWrite a bytes =>
    obtain ⟨hin, ht⟩ := next_of_guard ht
    obtain ⟨-, ht⟩ := next_of_guard ht
    cases ht
    exact ⟨h.units, h.unitCount, h.bs, writeBytes_wf h.fwbWf _ _, writeBytes_inside h.fwbInside (Nat.not_lt.mp hin),
      h.imgWf, h.imgInside⟩
  case fwbRead a =>
    obtain ⟨-, ht⟩ := next_of_guard ht
    cases ht
    exact inv_host h _ _ _
  case imgWrite a bytes =>
    obtain ⟨hin, ht⟩ := next_of_guard ht
    obtain ⟨-, ht⟩ := next_of_guard ht
    cases ht
    exact ⟨h.units, h.unitCount, h.bs, h.fwbWf, h.fwbInside, writeBytes_wf h.imgWf _ _,
      writeBytes_inside h.imgInside (Nat.not_lt.mp hin)⟩
  case imgRead a => cases ht; exact inv_host h _ _ _
  case imgClear =>
    obtain ⟨-, ht⟩ := next_of_guard ht
    cases ht
    exact ⟨h.units, h.unitCount, h.bs, h.fwbWf, h.fwbInside, List.Pairwise.nil, nofun⟩
  case waitCe k => cases ht; exact waitCe_inv k h
  case waitBs => cases ht; exact waitBs_inv h
  case lapse => cases ht; exact lapse_inv h
  case lapseCe k => cases ht; exact onCe_inv h fun u hu => ceRun_inv k 1 hu
  case lapseBs => cases ht; exact onBs_inv h (bsRun_inv _ _ _ _ _ h.bs)
  case reset => cases ht; exact resetInput_inv h

/-- Settles O59: a step is a lapse of time, a command, a refused code or another move of HOST, and each keeps the
invariant. -/
theorem stepKeepsInv : Obligations.StepKeepsInv := by
  intro s t h ht
  have htake : (takeMove s).Inv := inv_host h _ _ _
  unfold step at ht
  split at ht
  · cases ht; exact lapse_inv h
  · exact exec_inv htake ht
  · cases ht; exact refuseIllegal_inv _ _ htake
  · exact hostMove_inv htake ht

/-- Settles O58: reset units, empty memories. -/
theorem invHoldsAtReset : Obligations.InvHoldsAtReset where
  units u hu := by
    rw [List.eq_of_mem_replicate hu]
    exact ceReset_inv _ List.Pairwise.nil nofun
  unitCount := List.length_replicate
  bs := bsReset_inv _
  fwbWf := List.Pairwise.nil
  fwbInside := nofun
  imgWf := List.Pairwise.nil
  imgInside := nofun

end Sys2Proof.Machine
end

section
/-!
SUPPORT. HOST's register and memory moves: the one register an address reaches, what a read after a write gives, what a busy
unit makes of a write, what a fill of a memory leaves. The state after reset and the reset input. Settles O50, O51, O52, O56,
O57 and O60.
-/

namespace Sys2Proof.Machine

/-! ## A step that takes a move -/

theorem takeMove_eq {s : State} {m : Move} {rest : List Move} (h : s.moves = m :: rest) :
    takeMove s = { s with moves := rest } := by
  rw [takeMove, h, List.tail_cons]

/-- A write to an offset other than 0 is no command. -/
theorem step_registerWrite {s : State} {a : RegAddr} {v : Word} {rest : List Move} (h : s.moves = .write a v :: rest)
    (ho : offsetOf a ≠ 0) : step s = .next (hostWrite a v { s with moves := rest }) := by
  have hd : decode a (v.setWidth 8) = .error .notCommandRegister := if_pos ho
  rw [← takeMove_eq h, step, h]
  simp only [fetch, hd, hostMove]

/-! ## The register an address reaches -/

theorem setCe_same {s : State} {k : Nat} {u : CeUnit} (h : s.ces[k]? = some u) : s.setCe k u = s := by
  obtain ⟨hk, rfl⟩ := List.getElem?_eq_some_iff.mp h
  rw [State.setCe, List.set_getElem_self]

section
variable {s : State} {k o : Nat} {u : CeUnit} (hk : k < 15) (ho : o < 0x1000) (hu : s.ces[k]? = some u)
include hk ho hu

theorem hostRead_ce : hostRead (regAddr k o) s = { s with readData := some (ceRead u o) } := by
  obtain ⟨h1, h2⟩ := regAddr_parts (show k < 16 by omega) ho
  rw [hostRead, h1, h2, if_neg (show k ≠ bsUnit from Nat.ne_of_lt hk), hu]

theorem hostWrite_ce (v : Word) :
    hostWrite (regAddr k o) v s = s.setCe k (if u.flags.busy then u else ceWrite u o v) := by
  obtain ⟨h1, h2⟩ := regAddr_parts (show k < 16 by omega) ho
  rw [hostWrite, h1, h2, if_neg (show k ≠ bsUnit from Nat.ne_of_lt hk), onCe_some _ _ _ _ hu]
  rfl

/-- A busy cipher unit ignores the write (R79). -/
theorem hostWrite_ce_busy (v : Word) (hb : u.flags.busy = true) : hostWrite (regAddr k o) v s = s := by
  rw [hostWrite_ce hk ho hu, if_pos hb, setCe_same hu]

theorem hostWrite_ce_idle (v : Word) (hb : u.flags.busy = false) :
    hostWrite (regAddr k o) v s = s.setCe k (ceWrite u o v) := by
  rw [hostWrite_ce hk ho hu, hb]
  rfl

/-- HOST reads back from an idle cipher unit what its write has made of the register. -/
theorem readBack_ce (v : Word) (hb : u.flags.busy = false) :
    (hostRead (regAddr k o) (hostWrite (regAddr k o) v s)).readData = some (ceRead (ceWrite u o v) o) := by
  have hlt : k < s.ces.length := (List.getElem?_eq_some_iff.mp hu).1
  have hset : (s.setCe k (ceWrite u o v)).ces[k]? = some (ceWrite u o v) := List.getElem?_set_self hlt
  rw [hostWrite_ce_idle hk ho hu v hb, hostRead_ce hk ho hset]

end

section
variable (s : State) {o : Nat} (ho : o < 0x1000)
include ho

theorem hostRead_bs (hne : o ≠ 0x0F0) : hostRead (regAddr 15 o) s = { s with readData := some (bsRead s.bs o) } := by
  obtain ⟨h1, h2⟩ := regAddr_parts (show 15 < 16 by decide) ho
  rw [hostRead, h1, h2, if_pos (show 15 = bsUnit from rfl), if_neg hne]

theorem hostWrite_bs (v : Word) :
    hostWrite (regAddr 15 o) v s = { s with bs := if s.bs.flags.busy then s.bs else bsWrite s.bs o v } := by
  obtain ⟨h1, h2⟩ := regAddr_parts (show 15 < 16 by decide) ho
  rw [hostWrite, h1, h2, if_pos (show 15 = bsUnit from rfl)]
  rfl

/-- Busy BS ignores the write (R79). -/
theorem hostWrite_bs_busy (v : Word) (hb : s.bs.flags.busy = true) : hostWrite (regAddr 15 o) v s = s := by
  rw [hostWrite_bs s ho, if_pos hb]

theorem hostWrite_bs_idle (v : Word) (hb : s.bs.flags.busy = false) :
    hostWrite (regAddr 15 o) v s = { s with bs := bsWrite s.bs o v } := by
  rw [hostWrite_bs s ho, hb]
  rfl

/-- HOST reads back from idle BS what its write has made of the register. -/
theorem readBack_bs (v : Word) (hne : o ≠ 0x0F0) (hb : s.bs.flags.busy = false) :
    (hostRead (regAddr 15 o) (hostWrite (regAddr 15 o) v s)).readData = some (bsRead (bsWrite s.bs o v) o) := by
  rw [hostWrite_bs_idle s ho v hb, hostRead_bs _ ho hne]

end

/-- The read of `BS_TIMER` is a read of the clock (R35). -/
theorem hostRead_timer (s : State) :
    hostRead (regAddr 15 0x0F0) s = { s with readData := some s.env.now.1, env := s.env.now.2 } := by
  obtain ⟨h1, h2⟩ := regAddr_parts (show 15 < 16 by decide) (show 0x0F0 < 0x1000 by decide)
  rw [hostRead, h1, h2, if_pos (show 15 = bsUnit from rfl), if_pos rfl]

/-- Settles O52: the write is no command, and a busy unit ignores it. -/
theorem busyUnitIgnoresWrites : Obligations.BusyUnitIgnoresWrites := by
  refine ⟨fun s k o u v rest hk hpos ho hm hu hb => ?_, fun s o v rest hpos ho hm hb => ?_⟩
  · have hoff : offsetOf (regAddr k o) ≠ 0 := by rw [(regAddr_parts (show k < 16 by omega) ho).2]; omega
    rw [step_registerWrite hm hoff, hostWrite_ce_busy (s := { s with moves := rest }) hk ho hu v hb]
  · have hoff : offsetOf (regAddr 15 o) ≠ 0 := by rw [(regAddr_parts (show 15 < 16 by decide) ho).2]; omega
    rw [step_registerWrite hm hoff, hostWrite_bs_busy { s with moves := rest } ho v hb]

/-! ## Where no register is written -/

/-- The offsets of a cipher unit that HOST's writes do not reach: the command, status and result registers, and those past
the last register. -/
theorem ceWrite_outside (u : CeUnit) {o : Nat} (v : Word) (h : o < 0x010 ∨ 0x050 ≤ o) : ceWrite u o v = u := by
  unfold ceWrite
  split
  iterate 4 omega
  rw [if_neg (by omega), if_neg (by omega)]

theorem ceRead_outside (u : CeUnit) {o : Nat} (h : 0x050 ≤ o) : ceRead u o = 0 := by
  unfold ceRead
  split
  iterate 7 omega
  rw [if_neg (by omega), if_neg (by omega)]

/-- The same of BS. -/
theorem bsWrite_outside (b : BsUnit) {o : Nat} (v : Word) (h : o < 0x040 ∨ 0x080 ≤ o) : bsWrite b o v = b := by
  unfold bsWrite
  split
  iterate 9 omega
  rw [if_neg (by omega)]

theorem bsRead_outside (b : BsUnit) {o : Nat} (h : 0x080 ≤ o) : bsRead b o = 0 := by
  unfold bsRead
  split
  iterate 22 omega
  rw [if_neg (by omega)]

/-! ## Registers of one byte each -/

/-- The byte of a register array that a write has set. -/
theorem getD_setIfInBounds {n i : Nat} (xs : Vector Byte n) (x : Byte) (h : i < n) :
    (xs.setIfInBounds i x).getD i 0 = x := by
  simp [Vector.getD, h]

/-- `CE_KEY` and `CE_IV` take a byte at each offset (R34). -/
theorem readBack_keyIv (u : CeUnit) {o : Nat} (v : Word) (h1 : 0x020 ≤ o) (h2 : o < 0x050) :
    ceRead (ceWrite u o v) o = (v.setWidth 8).setWidth 32 := by
  have hread : ∀ w : CeUnit, ceRead w o =
      if o < 0x040 then (w.key.getD (o - 0x020) 0).setWidth 32 else (w.iv.getD (o - 0x040) 0).setWidth 32 := by
    intro w
    unfold ceRead
    split
    iterate 7 omega
    by_cases h : o < 0x040
    · rw [if_pos ⟨h1, h⟩, if_pos h]
    · rw [if_neg (by omega), if_pos ⟨by omega, h2⟩, if_neg h]
  have hwrite : ceWrite u o v =
      if o < 0x040 then { u with key := u.key.setIfInBounds (o - 0x020) (v.setWidth 8) }
      else { u with iv := u.iv.setIfInBounds (o - 0x040) (v.setWidth 8) } := by
    unfold ceWrite
    split
    iterate 4 omega
    by_cases h : o < 0x040
    · rw [if_pos ⟨h1, h⟩, if_pos h]
    · rw [if_neg (by omega), if_pos ⟨by omega, h2⟩, if_neg h]
  rw [hread, hwrite]
  by_cases h : o < 0x040
  · rw [if_pos h, if_pos h, getD_setIfInBounds _ _ (by omega)]
  · rw [if_neg h, if_neg h, getD_setIfInBounds _ _ (by omega)]

/-- `BS_GUID` takes a byte at each offset (R35). -/
theorem readBack_guid (b : BsUnit) {o : Nat} (v : Word) (h1 : 0x070 ≤ o) (h2 : o < 0x080) :
    bsRead (bsWrite b o v) o = (v.setWidth 8).setWidth 32 := by
  have hread : ∀ c : BsUnit, bsRead c o = (c.guid.getD (o - 0x070) 0).setWidth 32 := by
    intro c
    unfold bsRead
    split
    iterate 22 omega
    rw [if_pos ⟨h1, h2⟩]
  have hwrite : bsWrite b o v = { b with guid := b.guid.setIfInBounds (o - 0x070) (v.setWidth 8) } := by
    unfold bsWrite
    split
    iterate 9 omega
    rw [if_pos ⟨h1, h2⟩]
  rw [hread, hwrite, getD_setIfInBounds _ _ (by omega)]

/-- A written `BS_CTRL` reads as the value's low four bits (R36). -/
theorem ctrlWrite_setWidth (v : Word) : (ctrlWrite (v.setWidth 8)).setWidth 32 = v &&& 0x0F := by
  apply BitVec.eq_of_toNat_eq
  simp only [ctrlWrite, BitVec.toNat_setWidth, BitVec.toNat_and]
  have hmask : ∀ x : Nat, x &&& 15 = x % 16 := fun x => Nat.and_two_pow_sub_one_eq_mod x 4
  simp only [show (0x0F : Byte).toNat = 15 from rfl, show (0x0F : Word).toNat = 15 from rfl, hmask]
  omega

/-- Settles O51: an address reaches one register, and each register's write and read speak of the same field. -/
theorem operandRegistersReadBack : Obligations.OperandRegistersReadBack := by
  refine ⟨fun s k o u v hk hu hb => ⟨?_, ?_, fun h1 h2 => ?_, fun h1 h2 => ⟨?_, ?_⟩⟩,
    fun s o v hb => ⟨?_, ?_, ?_, ?_, fun h1 h2 => ⟨?_, ?_⟩⟩, fun s k i hi hnone => ?_⟩
  · rintro rfl
    exact readBack_ce hk (by decide) hu v hb
  · rintro (rfl | rfl | rfl) <;> exact readBack_ce hk (by decide) hu v hb
  · rw [readBack_ce hk (by omega) hu v hb, readBack_keyIv u v h1 h2]
  · rw [readBack_ce hk h2 hu v hb, ceRead_outside _ h1]
  · rw [hostWrite_ce_idle hk h2 hu v hb, ceWrite_outside u v (.inr h1), setCe_same hu]
  · rintro rfl
    rw [readBack_bs s (by decide) v (by decide) hb, ← ctrlWrite_setWidth v]
    rfl
  · rintro (rfl | rfl | ⟨h1, h2⟩)
    · exact readBack_bs s (by decide) v (by decide) hb
    · exact readBack_bs s (by decide) v (by decide) hb
    · rw [readBack_bs s (by omega) v (by omega) hb, readBack_guid s.bs v h1 h2]
  · rintro (rfl | rfl) <;> exact readBack_bs s (by decide) v (by decide) hb
  · rintro (rfl | rfl | rfl | rfl) <;> exact readBack_bs s (by decide) v (by decide) hb
  · rw [readBack_bs s h2 v (by omega) hb, bsRead_outside _ (by omega)]
  · rw [hostWrite_bs_idle s h2 v hb, bsWrite_outside s.bs v (.inr (by omega))]
  · rw [exec_ce (soloLapse_cipher hi), issueCe, onCe_none _ _ _ hnone]

/-! ## The status byte and the read-only registers -/

/-- A byte made from one bit has that bit in its place and no other. -/
theorem bitByte_getLsbD (b : Bool) {k i : Nat} (hi : i < 8) : (bitByte b k).getLsbD i = (b && decide (k = i)) := by
  cases b
  · rw [bitByte, if_neg (by decide), Bool.false_and]
    exact BitVec.getLsbD_zero
  · simp only [bitByte, if_true, BitVec.getLsbD_ofNat, Nat.testBit_two_pow, hi, decide_true, Bool.true_and]

/-- Settles O50: the status byte by its bits, the codes by computation, each read-only register by the address that reaches
it. -/
theorem statusRegisterBits : Obligations.StatusRegisterBits := by
  refine ⟨fun f w => ?_, rfl, rfl, fun s k u hk hu => ⟨fun o r hor => ?_, fun hb o v ho => ?_⟩,
    fun s => ⟨fun o r hor => ?_, hostRead_timer s, fun hb o v ho => ?_⟩⟩
  · simp only [Flags.toByte, BitVec.getLsbD_or, bitByte_getLsbD, Nat.reduceLT]
    simp
  · simp only [List.mem_cons, List.not_mem_nil, or_false, Prod.mk.injEq] at hor
    rcases hor with ⟨rfl, rfl⟩ | ⟨rfl, rfl⟩ | ⟨rfl, rfl⟩ | ⟨rfl, rfl⟩ <;> exact hostRead_ce hk (by decide) hu
  · have hlt : o < 0x010 := by
      simp only [List.mem_cons, List.not_mem_nil, or_false] at ho
      omega
    rw [hostWrite_ce_idle hk (by omega) hu v hb, ceWrite_outside u v (.inl hlt), setCe_same hu]
  · simp only [List.mem_cons, List.not_mem_nil, or_false, Prod.mk.injEq] at hor
    rcases hor with ⟨rfl, rfl⟩ | ⟨rfl, rfl⟩ | ⟨rfl, rfl⟩ | ⟨rfl, rfl⟩ | ⟨rfl, rfl⟩ | ⟨rfl, rfl⟩ | ⟨rfl, rfl⟩ |
      ⟨rfl, rfl⟩ | ⟨rfl, rfl⟩ | ⟨rfl, rfl⟩ | ⟨rfl, rfl⟩ | ⟨rfl, rfl⟩ | ⟨rfl, rfl⟩ | ⟨rfl, rfl⟩ <;>
      exact hostRead_bs s (by decide) (by decide)
  · rw [hostWrite_bs_idle s (by omega) v hb, bsWrite_outside s.bs v (by omega)]

/-! ## Fills and reads of a memory -/

/-- A fill of a memory in canonical form: the form is kept, the bytes are read back, the others are as before. -/
theorem fill_reads {m : Memory} (h : m.wf) (a : Nat) (bytes : List Byte) : (m.writeBytes a bytes).wf ∧
    (∀ j, j < bytes.length → (m.writeBytes a bytes).read? (a + j) = bytes[j]?) ∧
    ∀ x, ¬(a ≤ x ∧ x < a + bytes.length) → (m.writeBytes a bytes).read? x = m.read? x := by
  refine ⟨writeBytes_wf h a bytes, fun j hj => ?_, fun x hx => read?_writeBytes_ne m a x bytes hx⟩
  rw [read?_writeBytes m h, if_pos ⟨by omega, by omega⟩, Nat.add_sub_cancel_left]

/-- A fill of BUF that R60 and R79 permit. -/
theorem step_bufWrite {s : State} {rest : List Move} {k : Nat} {a : Word} {bytes : List Byte} {u : CeUnit}
    (h : s.moves = .bufWrite k a bytes :: rest) (hu : s.ces[k]? = some u) (hin : ¬s.outside (.bufWrite k a bytes))
    (hfree : ¬s.touchesBusy (.bufWrite k a bytes)) :
    step s = .next (State.setCe { s with moves := rest } k { u with buf := u.buf.writeBytes a.toNat bytes }) := by
  have hin : ¬s.params.bufSize.val < a.toNat + bytes.length := fun h' => hin (.inr h')
  have hfree : ceFree u a.toNat bytes.length true = true := by
    rw [ceFree_iff]
    rintro ⟨hb, j, hj, hc⟩
    exact hfree ⟨u, hu, hb, j, hj, hc.imp_left And.right⟩
  rw [step_move h nofun, takeMove_eq h]
  simp only [hostMove, hu, if_neg hin, if_pos hfree, onCe_some { s with moves := rest } k _ u hu, State.setCe]

/-- A read of BUF that R60 and R79 permit. -/
theorem step_bufRead {s : State} {rest : List Move} {k : Nat} {a : Word} {u : CeUnit} (h : s.moves = .bufRead k a :: rest)
    (hu : s.ces[k]? = some u) (hin : ¬s.outside (.bufRead k a)) (hfree : ¬s.touchesBusy (.bufRead k a)) :
    step s = .next { s with moves := rest, readData := some ((byteAt (.buf k) u.buf a.toNat).setWidth 32) } := by
  have hin : ¬s.params.bufSize.val ≤ a.toNat := fun h' => hin (.inr h')
  have hfree : ceFree u a.toNat 1 false = true := by
    rw [ceFree_iff]
    rintro ⟨hb, j, hj, ⟨hc, -⟩ | hc⟩
    · cases hc
    · obtain rfl : j = 0 := by omega
      exact hfree ⟨u, hu, hb, hc⟩
  rw [step_move h nofun, takeMove_eq h]
  simp only [hostMove, hu, if_neg hin, if_pos hfree]

theorem step_fwbWrite {s : State} {rest : List Move} {a : Word} {bytes : List Byte}
    (h : s.moves = .fwbWrite a bytes :: rest) (hin : ¬s.outside (.fwbWrite a bytes))
    (hfree : ¬s.touchesBusy (.fwbWrite a bytes)) :
    step s = .next { s with moves := rest, fwb := s.fwb.writeBytes a.toNat bytes } := by
  rw [step_move h nofun, takeMove_eq h]
  exact (if_neg hin).trans (if_neg hfree)

theorem step_imgWrite {s : State} {rest : List Move} {a : Word} {bytes : List Byte}
    (h : s.moves = .imgWrite a bytes :: rest) (hin : ¬s.outside (.imgWrite a bytes))
    (hfree : ¬s.touchesBusy (.imgWrite a bytes)) :
    step s = .next { s with moves := rest, img := s.img.writeBytes a.toNat bytes } := by
  rw [step_move h nofun, takeMove_eq h]
  exact (if_neg hin).trans (if_neg hfree)

theorem step_imgClear {s : State} {rest : List Move} (h : s.moves = .imgClear :: rest) (hfree : ¬s.touchesBusy .imgClear) :
    step s = .next { s with moves := rest, img := [] } := by
  rw [step_move h nofun, takeMove_eq h]
  exact if_neg hfree

theorem step_fwbRead {s : State} {rest : List Move} {a : Word} (h : s.moves = .fwbRead a :: rest)
    (hin : ¬s.outside (.fwbRead a)) :
    step s = .next { s with moves := rest, readData := some ((byteAt .fwb s.fwb a.toNat).setWidth 32) } := by
  rw [step_move h nofun, takeMove_eq h]
  exact if_neg hin

theorem step_imgRead {s : State} {rest : List Move} {a : Word} (h : s.moves = .imgRead a :: rest) :
    step s = .next { s with moves := rest, readData := (s.img.read? a.toNat).map fun v => v.setWidth 32 } := by
  rw [step_move h nofun, takeMove_eq h]
  rfl

/-- Settles O60: each permitted move is one change of the machine, and a fill is one of the memory. -/
theorem hostMemoryMoves : Obligations.HostMemoryMoves := fun _ _ =>
  ⟨fun _ a bytes _ h hu hw hin hfree => ⟨_, step_bufWrite h hu hin hfree, fill_reads hw a.toNat bytes⟩,
    fun a bytes h hw hin hfree => ⟨_, step_fwbWrite h hin hfree, fill_reads hw a.toNat bytes⟩,
    fun a bytes h hw hin hfree => ⟨_, step_imgWrite h hin hfree, fill_reads hw a.toNat bytes⟩,
    fun h hfree => ⟨_, step_imgClear h hfree, List.Pairwise.nil, fun _ => rfl⟩,
    fun _ _ _ h hu hin hfree => step_bufRead h hu hin hfree,
    fun _ h hin => step_fwbRead h hin,
    fun _ h => step_imgRead h⟩

/-! ## Reset -/

/-- Settles O57: the move is `resetInput` itself. -/
theorem resetInput_step : Obligations.ResetInput := by
  intro s rest h
  rw [step_move h nofun, takeMove_eq h]
  rfl

theorem getD_replicate_zero (n j : Nat) : (Vector.replicate n (0 : Byte)).getD j 0 = 0 := by
  by_cases h : j < n <;> simp [Vector.getD, h]

/-- Settles O56: every register of a reset unit is written out in `CeUnit.reset` and `BsUnit.reset`. -/
theorem resetValues : Obligations.ResetValues := by
  refine ⟨List.length_replicate, fun u hu => ?_, ?_⟩
  · rw [List.eq_of_mem_replicate hu]
    exact ⟨fun j _ => getD_replicate_zero 32 j, fun j _ => getD_replicate_zero 16 j, rfl, rfl, rfl, rfl, rfl, rfl, rfl,
      ⟨rfl, rfl, rfl, rfl, rfl, rfl, rfl, rfl, rfl, rfl, rfl, rfl⟩⟩
  · exact ⟨rfl, rfl, rfl, rfl, rfl, rfl, rfl, rfl, rfl, rfl, rfl, rfl, rfl, rfl, fun j _ => getD_replicate_zero 16 j, rfl,
      rfl, rfl, rfl, rfl, rfl, rfl, rfl, rfl, rfl, rfl, fun j _ => getD_replicate_zero 16 j, rfl, rfl, rfl, rfl, rfl⟩

end Sys2Proof.Machine
end

section
/-!
SUPPORT. Single commands on an idle unit: `GEN_IV`, the session that `DEV_INIT` opens, what the other bootloader commands leave
alone, and `DEV_LOAD` from its accept step to its end when no region holds data. Settles O21, O29, O46 and O44.
-/

namespace Sys2Proof.Machine

/-! ## GEN_IV -/

/-- As long as the source has answers, `rng_draw` gives them in order (R51). -/
theorem draw_scripted (k : Nat) (bytes rest : List Byte) (r : Rng) (h : r.bytes = bytes ++ rest) :
    Rng.draw k bytes.length r = (bytes, { r with bytes := rest }) := by
  induction bytes generalizing r with
  | nil =>
    obtain ⟨av, bs, d⟩ := r
    obtain rfl : bs = rest := h
    rfl
  | cons b bytes ih =>
    obtain ⟨av, bs, d⟩ := r
    obtain rfl : bs = b :: (bytes ++ rest) := h
    rw [List.length_cons, Rng.draw, byte_scripted, ih _ rfl]

/-- `GEN_IV` on an idle unit that takes at least one step. -/
theorem exec_genIv {s : State} {k : Nat} {u : CeUnit} (hu : s.ces[k]? = some u) (hi : u.idleClear) :
    exec (.genIv k) s = .next (s.setCe k (ceRun s.params k s.pace (u.accept 0x05))) := by
  rw [exec_ce rfl, issueCe_setCe _ hu, hi.1]
  rfl

/-- Settles O21: `ceRun_genIv` in its three cases, and the source's answers in order. -/
theorem genIvResult : Obligations.GenIvResult := by
  intro s k u hu hi hn
  have hr : ∀ n : Nat, inRange u.dst u.len n = true ↔ u.dst.toNat + u.len.toNat ≤ n := fun n => decide_eq_true_iff
  refine ⟨fun hin hav => ⟨?_, draw_length _ _ _⟩, fun hin hav => ?_, fun hout => ?_, fun r bytes rest h =>
    draw_scripted k bytes rest r h⟩
  · rw [exec_genIv hu hi, ceRun_genIv _ _ _ hi _ hn, if_pos ((hr _).mpr hin), if_pos hav]
  · rw [exec_genIv hu hi, ceRun_genIv _ _ _ hi _ hn, if_pos ((hr _).mpr hin), if_neg (by rw [hav]; decide)]
  · rw [exec_genIv hu hi, ceRun_genIv _ _ _ hi _ hn, if_neg (fun h => Nat.not_le.mpr hout ((hr _).mp h))]

/-! ## The frame of a bootloader command on idle BS -/

theorem exec_bs_idle {s : State} {i : Instr} (hs : soloLapse i = .lapseBs) (hb : s.bs.flags.busy = false) :
    exec i s = .next (s.onBs fun x =>
      bsRun s.params s.fwb s.img s.pace (bsStart s.params i (x.1.accept (codeOf i)), x.2)) := by
  rw [exec_bs hs, issueBs_idle _ _ hb]

/-- From its accept step on, a command changes what its frame allows. -/
theorem exec_bs_frame {s t : State} {i : Instr} (hs : soloLapse i = .lapseBs) (hb : s.bs.flags.busy = false)
    (ht : exec i s = .next t) :
    BsFrame (codeOf i) (bsStart s.params i (s.bs.accept (codeOf i)), s.env) (t.bs, t.env) := by
  rw [exec_bs_idle hs hb] at ht
  cases ht
  exact (bsRun_frame s.params s.fwb s.img s.pace _ (bsStart_onCommand hs s.params s.bs s.env)).1

/-- Settles O29: the accept step opens the session, and the frame of `DEV_INIT` holds the registers it has set. -/
theorem devInitOpensSession : Obligations.DevInitOpensSession := by
  intro s t hb ht
  have hf : BsFrame 0x10 (sessionOpen s.params (s.bs.accept 0x10), s.env) (t.bs, t.env) := exec_bs_frame rfl hb ht
  obtain ⟨hguid, hnick, hpage, hcode, htime, hchunk⟩ := hf.latched
  obtain ⟨hregion, hidx⟩ := hf.progress (by decide)
  have hctrl := hf.sCtrl.resolve_right fun h => absurd h.1 (by decide)
  refine ⟨hguid, hnick, hpage, hcode, htime, hctrl, hchunk, hf.checksum (.inl rfl), hregion, hidx,
    hf.curBlock (by decide) (by decide), hf.chunkIdx (.inl rfl), fun h0 => ?_⟩
  rw [exec_bs_idle rfl hb, h0] at ht
  cases ht
  exact ⟨rfl, rfl, rfl, rfl, rfl, rfl, rfl⟩

/-- A command other than `DEV_INIT` begins with its checks, in the session it finds. -/
theorem stepCommand_frame {s t : State} {i : Instr} (hs : soloLapse i = .lapseBs) (hne : i ≠ .devInit)
    (hb : s.bs.flags.busy = false) (ht : exec i s = .next t) :
    BsFrame (codeOf i) (startAtChecks (s.bs.accept (codeOf i)), s.env) (t.bs, t.env) := by
  have h := exec_bs_frame hs hb ht
  cases i <;> first | exact h | exact absurd rfl hne

/-- What `DEV_INIT` alone writes stays. -/
theorem sameSession_of_frame {c : Byte} {b : BsUnit} {e : Env} {y : BsWorld} (hc : c ≠ 0x10)
    (h : BsFrame c (startAtChecks (b.accept c), e) y) : b.sameSession y.1 := by
  obtain ⟨hguid, hnick, hpage, hcode, htime, hchunk⟩ := h.latched
  obtain ⟨hsize, hnum, halg, hdev, hwarn⟩ := h.session hc
  exact ⟨hguid, hnick, hpage, hcode, htime, hsize, hnum, hchunk, halg, hdev, hwarn⟩

/-- Settles O46: each clause is a field of the command's frame. -/
theorem sessionFrame : Obligations.SessionFrame := by
  intro s t i hb ht
  refine ⟨fun hi => ?_, ?_, fun hi => ?_, ?_, ?_⟩
  · obtain ⟨hs, hne, h10, h15⟩ :
        soloLapse i = .lapseBs ∧ i ≠ .devInit ∧ codeOf i ≠ 0x10 ∧ codeOf i ≠ 0x15 := by
      simp only [List.mem_cons, List.not_mem_nil, or_false] at hi
      rcases hi with rfl | rfl | rfl | rfl <;> decide
    have hf := stepCommand_frame hs hne hb ht
    obtain ⟨hregion, hidx⟩ := hf.progress h15
    exact ⟨sameSession_of_frame h10 hf, hf.sCtrl.resolve_right fun h => h15 h.1, hregion, hidx⟩
  · rintro (rfl | rfl)
    · exact (stepCommand_frame (i := .blkStart) rfl nofun hb ht).checksum (.inr (.inl rfl))
    · exact (stepCommand_frame (i := .blkProgram) rfl nofun hb ht).checksum (.inr (.inr rfl))
  · obtain ⟨hs, hne, h11, h15⟩ :
        soloLapse i = .lapseBs ∧ i ≠ .devInit ∧ codeOf i ≠ 0x11 ∧ codeOf i ≠ 0x15 := by
      simp only [List.mem_cons, List.not_mem_nil, or_false] at hi
      rcases hi with rfl | rfl | rfl <;> decide
    exact (stepCommand_frame hs hne hb ht).curBlock h11 h15
  · rintro rfl
    exact (stepCommand_frame (i := .blkProgram) rfl nofun hb ht).chunkIdx (.inr rfl)
  · rintro rfl
    have hf := stepCommand_frame (i := .devLoad) rfl nofun hb ht
    exact ⟨sameSession_of_frame (by decide) hf, hf.sCtrl.imp_right And.right⟩

/-! ## DEV_LOAD's relatch -/

/-- `DEV_LOAD` takes bits 2 and 3 of `BS_CTRL` and keeps the other bits of `S_CTRL` (R43). -/
theorem relatch_getLsbD (a c : Byte) {i : Nat} (hi : i < 8) :
    (relatchCtrl a c).getLsbD i = if i = 2 ∨ i = 3 then c.getLsbD i else a.getLsbD i := by
  simp only [relatchCtrl, BitVec.getLsbD_or, BitVec.getLsbD_and]
  interval_cases i <;> simp

theorem statusEn_relatch (a c : Byte) : statusEn (relatchCtrl a c) = statusEn c := relatch_getLsbD a c (by decide)

/-- The status port is as `BS_CTRL` says once `DEV_LOAD` has begun (R43, R186). -/
theorem withMessages_relatch (e : Env) (a c : Byte) (l : List (Byte × MsgId)) :
    e.withMessages (relatchCtrl a c) l = e.withMessages c l := by
  simp only [Env.withMessages, messagesAfter, statusEn_relatch]

/-! ## DEV_LOAD's first and last steps, and a region without data -/

/-- BS inside `DEV_LOAD` when its guard has passed. -/
def loadStart (b : BsUnit) : BsUnit :=
  { b.accept 0x15 with sCtrl := relatchCtrl b.sCtrl b.ctrl, point := .loadRegion 0 }

theorem exec_devLoad {s : State} {n : Nat} (hb : s.bs.flags.busy = false) (hs : s.bs.state = .bootModeConfirmed)
    (hn : s.pace = n + 1) :
    exec .devLoad s = .next (s.onBs fun x => bsRun s.params s.fwb s.img n (loadStart x.1, x.2)) := by
  have hstep : bsStep s.params s.fwb s.img (startAtChecks (s.bs.accept 0x15), s.env) = (loadStart s.bs, s.env) := by
    show devLoadChecks (startAtChecks (s.bs.accept 0x15), s.env) = _
    rw [devLoadChecks, if_pos (show (startAtChecks (s.bs.accept 0x15)).state = .bootModeConfirmed from hs)]
    rfl
  rw [exec_bs_idle rfl hb, hn]
  simp only [State.onBs]
  rw [show (bsStart s.params .devLoad (s.bs.accept (codeOf .devLoad)), s.env) =
    (startAtChecks (s.bs.accept 0x15), s.env) from rfl, bsRun_succ _ _ _ _ _ rfl, hstep]

/-- The head of the loop at region `r`, whose blocks are those of `BS_REGION = r`. -/
theorem currentBlocks_region (p : Params) (img : Memory) (b : BsUnit) (r : Nat) (hr : b.region.toNat = r) :
    currentBlocks p img b = regionBlocks p img b r := by
  rw [currentBlocks, regionBlocks, hr]

theorem region_toNat {r : Nat} (hr : r < 4) : (BitVec.ofNat 8 r).toNat = r := by
  rw [BitVec.toNat_ofNat]
  omega

theorem bsStep_loadRegion {p : Params} {fwb img : Memory} {r : Nat} {x : BsWorld} (hp : x.1.point = .loadRegion r) :
    bsStep p fwb img x = loadRegion p img r x := by
  rw [bsStep, hp]

/-- A region without data is passed over (R227). -/
theorem loadRegion_empty {p : Params} {img : Memory} {r : Nat} (b : BsUnit) (e : Env) (hr : r < 4)
    (hn : regionBlocks p img b r = none) :
    loadRegion p img r (b, e) =
      ({ b with region := BitVec.ofNat 8 r, blockIdx := 0, point := .loadRegion (r + 1) }, e) := by
  have hcur : currentBlocks p img { b with region := BitVec.ofNat 8 r, blockIdx := 0 } = none :=
    (currentBlocks_region p img _ r (region_toNat hr)).trans hn
  simp only [loadRegion, if_pos hr, hcur]
  rfl

/-- The first `j + 1` regions, when none of them holds data. -/
theorem bsRun_emptyRegions {p : Params} {fwb img : Memory} (j n : Nat) (b : BsUnit) (e : Env) (hj : j < 4)
    (hb : b.flags.busy = true) (hp : b.point = .loadRegion 0) (hn : ∀ r, r < 4 → regionBlocks p img b r = none) :
    bsRun p fwb img (n + (j + 1)) (b, e) = bsRun p fwb img n
      ({ b with region := BitVec.ofNat 8 j, blockIdx := 0, point := .loadRegion (j + 1) }, e) := by
  induction j generalizing n with
  | zero => rw [bsRun_succ _ _ _ _ _ hb, bsStep_loadRegion hp, loadRegion_empty b e hj (hn 0 hj)]
  | succ j ih =>
    rw [show n + (j + 1 + 1) = (n + 1) + (j + 1) by omega, ih (n + 1) (by omega), bsRun_succ _ _ _ _ _ hb,
      bsStep_loadRegion rfl]
    exact congrArg (bsRun p fwb img n) (loadRegion_empty _ e hj (hn _ hj))

/-- The end of the load (R231). -/
theorem bsRun_loadEnd {p : Params} {fwb img : Memory} (n : Nat) (b : BsUnit) (e : Env) (hb : b.flags.busy = true)
    (hp : b.point = .loadRegion 4) :
    bsRun p fwb img (n + 1) (b, e) =
      (BsUnit.finish .success { b with region := 4, state := .rebooted }, e.withMessages b.sCtrl [(100, .loadDone)]) := by
  rw [bsRun_succ _ _ _ _ _ hb, bsStep_loadRegion hp]
  simp only [loadRegion, if_neg (show ¬4 < 4 by decide), status_eq]
  exact bsRun_idle _ _ _ _ _ rfl

/-- Settles O44: four regions without data and the end; the relatch bit by bit. -/
theorem emptyImageLoad : Obligations.EmptyImageLoad := by
  refine ⟨fun s hb hs hp hspan => ?_, fun a c => ⟨?_, ?_, ?_, ?_, ?_⟩⟩
  · obtain ⟨n, hn⟩ : ∃ n, s.pace = n + 1 + (3 + 1) + 1 := ⟨s.pace - 6, by omega⟩
    have hrun : bsRun s.params s.fwb s.img (n + 1 + (3 + 1)) (loadStart s.bs, s.env) =
        ({ s.bs with sCtrl := relatchCtrl s.bs.sCtrl s.bs.ctrl, region := 4, blockIdx := 0, state := .rebooted }.succeeded,
          s.env.withMessages s.bs.ctrl [(100, .loadDone)]) := by
      rw [bsRun_emptyRegions 3 (n + 1) (loadStart s.bs) s.env (by decide) rfl rfl
          (fun r hr => by rw [regionBlocks, hspan r hr, Option.map_none]),
        bsRun_loadEnd n _ s.env rfl rfl, ← withMessages_relatch s.env s.bs.sCtrl s.bs.ctrl]
      rfl
    rw [exec_devLoad hb hs hn, State.onBs, hrun]
  · exact relatch_getLsbD a c (by decide)
  · exact relatch_getLsbD a c (by decide)
  · exact relatch_getLsbD a c (by decide)
  · exact relatch_getLsbD a c (by decide)
  · apply BitVec.eq_of_getLsbD_eq
    intro i hi
    rw [BitVec.getLsbD_and, BitVec.getLsbD_and, relatch_getLsbD a c hi]
    split
    · rename_i h
      rcases h with rfl | rfl <;> simp
    · rfl

end Sys2Proof.Machine
end

section
/-!
SUPPORT. A whole `DEV_LOAD` with a node that acknowledges every request: `LoadProgress` says how far a load has come, and each
part of the load takes it further: one block (`loadBlock_progress`), the blocks of a region, a region, the four regions
(R225 to R231). Settles O43.
-/

namespace Sys2Proof.Machine

/-! ## The blocks of a region -/

/-- A written span is not empty and ends inside the image's address range (R227, R63). -/
theorem span_bounds {img : Memory} {g : Region} {lo hi : Nat} (h : span img g = some (lo, hi)) : lo < hi ∧ hi ≤ 2 ^ 32 := by
  have hin : ∀ a ∈ populated img g, a < 2 ^ 32 := by
    intro a ha
    simp only [populated, regionHolds, List.mem_map, List.mem_filter, Bool.and_eq_true, decide_eq_true_eq] at ha
    obtain ⟨c, ⟨-, -, hle⟩, rfl⟩ := ha
    exact Nat.lt_of_le_of_lt hle g.last.isLt
  unfold span at h
  split at h
  · cases h
  · rename_i a as heq
    rw [heq] at hin
    cases h
    have hmin : as.foldl min a ≤ a := List.foldlRecOn as min (motive := (· ≤ a)) (Nat.le_refl a)
      fun b hb x _ => (Nat.min_le_left b x).trans hb
    have hmax : a ≤ as.foldl max a := List.foldlRecOn as max (motive := (a ≤ ·)) (Nat.le_refl a)
      fun b hb x _ => hb.trans (Nat.le_max_left b x)
    have hlt : as.foldl max a < 2 ^ 32 := List.foldlRecOn as max (motive := (· < 2 ^ 32)) (hin a List.mem_cons_self)
      fun b hb x hx => Nat.max_lt.mpr ⟨hb, hin x (List.mem_cons_of_mem a hx)⟩
    omega

/-- A region that holds data has at least one block, and `BS_BLOCKIDX` can count them. -/
theorem regionBlocks_bounds {p : Params} {img : Memory} {b : BsUnit} {r start nblk : Nat} (hpos : 0 < b.blockSize.toNat)
    (h : regionBlocks p img b r = some (start, nblk)) : 1 ≤ nblk ∧ nblk ≤ 2 ^ 32 := by
  obtain ⟨⟨lo, hi⟩, hs, heq⟩ := Option.map_eq_some_iff.mp h
  obtain ⟨hlt, hle⟩ := span_bounds hs
  obtain ⟨-, -, -, hone, -, -⟩ := blocksCoverSpan b.blockSize.toNat lo hi hpos hlt
  rw [heq] at hone
  refine ⟨hone, ?_⟩
  obtain rfl : ceilDiv (hi - (lo - lo % b.blockSize.toNat)) b.blockSize.toNat = nblk := congrArg Prod.snd heq
  have hfewer := pred_ceilDiv_mul_lt (a := hi - (lo - lo % b.blockSize.toNat)) (by omega) hpos
  have := Nat.le_mul_of_pos_right (ceilDiv (hi - (lo - lo % b.blockSize.toNat)) b.blockSize.toNat - 1) hpos
  omega

/-- A request names the session's node alone. -/
theorem requestEvent_congr {b c : BsUnit} (h : b.sGuid = c.sGuid) (p : Params) (typ : Half) (payload : List Byte) :
    requestEvent p b typ payload = requestEvent p c typ payload := by
  unfold requestEvent
  rw [h]

theorem regionBlocks_congr {b c : BsUnit} (h : b.blockSize = c.blockSize) (p : Params) (img : Memory) (r : Nat) :
    regionBlocks p img b r = regionBlocks p img c r := by
  unfold regionBlocks
  rw [h]

/-- What a region sends as block data (R230). -/
def loadRegionBytes (p : Params) (img : Memory) (b : BsUnit) (r : Nat) : List Byte :=
  match regionBlocks p img b r with
  | none => []
  | some (start, nblk) =>
    (List.range nblk).flatMap fun k => imageBlock img (regionOf p r) b.blockSize.toNat (blockAddr b start k)

/-- What a region hands to the status port (R240, R241). -/
def loadRegionMessages (p : Params) (img : Memory) (b : BsUnit) (r : Nat) : List (Byte × MsgId) :=
  match regionBlocks p img b r with
  | none => []
  | some (_, nblk) =>
    (milestone, .regionStart) :: (List.range nblk).map fun k => (progressOf (k + 1) nblk, .blockProgrammed)

theorem loadBytes_eq (p : Params) (img : Memory) (b : BsUnit) :
    loadBytes p img b = (List.range 4).flatMap (loadRegionBytes p img b) := rfl

theorem loadMessages_eq (p : Params) (img : Memory) (b : BsUnit) :
    loadMessages p img b = (List.range 4).flatMap (loadRegionMessages p img b) ++ [(100, .loadDone)] := rfl

/-! ## How far a load has come -/

/-- A load that BS began as `b`, in the environment `e`, has sent `evs`, with `bytes` in their block data, and has handed
`msgs` to the status port. -/
structure LoadProgress (b : BsUnit) (e : Env) (evs : List Event) (bytes : List Byte) (msgs : List (Byte × MsgId))
    (x : BsWorld) : Prop where
  flags     : x.1.flags = { busy := true, done := false, err := false, ovr := false }
  cmd       : x.1.cmd = 0x15
  guid      : x.1.sGuid = b.sGuid
  blockSize : x.1.blockSize = b.blockSize
  chunkSize : x.1.chunkSize = b.chunkSize
  ctrl      : x.1.sCtrl = relatchCtrl b.sCtrl b.ctrl
  checksum  : x.1.checksum = crc16Bytes b.checksum bytes
  sent      : x.2.sent = e.sent ++ evs
  messages  : x.2.messages = messagesAfter b.ctrl e.messages msgs

theorem LoadProgress.busy {b : BsUnit} {e : Env} {evs : List Event} {bytes : List Byte} {msgs : List (Byte × MsgId)}
    {x : BsWorld} (h : LoadProgress b e evs bytes msgs x) : x.1.flags.busy = true := by rw [h.flags]

/-- Handing out messages in two parts is handing out all of them. -/
theorem messagesAfter_append (c : Byte) (l m n : List (Byte × MsgId)) :
    messagesAfter c (messagesAfter c l m) n = messagesAfter c l (m ++ n) := by
  unfold messagesAfter
  split <;> simp

/-- The load hands out messages as `BS_CTRL` said when it began. -/
theorem LoadProgress.withMessages {b : BsUnit} {e : Env} {evs : List Event} {bytes : List Byte}
    {msgs : List (Byte × MsgId)} {x : BsWorld} (h : LoadProgress b e evs bytes msgs x) (more : List (Byte × MsgId)) :
    LoadProgress b e evs bytes (msgs ++ more) (x.1, x.2.withMessages x.1.sCtrl more) :=
  ⟨h.flags, h.cmd, h.guid, h.blockSize, h.chunkSize, h.ctrl, h.checksum, h.sent, by
    rw [h.ctrl, withMessages_relatch, Env.withMessages, h.messages, messagesAfter_append]⟩

/-- The place in the load and its progress registers are not part of it. -/
theorem LoadProgress.moveTo {b : BsUnit} {e : Env} {evs : List Event} {bytes : List Byte} {msgs : List (Byte × MsgId)}
    {x : BsWorld} (h : LoadProgress b e evs bytes msgs x) (region : Byte) (blockIdx : Word) (pt : BsPoint) :
    LoadProgress b e evs bytes msgs ({ x.1 with region := region, blockIdx := blockIdx, point := pt }, x.2) :=
  ⟨h.flags, h.cmd, h.guid, h.blockSize, h.chunkSize, h.ctrl, h.checksum, h.sent, h.messages⟩

/-- The requests that are left, and what the ports hold after them. -/
theorem agrees_nil {e : Env} {p : Params} {b : BsUnit} {sends : List PortStatus} {counts : List (PortStatus × Word)}
    {receives : List (PortStatus × Event)} (h : e.agrees p b [] sends counts receives) :
    e.sendStatus = sends ∧ e.counts = counts ∧ e.receives = receives := by
  obtain ⟨h1, ⟨cs, h2, -, h3⟩, evs, h4, h5⟩ := h
  obtain rfl : cs = [] := by simpa using h2
  obtain rfl : evs = [] := by simpa using h4
  exact ⟨h1, h3, h5⟩

/-! ## One block -/

/-- Where a load stands before block `k` of region `r`. -/
structure AtBlock (p : Params) (b : BsUnit) (r start k : Nat) (x : BsWorld) : Prop where
  region   : x.1.region.toNat = r
  blockIdx : x.1.blockIdx.toNat = k
  point    : x.1.point =
    .sendStartBlock (BitVec.ofNat 32 (blockAddr b start k / b.blockSize.toNat)) (regionOf p r).memtype

/-- The address of the block that `BS_REGION` and `BS_BLOCKIDX` name. -/
theorem currentBlockAddr_eq {p : Params} {img : Memory} {b c : BsUnit} {r start nblk : Nat} (hz : c.blockSize = b.blockSize)
    (hr : c.region.toNat = r) (hn : regionBlocks p img b r = some (start, nblk)) :
    currentBlockAddr p img c = blockAddr b start c.blockIdx.toNat := by
  rw [currentBlockAddr, currentBlocks_region p img c r hr, regionBlocks_congr hz, hn, blockAddr, hz]
  rfl

/-- On to the block that `BS_REGION` and `BS_BLOCKIDX` name. -/
theorem loadNextBlock_atBlock {p : Params} {img : Memory} {b : BsUnit} {r start nblk k : Nat} {x : BsWorld}
    (hz : x.1.blockSize = b.blockSize) (hr : x.1.region.toNat = r) (hk : x.1.blockIdx.toNat = k)
    (hn : regionBlocks p img b r = some (start, nblk)) : AtBlock p b r start k (loadNextBlock p img x) where
  region := hr
  blockIdx := hk
  point := by
    rw [loadNextBlock, goto_point, currentBlockNo, currentBlockAddr_eq hz hr hn, hk, hz, hr]

theorem LoadProgress.loadNextBlock {b : BsUnit} {e : Env} {evs : List Event} {bytes : List Byte}
    {msgs : List (Byte × MsgId)} {x : BsWorld} (h : LoadProgress b e evs bytes msgs x) (p : Params) (img : Memory) :
    LoadProgress b e evs bytes msgs (loadNextBlock p img x) :=
  h.moveTo x.1.region x.1.blockIdx _

/-- After a block's program-block ACK: the progress message, then the region's next block or the next region (R225). -/
theorem loadBlockDone_cases {p : Params} {img : Memory} {b : BsUnit} {e : Env} {evs : List Event} {bytes : List Byte}
    {msgs : List (Byte × MsgId)} {r start nblk k : Nat} {x : BsWorld} (h : LoadProgress b e evs bytes msgs x)
    (hr : x.1.region.toNat = r) (hk : x.1.blockIdx.toNat = k) (hn : regionBlocks p img b r = some (start, nblk))
    (hlt : nblk ≤ 2 ^ 32) :
    LoadProgress b e evs bytes (msgs ++ [(progressOf (k + 1) nblk, .blockProgrammed)]) (loadBlockDone p img x) ∧
    (loadBlockDone p img x).2.sendStatus = x.2.sendStatus ∧ (loadBlockDone p img x).2.counts = x.2.counts ∧
    (loadBlockDone p img x).2.receives = x.2.receives ∧
    if k + 1 < nblk then AtBlock p b r start (k + 1) (loadBlockDone p img x)
    else (loadBlockDone p img x).1.point = .loadRegion (r + 1) := by
  have hcur : currentBlocks p img x.1 = some (start, nblk) := by
    rw [currentBlocks_region p img x.1 r hr, regionBlocks_congr h.blockSize, hn]
  have hmsg := (h.moveTo x.1.region (x.1.blockIdx + 1) x.1.point).withMessages [(progressOf (k + 1) nblk, .blockProgrammed)]
  unfold loadBlockDone
  simp only [hcur, Option.getD_some, hk, hr, status_eq]
  split
  · have hidx : (x.1.blockIdx + 1).toNat = k + 1 := by
      rw [BitVec.toNat_add, hk, show (1 : Word).toNat = 1 from rfl]
      omega
    exact ⟨hmsg.loadNextBlock p img, rfl, rfl, rfl, loadNextBlock_atBlock h.blockSize hr hidx hn⟩
  · exact ⟨hmsg.moveTo _ _ _, rfl, rfl, rfl, rfl⟩

/-- The requests of the block that a load stands before. -/
theorem blockRequests_eq {p : Params} {img : Memory} {b c : BsUnit} {r start k : Nat} (hg : c.sGuid = b.sGuid)
    (hz : c.blockSize = b.blockSize) (hc : c.chunkSize = b.chunkSize) (hr : c.region.toNat = r) :
    blockRequests p img c (BitVec.ofNat 32 (blockAddr b start k / b.blockSize.toNat)) (blockAddr b start k) =
      loadBlockRequests p img b (regionOf p r) start k := by
  simp only [blockRequests, loadBlockRequests, blockDataRequests, requestEvent_congr hg, hz, hc, hr]

/-- One block up to its program-block ACK; its requests come first among those that the node agrees to acknowledge. -/
theorem loadBlock_acknowledged {p : Params} {fwb img : Memory} {b : BsUnit} {e : Env} {evs : List Event}
    {bytes : List Byte} {msgs : List (Byte × MsgId)} {r start nblk k : Nat} {x : BsWorld} {rest : List (Event × Half)}
    {sends : List PortStatus} {counts : List (PortStatus × Word)} {receives : List (PortStatus × Event)}
    (hpos : 0 < b.chunkSize.toNat) (hle : b.chunkSize.toNat ≤ b.blockSize.toNat)
    (hn : regionBlocks p img b r = some (start, nblk)) (n : Nat) (h : LoadProgress b e evs bytes msgs x)
    (hx : AtBlock p b r start k x)
    (ha : x.2.agrees p b (loadBlockRequests p img b (regionOf p r) start k ++ rest) sends counts receives) :
    ∃ z, bsRun p fwb img (n + 2 * (loadBlockRequests p img b (regionOf p r) start k).length) x =
        bsRun p fwb img n (loadBlockDone p img z) ∧
      LoadProgress b e (evs ++ (loadBlockRequests p img b (regionOf p r) start k).map fun q => q.1)
        (bytes ++ imageBlock img (regionOf p r) b.blockSize.toNat (blockAddr b start k)) msgs z ∧
      z.1.region.toNat = r ∧ z.1.blockIdx.toNat = k ∧
      ∀ v : Env, v.sendStatus = z.2.sendStatus → v.counts = z.2.counts → v.receives = z.2.receives →
        v.agrees p b rest sends counts receives := by
  obtain ⟨c, v⟩ := x
  obtain ⟨hr, hk, hpt⟩ := hx
  have haddr : currentBlockAddr p img c = blockAddr b start k := by
    rw [currentBlockAddr_eq h.blockSize hr hn, hk]
  have hreq : blockRequests p img c (BitVec.ofNat 32 (blockAddr b start k / b.blockSize.toNat))
      (currentBlockAddr p img c) = loadBlockRequests p img b (regionOf p r) start k := by
    rw [haddr, blockRequests_eq h.guid h.blockSize h.chunkSize hr]
  have hdata : imageBlock img (regionOf p c.region.toNat) c.blockSize.toNat (currentBlockAddr p img c) =
      imageBlock img (regionOf p r) b.blockSize.toNat (blockAddr b start k) := by
    rw [haddr, show c.region.toNat = r from hr, show c.blockSize = b.blockSize from h.blockSize]
  obtain ⟨cs, rs, hfirst, hrest⟩ := agrees_append ha
  rw [← hreq] at hfirst ⊢
  obtain ⟨t0, tm, ticks, draws, hrun⟩ := loadBlock_run p fwb img n c v
    (BitVec.ofNat 32 (blockAddr b start k / b.blockSize.toNat)) h.busy h.cmd
    (by rw [show c.region.toNat = r from hr]; exact hpt) (by rw [h.chunkSize]; exact hpos)
    (by rw [h.chunkSize, h.blockSize]; exact hle) (agrees_sGuid h.guid hfirst)
  refine ⟨_, hrun, ⟨h.flags, h.cmd, h.guid, h.blockSize, h.chunkSize, h.ctrl, ?_, ?_, h.messages⟩, hr, hk, hrest⟩
  · rw [crc16Bytes_append, ← h.checksum, hdata]
  · exact (congrArg (· ++ _) h.sent).trans (List.append_assoc _ _ _)

/-- One block, up to the next one or to the next region. -/
theorem loadBlock_progress {p : Params} {fwb img : Memory} {b : BsUnit} {e : Env} {evs : List Event} {bytes : List Byte}
    {msgs : List (Byte × MsgId)} {r start nblk k : Nat} {x : BsWorld} {rest : List (Event × Half)}
    {sends : List PortStatus} {counts : List (PortStatus × Word)} {receives : List (PortStatus × Event)}
    (hpos : 0 < b.chunkSize.toNat) (hle : b.chunkSize.toNat ≤ b.blockSize.toNat)
    (hn : regionBlocks p img b r = some (start, nblk)) (n : Nat) (h : LoadProgress b e evs bytes msgs x)
    (hx : AtBlock p b r start k x)
    (ha : x.2.agrees p b (loadBlockRequests p img b (regionOf p r) start k ++ rest) sends counts receives) :
    ∃ y, bsRun p fwb img (n + 2 * (loadBlockRequests p img b (regionOf p r) start k).length) x = bsRun p fwb img n y ∧
      LoadProgress b e (evs ++ (loadBlockRequests p img b (regionOf p r) start k).map fun q => q.1)
        (bytes ++ imageBlock img (regionOf p r) b.blockSize.toNat (blockAddr b start k))
        (msgs ++ [(progressOf (k + 1) nblk, .blockProgrammed)]) y ∧
      y.2.agrees p b rest sends counts receives ∧
      if k + 1 < nblk then AtBlock p b r start (k + 1) y else y.1.point = .loadRegion (r + 1) := by
  obtain ⟨z, hrun, hz, hr, hk, hrest⟩ := loadBlock_acknowledged (fwb := fwb) hpos hle hn n h hx ha
  obtain ⟨hdone, hs, hc, hrv, hnext⟩ := loadBlockDone_cases hz hr hk hn (regionBlocks_bounds (by omega) hn).2
  exact ⟨_, hrun, hdone, hrest _ hs hc hrv, hnext⟩

/-! ## The blocks of a region -/

/-- The blocks `k` to `k + m` of a region, of which block `k + m` is the last. -/
theorem loadBlocks_progress {p : Params} {fwb img : Memory} {b : BsUnit} {e : Env} {r start nblk : Nat}
    {rest : List (Event × Half)} {sends : List PortStatus} {counts : List (PortStatus × Word)}
    {receives : List (PortStatus × Event)} (hpos : 0 < b.chunkSize.toNat) (hle : b.chunkSize.toNat ≤ b.blockSize.toNat)
    (hn : regionBlocks p img b r = some (start, nblk)) (n m k : Nat) (hm : k + m + 1 = nblk) {evs : List Event}
    {bytes : List Byte} {msgs : List (Byte × MsgId)} {x : BsWorld} (h : LoadProgress b e evs bytes msgs x)
    (hx : AtBlock p b r start k x)
    (ha : x.2.agrees p b ((List.range' k (m + 1)).flatMap (loadBlockRequests p img b (regionOf p r) start) ++ rest)
      sends counts receives) :
    ∃ y, bsRun p fwb img
        (n + 2 * ((List.range' k (m + 1)).flatMap (loadBlockRequests p img b (regionOf p r) start)).length) x =
          bsRun p fwb img n y ∧
      LoadProgress b e
        (evs ++ ((List.range' k (m + 1)).flatMap (loadBlockRequests p img b (regionOf p r) start)).map fun q => q.1)
        (bytes ++ (List.range' k (m + 1)).flatMap fun j =>
          imageBlock img (regionOf p r) b.blockSize.toNat (blockAddr b start j))
        (msgs ++ (List.range' k (m + 1)).map fun j => (progressOf (j + 1) nblk, .blockProgrammed)) y ∧
      y.2.agrees p b rest sends counts receives ∧ y.1.point = .loadRegion (r + 1) := by
  induction m generalizing k evs bytes msgs x with
  | zero =>
    simp only [Nat.zero_add, List.range'_one, List.flatMap_cons, List.flatMap_nil, List.append_nil, List.map_cons,
      List.map_nil] at ha ⊢
    obtain ⟨y, hrun, hy, hrest, hnext⟩ := loadBlock_progress (fwb := fwb) hpos hle hn n h hx ha
    rw [if_neg (by omega)] at hnext
    exact ⟨y, hrun, hy, hrest, hnext⟩
  | succ m ih =>
    rw [List.range'_succ] at ha ⊢
    simp only [List.flatMap_cons, List.map_cons, List.append_assoc] at ha ⊢
    obtain ⟨y, hrun, hy, hrest, hnext⟩ := loadBlock_progress (fwb := fwb) hpos hle hn
      (n + 2 * ((List.range' (k + 1) (m + 1)).flatMap (loadBlockRequests p img b (regionOf p r) start)).length) h hx ha
    rw [if_pos (by omega)] at hnext
    obtain ⟨z, hrun', hz, hrest', hpt⟩ := ih (k + 1) (by omega) hy hnext hrest
    refine ⟨z, ?_, ?_, hrest', hpt⟩
    · rw [← hrun', ← hrun, List.length_append]
      congr 1
      omega
    · simpa only [List.map_append, List.append_assoc, List.cons_append, List.nil_append] using hz

/-! ## A region, and all of them -/

/-- A region that holds data: the message, then its first block (R225). -/
theorem loadRegion_written {p : Params} {img : Memory} {r start nblk : Nat} (c : BsUnit) (v : Env) (hr : r < 4)
    (hn : regionBlocks p img c r = some (start, nblk)) :
    loadRegion p img r (c, v) = loadNextBlock p img
      ({ c with region := BitVec.ofNat 8 r, blockIdx := 0 }, v.withMessages c.sCtrl [(milestone, .regionStart)]) := by
  have hcur : currentBlocks p img { c with region := BitVec.ofNat 8 r, blockIdx := 0 } = some (start, nblk) :=
    (currentBlocks_region p img _ r (region_toNat hr)).trans hn
  simp only [loadRegion, if_pos hr, hcur, status_eq]

/-- One region. -/
theorem loadRegion_progress {p : Params} {fwb img : Memory} {b : BsUnit} {e : Env} {r : Nat} {rest : List (Event × Half)}
    {sends : List PortStatus} {counts : List (PortStatus × Word)} {receives : List (PortStatus × Event)}
    (hpos : 0 < b.chunkSize.toNat) (hle : b.chunkSize.toNat ≤ b.blockSize.toNat) (hr : r < 4) (n : Nat)
    {evs : List Event} {bytes : List Byte} {msgs : List (Byte × MsgId)} {x : BsWorld}
    (h : LoadProgress b e evs bytes msgs x) (hp : x.1.point = .loadRegion r)
    (ha : x.2.agrees p b (loadRegionRequests p img b r ++ rest) sends counts receives) :
    ∃ y, bsRun p fwb img (n + (2 * (loadRegionRequests p img b r).length + 1)) x = bsRun p fwb img n y ∧
      LoadProgress b e (evs ++ (loadRegionRequests p img b r).map fun q => q.1) (bytes ++ loadRegionBytes p img b r)
        (msgs ++ loadRegionMessages p img b r) y ∧
      y.2.agrees p b rest sends counts receives ∧ y.1.point = .loadRegion (r + 1) := by
  obtain ⟨c, v⟩ := x
  have hcong : regionBlocks p img c r = regionBlocks p img b r := regionBlocks_congr h.blockSize p img r
  rw [← Nat.add_assoc, bsRun_succ _ _ _ _ _ h.busy, bsStep_loadRegion hp]
  unfold loadRegionRequests loadRegionBytes loadRegionMessages at *
  cases hn : regionBlocks p img b r with
  | none =>
    simp only [hn, List.nil_append] at ha
    rw [loadRegion_empty c v hr (hcong.trans hn)]
    refine ⟨_, rfl, ?_, ha, rfl⟩
    simpa using h.moveTo (BitVec.ofNat 8 r) 0 (.loadRegion (r + 1))
  | some q =>
    obtain ⟨start, nblk⟩ := q
    obtain ⟨m, rfl⟩ : ∃ m, nblk = m + 1 := ⟨nblk - 1, by have := (regionBlocks_bounds (by omega) hn).1; omega⟩
    simp only [hn, List.range_eq_range'] at ha ⊢
    rw [loadRegion_written c v hr (hcong.trans hn)]
    have hstart : LoadProgress b e evs bytes (msgs ++ [(milestone, .regionStart)]) (loadNextBlock p img
        ({ c with region := BitVec.ofNat 8 r, blockIdx := 0 }, v.withMessages c.sCtrl [(milestone, .regionStart)])) :=
      ((h.moveTo (BitVec.ofNat 8 r) 0 c.point).withMessages _).loadNextBlock p img
    obtain ⟨y, hrun, hy, hrest, hpt⟩ := loadBlocks_progress (fwb := fwb) hpos hle hn n m 0 (by omega) hstart
      (loadNextBlock_atBlock h.blockSize (region_toNat hr) rfl hn) ha
    exact ⟨y, hrun, by simpa only [List.append_assoc, List.cons_append, List.nil_append] using hy, hrest, hpt⟩

/-- The regions `r` to 3. -/
theorem loadRegions_progress {p : Params} {fwb img : Memory} {b : BsUnit} {e : Env} {sends : List PortStatus}
    {counts : List (PortStatus × Word)} {receives : List (PortStatus × Event)} (hpos : 0 < b.chunkSize.toNat)
    (hle : b.chunkSize.toNat ≤ b.blockSize.toNat) (n d r : Nat) (hd : r + d = 4) {evs : List Event} {bytes : List Byte}
    {msgs : List (Byte × MsgId)} {x : BsWorld} (h : LoadProgress b e evs bytes msgs x) (hp : x.1.point = .loadRegion r)
    (ha : x.2.agrees p b ((List.range' r d).flatMap (loadRegionRequests p img b)) sends counts receives) :
    ∃ y, bsRun p fwb img (n + (2 * ((List.range' r d).flatMap (loadRegionRequests p img b)).length + d)) x =
        bsRun p fwb img n y ∧
      LoadProgress b e (evs ++ ((List.range' r d).flatMap (loadRegionRequests p img b)).map fun q => q.1)
        (bytes ++ (List.range' r d).flatMap (loadRegionBytes p img b))
        (msgs ++ (List.range' r d).flatMap (loadRegionMessages p img b)) y ∧
      y.2.agrees p b [] sends counts receives ∧ y.1.point = .loadRegion 4 := by
  induction d generalizing r evs bytes msgs x with
  | zero =>
    obtain rfl : r = 4 := hd
    exact ⟨x, rfl, by simpa using h, ha, hp⟩
  | succ d ih =>
    rw [List.range'_succ] at ha ⊢
    simp only [List.flatMap_cons] at ha ⊢
    obtain ⟨y, hrun, hy, hrest, hpt⟩ := loadRegion_progress (fwb := fwb) hpos hle (show r < 4 by omega)
      (n + (2 * ((List.range' (r + 1) d).flatMap (loadRegionRequests p img b)).length + d)) h hp ha
    obtain ⟨z, hrun', hz, hrest', hpt'⟩ := ih (r + 1) (by omega) hy hpt hrest
    refine ⟨z, ?_, by simpa only [List.map_append, List.append_assoc] using hz, hrest', hpt'⟩
    rw [← hrun', ← hrun, List.length_append]
    congr 1
    omega

/-! ## The whole load -/

theorem loadStart_progress (b : BsUnit) (e : Env) : LoadProgress b e [] [] [] (loadStart b, e) := by
  refine ⟨rfl, rfl, rfl, rfl, rfl, rfl, rfl, (List.append_nil _).symm, ?_⟩
  unfold messagesAfter
  split <;> simp

/-- From its guard to its end, with the steps it needs or more. -/
theorem devLoad_run {p : Params} {fwb img : Memory} {b : BsUnit} {e : Env} {sends : List PortStatus}
    {counts : List (PortStatus × Word)} {receives : List (PortStatus × Event)} (hpos : 0 < b.chunkSize.toNat)
    (hle : b.chunkSize.toNat ≤ b.blockSize.toNat) (n : Nat) (ha : e.agrees p b (loadRequests p img b) sends counts receives) :
    ∃ y, bsRun p fwb img (n + 1 + (2 * (loadRequests p img b).length + 4)) (loadStart b, e) =
        (BsUnit.finish .success { y.1 with region := 4, state := .rebooted },
          y.2.withMessages y.1.sCtrl [(100, .loadDone)]) ∧
      LoadProgress b e ((loadRequests p img b).map fun q => q.1) (loadBytes p img b)
        ((List.range 4).flatMap (loadRegionMessages p img b)) y ∧
      y.2.sendStatus = sends ∧ y.2.counts = counts ∧ y.2.receives = receives := by
  rw [loadBytes_eq, loadRequests, List.range_eq_range'] at *
  obtain ⟨y, hrun, hy, hrest, hpt⟩ :=
    loadRegions_progress (fwb := fwb) hpos hle (n + 1) 4 0 rfl (loadStart_progress b e) rfl ha
  exact ⟨y, hrun.trans (bsRun_loadEnd n y.1 y.2 hy.busy hpt), hy, agrees_nil hrest⟩

/-- Settles O43: the load's progress at its end, and the frame of `DEV_LOAD` for what it leaves alone. -/
theorem devLoadResult : Obligations.DevLoadResult := by
  intro s sends counts receives hb hs hpos hle reqs hpace ha
  have hpace : 2 * (loadRequests s.params s.img s.bs).length + 6 ≤ s.pace := hpace
  obtain ⟨n, hn⟩ : ∃ n, s.pace = n + 1 + (2 * (loadRequests s.params s.img s.bs).length + 4) + 1 :=
    ⟨s.pace - (2 * (loadRequests s.params s.img s.bs).length + 6), by omega⟩
  obtain ⟨y, hrun, hy, hsend, hcount, hrecv⟩ := devLoad_run (fwb := s.fwb) hpos hle n ha
  have hexec := exec_devLoad hb hs hn
  simp only [State.onBs, hrun] at hexec
  have hf := stepCommand_frame (i := .devLoad) rfl nofun hb hexec
  have hkept := sameSession_of_frame (c := codeOf .devLoad) (by decide) hf
  have hmsg := (hy.withMessages [(100, .loadDone)]).messages
  refine ⟨_, hexec, rfl, rfl, rfl, ?_, rfl, hy.checksum, hy.ctrl, hkept, hf.operands, hy.sent,
    hmsg, hsend, hcount, hrecv⟩
  simp only [bsFinish_flags, hy.flags]
  rfl

end Sys2Proof.Machine
end

section
/-!
SUPPORT. Memory, block by block: what the block loop of a cipher command leaves at each place of the destination, and which
addresses of the image a region's span is made of. Settles O18, O19 and O26.
-/

namespace Sys2Proof.Machine

/-! ## Sixteen bytes of a memory (R72) -/

theorem readBlock_writeBlock_same (sp : Space) {m : Memory} (h : m.wf) (a : Nat) (b : Block) :
    readBlock sp (writeBlock m a b) a = b := by
  apply Vector.ext
  intro i hi
  simp [readBlock, writeBlock, byteAt_writeBytes sp m h]

theorem readBlock_writeBlock_apart (sp : Space) (m : Memory) {a c : Nat} (b : Block) (h : a + 16 ≤ c ∨ c + 16 ≤ a) :
    readBlock sp (writeBlock m c b) a = readBlock sp m a := by
  apply Vector.ext
  intro i hi
  have hout : ¬(c ≤ a + i ∧ a + i < c + b.toList.length) := by
    rw [Vector.length_toList]
    omega
  simp only [readBlock, writeBlock, byteAt, Vector.getElem_ofFn, read?_writeBytes_ne m c (a + i) b.toList hout]

/-! ## The block loop -/

/-- The loop writes from its offset on: a block below is left alone. -/
theorem readBlock_bufferLoop_below (xf : Block → Block → Block × Block) (sp : Space) (src dst n off : Nat) (ch : Block)
    (m : Memory) {a : Nat} (h : a + 16 ≤ dst + off) :
    readBlock sp (bufferLoop xf sp src dst n off ch m) a = readBlock sp m a := by
  induction n generalizing off ch m with
  | zero => rfl
  | succ n ih =>
    rw [bufferLoop, ih _ _ _ (by omega), readBlock_writeBlock_apart sp m _ (.inl h)]

/-- `CHAIN` before block `j` of the loop, from the blocks read (R166, R169). -/
def chainBefore (xf : Block → Block → Block × Block) (inp : Nat → Block) (iv : Block) : Nat → Block
  | 0 => iv
  | j + 1 => (xf (chainBefore xf inp iv j) (inp j)).2

/-- The loop from block `i` on, when the blocks it has still to read are those of `inp` and no block it writes is one that
it reads later. -/
theorem readBlock_bufferLoop {xf : Block → Block → Block × Block} {sp : Space} {src dst N : Nat} {inp : Nat → Block}
    {iv : Block} (hapart : src = dst ∨ src + 16 * N ≤ dst ∨ dst + 16 * N ≤ src) {n i : Nat} {m : Memory} (hN : i + n ≤ N)
    (hwf : m.wf) (hinp : ∀ j, i ≤ j → j < i + n → readBlock sp m (src + 16 * j) = inp j) {j : Nat} (hij : i ≤ j)
    (hj : j < i + n) :
    readBlock sp (bufferLoop xf sp src dst n (16 * i) (chainBefore xf inp iv i) m) (dst + 16 * j) =
      (xf (chainBefore xf inp iv j) (inp j)).1 := by
  induction n generalizing i m with
  | zero => omega
  | succ n ih =>
    rw [bufferLoop, hinp i (Nat.le_refl i) (by omega)]
    obtain rfl | hlt := Nat.eq_or_lt_of_le hij
    · rw [readBlock_bufferLoop_below _ _ _ _ _ _ _ _ (by omega), readBlock_writeBlock_same sp hwf]
    · refine ih (i := i + 1) (by omega) (writeBytes_wf hwf _ _) (fun l hl hln => ?_) hlt (by omega)
      rw [readBlock_writeBlock_apart sp m _ (by omega)]
      exact hinp l (by omega) (by omega)

/-- Block `j` of the source before the command. -/
def CeUnit.sourceBlock (u : CeUnit) (k j : Nat) : Block := readBlock (.buf k) u.buf (u.src.toNat + 16 * j)

/-- Block `j` of the destination after a cipher command whose checks have passed. -/
theorem readBlock_cipherBuffer (xf : Block → Block → Block × Block) (k : Nat) {u : CeUnit} (hwf : u.buf.wf)
    (hapart : u.src = u.dst ∨ u.src.toNat + u.len.toNat ≤ u.dst.toNat ∨ u.dst.toNat + u.len.toNat ≤ u.src.toNat)
    {j : Nat} (hj : j < u.len.toNat / 16) :
    readBlock (.buf k) (cipherBuffer xf k u) (u.dst.toNat + 16 * j) =
      (xf (chainBefore xf (u.sourceBlock k) u.iv j) (u.sourceBlock k j)).1 := by
  have hblocks : u.src.toNat = u.dst.toNat ∨ u.src.toNat + 16 * (u.len.toNat / 16) ≤ u.dst.toNat ∨
      u.dst.toNat + 16 * (u.len.toNat / 16) ≤ u.src.toNat := by
    have hfits := Nat.mul_div_le u.len.toNat 16
    refine hapart.imp (congrArg BitVec.toNat) (Or.imp (fun h => ?_) fun h => ?_) <;> omega
  exact readBlock_bufferLoop (i := 0) hblocks (by omega) hwf (fun _ _ _ => rfl) (Nat.zero_le j) (by omega)

/-- Settles O18: the ECB commands do not use `CHAIN`. -/
theorem ecbBlocks : Obligations.EcbBlocks := fun _ k nr _ W hwf hj hapart =>
  ⟨readBlock_cipherBuffer (ecbEncXf W nr) k hwf hapart hj, readBlock_cipherBuffer (ecbDecXf W nr) k hwf hapart hj⟩

/-- Settles O19: after block `j` an encryption's `CHAIN` is the block written, a decryption's the block read. -/
theorem cbcBlocks : Obligations.CbcBlocks := by
  intro u k nr W hwf hapart inp enc dec
  have henc : ∀ j, j < u.len.toNat / 16 →
      enc j = encBlock W nr (xorBlock (inp j) (chainBefore (cbcEncXf W nr) inp u.iv j)) :=
    fun j hj => readBlock_cipherBuffer (cbcEncXf W nr) k hwf hapart hj
  have hdec : ∀ j, j < u.len.toNat / 16 →
      dec j = xorBlock (decBlock W nr (inp j)) (chainBefore (cbcDecXf W nr) inp u.iv j) :=
    fun j hj => readBlock_cipherBuffer (cbcDecXf W nr) k hwf hapart hj
  refine ⟨fun h => ⟨henc 0 h, hdec 0 h⟩, fun j hj => ⟨?_, hdec (j + 1) hj⟩⟩
  rw [henc j (Nat.lt_of_succ_lt hj)]
  exact henc (j + 1) hj

/-! ## The span of a region (R227) -/

theorem read?_ne_none_iff (m : Memory) (a : Nat) : m.read? a ≠ none ↔ ∃ c ∈ m, c.1 = a := by
  induction m with
  | nil => simp [Memory.read?]
  | cons c m ih =>
    rw [Memory.read?, List.exists_mem_cons_iff, ← ih]
    by_cases h : a = c.1
    · simp [h]
    · simp [h, Ne.symm h]

theorem mem_populated {img : Memory} {g : Region} {a : Nat} :
    a ∈ populated img g ↔ g.first.toNat ≤ a ∧ a ≤ g.last.toNat ∧ img.read? a ≠ none := by
  rw [read?_ne_none_iff]
  simp only [populated, regionHolds, List.mem_map, List.mem_filter, Bool.and_eq_true, decide_eq_true_eq]
  constructor
  · rintro ⟨c, ⟨hc, hfirst, hlast⟩, rfl⟩
    exact ⟨hfirst, hlast, c, hc, rfl⟩
  · rintro ⟨hfirst, hlast, c, hc, rfl⟩
    exact ⟨c, ⟨hc, hfirst, hlast⟩, rfl⟩

theorem span_eq_none_iff (img : Memory) (g : Region) : span img g = none ↔ populated img g = [] := by
  unfold span
  split <;> simp [*]

theorem span_eq_some {img : Memory} {g : Region} {lo hi : Nat} (h : span img g = some (lo, hi)) :
    (populated img g).min? = some lo ∧ (populated img g).max? = some (hi - 1) := by
  unfold span at h
  split at h
  · cases h
  · rename_i a as heq
    cases h
    exact ⟨by rw [heq, List.min?_cons'], by rw [heq, List.max?_cons', Nat.add_sub_cancel]⟩

/-- Settles O26: the ends of a span are the minimum and the maximum of the populated addresses. -/
theorem spanOfRegion : Obligations.SpanOfRegion := by
  intro img g _ inP
  have hmem : ∀ a, a ∈ populated img g ↔ inP a := fun a => mem_populated
  refine ⟨?_, ?_, fun lo hi h => ?_⟩
  · rw [regionLast_toNat]
    exact Nat.le_add_right _ _
  · simp only [span_eq_none_iff, List.eq_nil_iff_forall_not_mem, hmem]
  · obtain ⟨hmin, hmax⟩ := span_eq_some h
    obtain ⟨hlo, hleast⟩ := List.min?_eq_some_iff.mp hmin
    obtain ⟨hhi, hgreatest⟩ := List.max?_eq_some_iff.mp hmax
    obtain ⟨hlt, -⟩ := span_bounds h
    refine ⟨hlt, (hmem lo).mp hlo, (hmem (hi - 1)).mp hhi, fun a ha => ⟨hleast a ((hmem a).mpr ha), ?_⟩⟩
    have := hgreatest a ((hmem a).mpr ha)
    omega

end Sys2Proof.Machine
end

section
/-!
SUPPORT. One step of BS: a command that its local checks refuse, and what a step sends, place by place of the pseudocode
(`bsStep_sends`). Settles O34 and O47.
-/

namespace Sys2Proof.Machine

/-! ## Refused by the checks -/

theorem bsStep_checks {p : Params} {fwb img : Memory} {x : BsWorld} (hp : x.1.point = .checks) :
    bsStep p fwb img x = bsChecks p x := by
  rw [bsStep, hp]

/-- A refusal after the accept step: the report, and nothing else (R264). -/
theorem refuse_accepted {r : ErrCode} (hr : r ≠ .success) (c : Byte) (b : BsUnit) (e : Env) :
    BsWorld.refuse r (startAtChecks (b.accept c), e) = (b.refused r, e) := by
  simp [BsWorld.refuse, BsUnit.finish, BsUnit.refused, startAtChecks, BsUnit.accept, Flags.accept, Flags.complete, hr]

/-- A command that its guard or a local check refuses takes one step. -/
theorem exec_bs_refused {s : State} {i : Instr} {r : ErrCode} (hs : soloLapse i = .lapseBs) (hne : i ≠ .devInit)
    (hb : s.bs.flags.busy = false) (hpace : 1 ≤ s.pace) (hr : r ≠ .success)
    (hchecks : bsChecks s.params (startAtChecks (s.bs.accept (codeOf i)), s.env) =
      BsWorld.refuse r (startAtChecks (s.bs.accept (codeOf i)), s.env)) :
    exec i s = .next { s with bs := s.bs.refused r } := by
  obtain ⟨n, hn⟩ : ∃ n, s.pace = n + 1 := ⟨s.pace - 1, by omega⟩
  have hstart : bsStart s.params i = startAtChecks := by
    unfold bsStart
    split
    · exact absurd rfl hne
    · rfl
  have hrun : bsRun s.params s.fwb s.img s.pace (startAtChecks (s.bs.accept (codeOf i)), s.env) =
      (s.bs.refused r, s.env) := by
    rw [hn, bsRun_succ _ _ _ _ _ rfl, bsStep_checks rfl, hchecks, refuse_accepted hr, bsRun_idle _ _ _ _ _ rfl]
  rw [exec_bs_idle hs hb, State.onBs]
  simp only [hstart, hrun]

theorem not_inRange {a n : Word} {size : Nat} (h : size < a.toNat + n.toNat) : ¬inRange a n size = true :=
  fun hin => Nat.not_le.mpr h (of_decide_eq_true hin)

/-- Settles O34: each clause is one branch of the command's checks. -/
theorem localRefusals : Obligations.LocalRefusals := by
  intro s hb hpace hst
  refine ⟨fun hsize => ?_, fun hsize hrange => ?_, fun hidx hrange => ?_⟩
  · refine exec_bs_refused rfl nofun hb hpace nofun ?_
    exact (if_neg (not_not_intro hst)).trans (if_pos hsize)
  · refine exec_bs_refused rfl nofun hb hpace nofun ?_
    exact (if_neg (not_not_intro hst)).trans ((if_neg (Nat.not_lt.mpr hsize)).trans
      (if_neg (not_inRange hrange)))
  · refine exec_bs_refused rfl nofun hb hpace nofun ?_
    exact (if_neg (not_or_intro (not_not_intro hst) (not_not_intro hidx))).trans
      (if_neg (not_inRange hrange))

/-! ## What a step sends -/

@[simp] theorem status_sent (x : BsWorld) (q : Byte) (m : MsgId) : (x.status q m).2.sent = x.2.sent := by
  unfold BsWorld.status
  split <;> rfl

@[simp] theorem raise_sent (e : ErrCode) (x : BsWorld) : (BsWorld.raise e x).2.sent = x.2.sent := status_sent _ _ _
@[simp] theorem refuse_sent (e : ErrCode) (x : BsWorld) : (BsWorld.refuse e x).2.sent = x.2.sent := rfl
@[simp] theorem complete_sent (x : BsWorld) : x.complete.2.sent = x.2.sent := rfl
@[simp] theorem goto_sent (x : BsWorld) (pt : BsPoint) : (x.goto pt).2.sent = x.2.sent := rfl
@[simp] theorem now_sent (e : Env) : e.now.2.sent = e.sent := (now_later e).2.1
@[simp] theorem tpCount_sent (e : Env) : e.tpCount.2.sent = e.sent := (tpCount_later e).2.1
@[simp] theorem tpReceive_sent (e : Env) : e.tpReceive.2.sent = e.sent := (tpReceive_later e).2.1
@[simp] theorem stdregRead_sent (e : Env) (g : Guid) : (e.stdregRead g).2.sent = e.sent := (stdregRead_later e g).2.1
@[simp] theorem loadNextBlock_sent (p : Params) (img : Memory) (x : BsWorld) :
    (loadNextBlock p img x).2.sent = x.2.sent := rfl

@[simp] theorem bsChecks_sent (p : Params) (x : BsWorld) : (bsChecks p x).2.sent = x.2.sent := by
  unfold bsChecks
  split
  · unfold blkStartChecks; split <;> simp
  · unfold blkWriteChecks; split_ifs <;> simp
  · unfold chunkWriteChecks; split_ifs <;> simp
  · unfold blkProgramChecks; split <;> simp
  · unfold devLoadChecks; split <;> simp
  · simp

@[simp] theorem devInitCompare_sent (p : Params) (x : BsWorld) : (devInitCompare p x).2.sent = x.2.sent := by
  unfold devInitCompare
  split_ifs <;> simp

@[simp] theorem devInitRead_sent (p : Params) (x : BsWorld) : (devInitRead p x).2.sent = x.2.sent := by
  unfold devInitRead
  dsimp only
  split <;> simp

@[simp] theorem deadlineTest_sent (x : BsWorld) : (deadlineTest x).2.sent = x.2.sent := by
  unfold deadlineTest
  dsimp only
  split <;> simp

@[simp] theorem afterEnterBoot_sent (ev : Event) (x : BsWorld) : (afterEnterBoot ev x).2.sent = x.2.sent := by
  unfold afterEnterBoot
  dsimp only
  split_ifs <;> simp

@[simp] theorem afterStartBlock_sent (n : Word) (x : BsWorld) : (afterStartBlock n x).2.sent = x.2.sent := by
  unfold afterStartBlock
  dsimp only
  split
  · simp
  · split <;> simp

@[simp] theorem afterChunk_sent (k : Nat) (x : BsWorld) : (afterChunk k x).2.sent = x.2.sent := by
  unfold afterChunk
  dsimp only
  split
  · simp
  · split <;> simp
  · split <;> simp

@[simp] theorem loadBlockDone_sent (p : Params) (img : Memory) (x : BsWorld) :
    (loadBlockDone p img x).2.sent = x.2.sent := by
  unfold loadBlockDone
  dsimp only
  split <;> simp

@[simp] theorem afterProgramBlock_sent (p : Params) (img : Memory) (x : BsWorld) :
    (afterProgramBlock p img x).2.sent = x.2.sent := by
  unfold afterProgramBlock
  dsimp only
  split <;> simp

@[simp] theorem afterAck_sent (p : Params) (img : Memory) (a : Await) (ev : Event) (x : BsWorld) :
    (afterAck p img a ev x).2.sent = x.2.sent := by
  cases a <;> simp [afterAck]

/-- A wait sends nothing (R181, R182). -/
@[simp] theorem checkResponse_sent (p : Params) (img : Memory) (a : Await) (x : BsWorld) :
    (checkResponse p img a x).2.sent = x.2.sent := by
  unfold checkResponse
  dsimp only
  split
  · split
    · split <;> simp
    · simp
  · simp

@[simp] theorem loadRegion_sent (p : Params) (img : Memory) (r : Nat) (x : BsWorld) :
    (loadRegion p img r x).2.sent = x.2.sent := by
  unfold loadRegion
  dsimp only
  split
  · split <;> simp
  · simp

/-- From `x` to `y` exactly one event has been sent, a request of `x`'s session: on success BS waits for its answer, on
failure the command has ended with `ERR_COMM` (R100, R181). -/
def SentRequest (p : Params) (x y : BsWorld) : Prop :=
  ∃ ev, y.2.sent = x.2.sent ++ [ev] ∧ ev.cls = p.classProtocol ∧ ev.timestamp = 0 ∧ ev.guid = x.1.sGuid ∧
    ((x.2.tpSend ev).1 = .ok → y.1.flags.busy = true ∧ ∃ a, y.1.point = .wait a) ∧
    ((x.2.tpSend ev).1 ≠ .ok → y.1.flags.busy = false ∧ y.1.state = .failed ∧ y.1.err = .comm)

/-- `send_req`, when what follows a success enters a wait and sends nothing more. -/
theorem sendReq_sentRequest (p : Params) (typ : Half) (payload : List Byte) {x : BsWorld} {next : BsWorld → BsWorld}
    (hb : x.1.flags.busy = true)
    (hnext : ∀ e, (next (x.1, e)).2.sent = e.sent ∧ (next (x.1, e)).1.flags = x.1.flags ∧
      ∃ a, (next (x.1, e)).1.point = .wait a) :
    SentRequest p x (x.sendReq p typ payload next) := by
  obtain ⟨-, hsent, -, -⟩ := tpSend_later x.2 (requestEvent p x.1 typ payload)
  refine ⟨requestEvent p x.1 typ payload, ?_, rfl, rfl, rfl, fun hok => ?_, fun hfail => ?_⟩
  · unfold BsWorld.sendReq
    dsimp only
    split
    · rw [(hnext _).1, hsent]
    · rw [raise_sent, hsent]
  · obtain ⟨-, hflags, hwait⟩ := hnext (x.2.tpSend (requestEvent p x.1 typ payload)).2
    rw [BsWorld.sendReq, if_pos hok, hflags]
    exact ⟨hb, hwait⟩
  · rw [BsWorld.sendReq, if_neg hfail]
    exact ⟨rfl, rfl, rfl⟩

/-- Entry to a wait sends nothing. -/
theorem enterWait_waits (a : Await) (b : BsUnit) (e : Env) :
    (BsWorld.enterWait a (b, e)).2.sent = e.sent ∧ (BsWorld.enterWait a (b, e)).1.flags = b.flags ∧
      ∃ a', (BsWorld.enterWait a (b, e)).1.point = .wait a' :=
  ⟨now_sent e, rfl, a, rfl⟩

theorem writeChunkSend_sends (p : Params) (k : Nat) (data : List Byte) {x : BsWorld} (hb : x.1.flags.busy = true) :
    (writeChunkSend p k data x).2.sent = x.2.sent ∨ SentRequest p x (writeChunkSend p k data x) := by
  unfold writeChunkSend
  split
  · exact .inl (raise_sent _ _)
  · exact .inr (sendReq_sentRequest (x := ({ x.1 with checksum := crc16Bytes x.1.checksum data }, x.2)) p _ _ hb
      (enterWait_waits _ _))

theorem devInitSend_sends (p : Params) {x : BsWorld} (hb : x.1.flags.busy = true) : SentRequest p x (devInitSend p x) :=
  sendReq_sentRequest p _ _ hb fun e => ⟨by simp [BsWorld.enterWait], rfl, .enterBoot, rfl⟩

/-- A step of busy BS sends nothing, or it is at a send and sends one request. -/
theorem bsStep_sends (p : Params) (fwb img : Memory) {x : BsWorld} (hb : x.1.flags.busy = true) :
    (bsStep p fwb img x).2.sent = x.2.sent ∨
      (∀ a, x.1.point ≠ .wait a) ∧ SentRequest p x (bsStep p fwb img x) := by
  unfold bsStep
  cases hp : x.1.point with
  | idle => exact .inl rfl
  | checks => exact .inl (bsChecks_sent p x)
  | readRegisters => exact .inl (devInitRead_sent p x)
  | sendEnterBoot => exact .inr ⟨nofun, devInitSend_sends p hb⟩
  | sendStartBlock n mt => exact .inr ⟨nofun, sendReq_sentRequest p _ _ hb (enterWait_waits _ _)⟩
  | sendChunk k => exact (writeChunkSend_sends p _ _ hb).imp_right fun h => ⟨nofun, h⟩
  | sendProgramBlock n => exact .inr ⟨nofun, sendReq_sentRequest p _ _ hb (enterWait_waits _ _)⟩
  | wait a => exact .inl (checkResponse_sent p img a x)
  | loadRegion r => exact .inl (loadRegion_sent p img r x)

/-- Settles O47: a run of one step is `bsStep`, whose sends all go through `sendReq`. -/
theorem oneRequestInFlight : Obligations.OneRequestInFlight := by
  intro p fwb img b e hb y
  have hy : y = bsStep p fwb img (b, e) := bsRun_succ p fwb img 0 (b, e) hb
  rw [hy]
  refine (bsStep_sends p fwb img hb).imp_right ?_
  rintro ⟨hwait, ev, hsent, hcls, htime, hguid, hok, hfail⟩
  exact ⟨ev, hsent, hcls, htime, hguid, hwait, hok, hfail⟩

end Sys2Proof.Machine
end

section
/-!
SUPPORT. When a step stops: HOST's next move is outside its memory, or inside it at bytes a busy unit is using; any other step
goes on. Settles O53.
-/

namespace Sys2Proof.Machine

section
variable {s : State} {m : Move} {rest : List Move}

/-- A memory move outside its memory stops the machine (R60). -/
theorem step_outside (h : s.moves = m :: rest) (hout : s.outside m) : step s = .fault .hostAddressOutside := by
  cases m with
  | bufWrite k a bytes =>
    rw [step_move h nofun, hostMove, takeMove_ces, takeMove_params]
    cases hu : s.ces[k]? with
    | none => rfl
    | some u => exact if_pos (hout.resolve_left (by simp [hu]))
  | bufRead k a =>
    rw [step_move h nofun, hostMove, takeMove_ces, takeMove_params]
    cases hu : s.ces[k]? with
    | none => rfl
    | some u => exact if_pos (hout.resolve_left (by simp [hu]))
  | fwbWrite a bytes => exact (step_move h nofun).trans (if_pos hout)
  | fwbRead a => exact (step_move h nofun).trans (if_pos hout)
  | imgWrite a bytes => exact (step_move h nofun).trans (if_pos hout)
  | write _ _ | read _ | imgRead _ | imgClear | waitCe _ | waitBs | lapse | lapseCe _ | lapseBs | reset => exact hout.elim

/-- A memory move inside its memory, at bytes a busy unit is using, stops the machine (R79). -/
theorem step_touchesBusy (h : s.moves = m :: rest) (hin : ¬s.outside m) (hbusy : s.touchesBusy m) :
    step s = .fault .hostTouchesBusyMemory := by
  cases m with
  | bufWrite k a bytes =>
    obtain ⟨u, hu, hb, j, hj, hused⟩ := hbusy
    have hfree : ¬ceFree u a.toNat bytes.length true = true := fun hf =>
      (ceFree_iff _ _ _ _).mp hf ⟨hb, j, hj, hused.imp_left fun hsrc => ⟨rfl, hsrc⟩⟩
    rw [step_move h nofun, hostMove, takeMove_ces, takeMove_params, hu]
    exact (if_neg fun hout => hin (.inr hout)).trans (if_neg hfree)
  | bufRead k a =>
    obtain ⟨u, hu, hb, hdst⟩ := hbusy
    have hfree : ¬ceFree u a.toNat 1 false = true := fun hf =>
      (ceFree_iff _ _ _ _).mp hf ⟨hb, 0, Nat.one_pos, .inr hdst⟩
    rw [step_move h nofun, hostMove, takeMove_ces, takeMove_params, hu]
    exact (if_neg fun hout => hin (.inr hout)).trans (if_neg hfree)
  | fwbWrite a bytes => exact (step_move h nofun).trans ((if_neg hin).trans (if_pos hbusy))
  | imgWrite a bytes => exact (step_move h nofun).trans ((if_neg hin).trans (if_pos hbusy))
  | imgClear => exact (step_move h nofun).trans (if_pos hbusy)
  | write _ _ | read _ | fwbRead _ | imgRead _ | waitCe _ | waitBs | lapse | lapseCe _ | lapseBs | reset =>
    exact hbusy.elim

/-- Every other move goes on. -/
theorem step_permitted (h : s.moves = m :: rest) (hin : ¬s.outside m) (hfree : ¬s.touchesBusy m) :
    ∃ t, step s = .next t := by
  cases m with
  | write a v => exact step_write h
  | bufWrite k a bytes =>
    obtain ⟨u, hu⟩ := Option.ne_none_iff_exists'.mp fun hnone => hin (.inl hnone)
    exact ⟨_, step_bufWrite h hu hin hfree⟩
  | bufRead k a =>
    obtain ⟨u, hu⟩ := Option.ne_none_iff_exists'.mp fun hnone => hin (.inl hnone)
    exact ⟨_, step_bufRead h hu hin hfree⟩
  | fwbWrite a bytes => exact ⟨_, step_fwbWrite h hin hfree⟩
  | fwbRead a => exact ⟨_, step_fwbRead h hin⟩
  | imgWrite a bytes => exact ⟨_, step_imgWrite h hin hfree⟩
  | imgRead a => exact ⟨_, step_imgRead h⟩
  | imgClear => exact ⟨_, step_imgClear h hfree⟩
  | read _ | waitCe _ | waitBs | lapse | lapseCe _ | lapseBs | reset => exact ⟨_, step_move h nofun⟩

end

/-- Settles O53: the three cases exclude each other, and so do their outcomes. -/
theorem onlyHostMemoryMovesStop : Obligations.OnlyHostMemoryMovesStop := by
  intro s
  refine ⟨fun h => ⟨lapse s, by rw [step, h]; rfl⟩, fun m rest h => ?_⟩
  by_cases hout : s.outside m
  · simp [step_outside h hout, hout]
  · by_cases hbusy : s.touchesBusy m
    · simp [step_touchesBusy h hout hbusy, hout, hbusy]
    · obtain ⟨t, ht⟩ := step_permitted h hout hbusy
      simp [ht, hout, hbusy]

end Sys2Proof.Machine
end

section
/-!
SUPPORT. What a write to a command register is: the codes that are commands of its unit, and the step that such a write, or one
of a reserved code, makes (R92, R93, R97). Settles O1, O4 and O5.
-/

namespace Sys2Proof.Machine

/-! ## The codes of a command register -/

/-- The cipher table has the functions 1 to 5 (R93). -/
theorem decodeCe_range {k f : Nat} {i : Instr} (h : decodeCe k f = .ok i) : 1 ≤ f ∧ f ≤ 5 := by
  unfold decodeCe at h
  split at h <;> cases h <;> decide

/-- The bootloader table has the functions 0 to 5 (R93). -/
theorem decodeBs_range {f : Nat} {i : Instr} (h : decodeBs f = .ok i) : f ≤ 5 := by
  unfold decodeBs at h
  split at h <;> cases h <;> decide

/-- A command of a cipher unit's command register has a code from 0x01 to 0x05 (R93). -/
theorem decode_cipherRegister_range {k : Nat} (hk : k < 15) {c : Byte} {i : Instr} (h : decode (regAddr k 0) c = .ok i) :
    1 ≤ c.toNat ∧ c.toNat ≤ 5 := by
  obtain ⟨hu, -⟩ := regAddr_parts (show k < 16 by omega) (show 0 < 0x1000 by decide)
  obtain ⟨-, ⟨hg, -, hd⟩ | ⟨-, hbs, -⟩⟩ := decode_ok h
  · have hf := decodeCe_range hd
    unfold groupField at hg
    unfold funcField at hf
    omega
  · exact absurd (hu.symm.trans hbs) (Nat.ne_of_lt hk)

/-- A command of `BS_CMD` has a code from 0x10 to 0x15 (R93). -/
theorem decode_bootRegister_range {c : Byte} {i : Instr} (h : decode (regAddr bsUnit 0) c = .ok i) :
    0x10 ≤ c.toNat ∧ c.toNat ≤ 0x15 := by
  obtain ⟨-, ⟨-, hce, -⟩ | ⟨hg, -, hd⟩⟩ := decode_ok h
  · exact absurd rfl hce
  · have hf := decodeBs_range hd
    unfold groupField at hg
    unfold funcField at hf
    omega

/-- Settles O1: the two tables row by row, and their ranges. -/
theorem commandMap : Obligations.CommandMap := by
  refine ⟨fun k hk => ⟨decode_cipherRegister hk rfl, decode_cipherRegister hk rfl, decode_cipherRegister hk rfl,
    decode_cipherRegister hk rfl, decode_cipherRegister hk rfl, fun c hc i h => hc (decode_cipherRegister_range hk h)⟩,
    decode_bootRegister rfl, decode_bootRegister rfl, decode_bootRegister rfl, decode_bootRegister rfl,
    decode_bootRegister rfl, decode_bootRegister rfl, fun c hc i h => hc (decode_bootRegister_range h)⟩

/-! ## The step of a write to a command register -/

/-- A write that decodes runs its command, with the move taken (R92). -/
theorem step_command {s : State} {a : RegAddr} {v : Word} {rest : List Move} {i : Instr}
    (h : s.moves = .write a v :: rest) (hd : decode a (v.setWidth 8) = .ok i) :
    step s = exec i { s with moves := rest } := by
  rw [← takeMove_eq h, step, h]
  simp only [fetch, hd]

/-- The register write of a table word carries the word's code. -/
theorem tableWord_code (w : Nat) : (BitVec.ofNat 32 (w % 256)).setWidth 8 = BitVec.ofNat 8 w := by
  apply BitVec.eq_of_toNat_eq
  simp only [BitVec.toNat_setWidth, BitVec.toNat_ofNat]
  omega

/-- A table word that is a command is read from the command register of its group's unit. -/
theorem decode_of_decodeTableWord {nbits w : Nat} {i : Instr} (h : decodeTableWord nbits w = some i) :
    decode (tableCommandRegister w) (BitVec.ofNat 8 w) = .ok i := by
  unfold decodeTableWord at h
  split at h
  · split at h
    · cases h
      assumption
    · cases h
  · cases h

/-- Settles O4: a table word is put before HOST's moves as such a write. -/
theorem stepRunsDecodedCommand : Obligations.StepRunsDecodedCommand := by
  refine ⟨fun s a v rest i h hd => step_command h hd, fun s nbits w i h => ?_⟩
  exact step_command (s := s.withFetchWord nbits w) rfl ((tableWord_code w).symm ▸ decode_of_decodeTableWord h)

/-- A write to a command register is read as a command, or as a code that is none. -/
theorem decode_ne_notCommandRegister {a : RegAddr} (ho : offsetOf a = 0) (c : Byte) :
    decode a c ≠ .error .notCommandRegister := by
  have hce : ∀ k f, decodeCe k f ≠ .error .notCommandRegister := fun k f => by
    unfold decodeCe
    split <;> nofun
  have hbs : ∀ f, decodeBs f ≠ .error .notCommandRegister := fun f => by
    unfold decodeBs
    split <;> nofun
  unfold decode
  rw [if_neg (not_not_intro ho)]
  split
  · split
    · nofun
    · exact hce _ _
  · split
    · split
      · exact hbs _
      · nofun
    · nofun

/-- A write of a reserved code is refused in the step that takes it (R97). -/
theorem step_reservedCode {s : State} {a : RegAddr} {v : Word} {rest : List Move} (h : s.moves = .write a v :: rest)
    (ho : offsetOf a = 0) (hr : ∀ i, decode a (v.setWidth 8) ≠ .ok i) :
    step s = .next (refuseIllegal a (v.setWidth 8) { s with moves := rest }) := by
  rw [← takeMove_eq h, step, h]
  cases hd : decode a (v.setWidth 8) with
  | ok i => exact absurd hd (hr i)
  | error e =>
    cases e with
    | notCommandRegister => exact absurd hd (decode_ne_notCommandRegister ho _)
    | reservedGroup | reservedFunction | wrongUnit => simp only [fetch, hd]

/-- An idle cipher unit that accepts a code and refuses it at once: the report, and nothing else (R264). -/
theorem ceRefuse_accepted {e : ErrCode} (he : e ≠ .success) (c : Byte) {u : CeUnit} (h : u.idleClear) :
    (u.accept c).refuse e = u.refused e := by
  obtain ⟨-, hcmd, hphase, hw, hst, hchain, htmp, hnk, hnr, hi, hround, hoff⟩ := h
  simp [CeUnit.refuse, CeUnit.finish, CeUnit.refused, CeUnit.accept, Flags.accept, Flags.complete, he, hcmd, hphase, hw, hst,
    hchain, htmp, hnk, hnr, hi, hround, hoff]

theorem refuseIllegal_ce {s : State} {k : Nat} {u : CeUnit} (hk : k < 15) (hu : s.ces[k]? = some u) (h : u.idleClear)
    (c : Byte) : refuseIllegal (regAddr k 0) c s = s.setCe k (u.refused .illegalCmd) := by
  obtain ⟨h1, -⟩ := regAddr_parts (show k < 16 by omega) (show 0 < 0x1000 by decide)
  rw [refuseIllegal, h1, if_neg (show k ≠ bsUnit from Nat.ne_of_lt hk), onCe_some _ _ _ _ hu, h.1,
    ← ceRefuse_accepted (e := .illegalCmd) (by decide) c h]
  rfl

theorem refuseIllegal_bs {s : State} (hb : s.bs.flags.busy = false) (c : Byte) :
    refuseIllegal (regAddr bsUnit 0) c s = { s with bs := s.bs.refused .illegalCmd } := by
  rw [refuseIllegal, if_pos (by decide), State.onBs]
  simp only [hb]
  rfl

/-- Settles O5: no such code decodes, and an idle unit that refuses it changes its report alone. -/
theorem reservedCodeIsRefused : Obligations.ReservedCodeIsRefused := by
  refine ⟨fun s k u v rest hk hm hu hidle hc => ?_, fun s v rest hm hidle hc => ?_⟩
  · have ho := (regAddr_parts (show k < 16 by omega) (show 0 < 0x1000 by decide)).2
    rw [step_reservedCode hm ho fun i h => hc (decode_cipherRegister_range hk h),
      refuseIllegal_ce (s := { s with moves := rest }) hk hu hidle]
  · have hm : s.moves = .write (regAddr bsUnit 0) v :: rest := hm
    rw [step_reservedCode hm (by decide) fun i h => hc (decode_bootRegister_range h),
      refuseIllegal_bs (s := { s with moves := rest }) hidle.1]

end Sys2Proof.Machine
end

section
/-!
SUPPORT. The accept step: a busy unit sets `OVR` alone, and an idle one clears it and the old report, which no later step of the
command sets again (R33, R92). Settles O6 and O7.
-/

namespace Sys2Proof.Machine

/-! ## A busy unit -/

/-- Settles O6: a command is a write of its code to its unit's command register, whichever it is. -/
theorem busyUnitOverrun : Obligations.BusyUnitOverrun := by
  refine ⟨fun s k u i hi hu hb => ?_, fun s i hi hb => ?_⟩
  · rw [exec_ce (soloLapse_cipher hi), issueCe_setCe _ hu, if_pos hb]
    rfl
  · rw [exec_bs (soloLapse_boot hi), issueBs, State.onBs]
    simp only [if_pos hb, Flags.overrun]

/-! ## An idle cipher unit -/

/-- A step of a cipher command goes on with it, or ends it with a report; `OVR` stays either way. -/
theorem cipherStep_report {m : CipherOps} (hm : m.Ok) (p : Params) (k : Nat) (u : CeUnit) :
    u.reportStep (cipherStep m p k u) := by
  unfold cipherStep
  cases u.phase with
  | idle => exact .inl ⟨rfl, rfl, rfl, rfl⟩
  | checks =>
    dsimp only
    split
    · exact finish_report _ _ _ fun _ => rfl
    · exact .inl ⟨rfl, rfl, rfl, rfl⟩
  | expand =>
    dsimp only
    split
    · exact .inl ⟨rfl, rfl, rfl, rfl⟩
    · rw [hm.start]
      exact .inl ⟨rfl, rfl, rfl, rfl⟩
  | block =>
    dsimp only
    split
    · rw [hm.load]
      rcases hm.dir with ⟨hf, -⟩ | ⟨hf, -⟩ <;> rw [hf] <;> exact .inl ⟨rfl, rfl, rfl, rfl⟩
    · exact finish_report _ _ _ fun h => absurd rfl h
  | rounds =>
    rcases hm.dir with ⟨-, hr⟩ | ⟨-, hr⟩ <;> dsimp only <;> rw [hr]
    · unfold encNext
      split <;> exact .inl ⟨rfl, rfl, rfl, rfl⟩
    · unfold decNext
      split <;> exact .inl ⟨rfl, rfl, rfl, rfl⟩
  | store =>
    dsimp only
    rw [hm.next, hm.fixup]
    exact .inl ⟨rfl, rfl, rfl, rfl⟩

/-- The same of a step of any busy cipher unit. -/
theorem ceStep_report (p : Params) (k : Nat) (u : CeUnit) : u.reportStep (ceStep p k u) := by
  unfold ceStep
  split
  · exact cipherStep_report ok_ecbEnc p k u
  · exact cipherStep_report ok_ecbDec p k u
  · exact cipherStep_report ok_cbcEnc p k u
  · exact cipherStep_report ok_cbcDec p k u
  · unfold genIvStep
    split
    · simp only
      split <;> exact finish_report _ _ _ fun h => absurd rfl h
    · exact finish_report _ _ _ fun _ => rfl
  · exact finish_report _ _ _ fun _ => rfl

/-- The command register and the flags of a unit that accepted `c` and has seen no further write of a command: `OVR` is clear,
and the unit is busy with `c` or done. -/
def FreshReport (c : Byte) (f : Flags) (cmd : Byte) : Prop :=
  f.ovr = false ∧ f.busy = !f.done ∧ (f.busy = true → cmd = c)

theorem freshReport_step {c : Byte} {u v : CeUnit} (h : FreshReport c u.flags u.cmd) (hs : u.reportStep v) :
    FreshReport c v.flags v.cmd := by
  obtain ⟨hovr, hbusy, hcmd⟩ := h
  rcases hs with ⟨hf, -, -, hc⟩ | ⟨hb, hd, ho, -⟩
  · rw [hf, hc]
    exact ⟨hovr, hbusy, hcmd⟩
  · refine ⟨ho.trans hovr, by rw [hb, hd]; rfl, fun h => ?_⟩
    rw [hb] at h
    cases h

theorem ceRun_freshReport {c : Byte} (p : Params) (k n : Nat) {u : CeUnit} (h : FreshReport c u.flags u.cmd) :
    FreshReport c (ceRun p k n u).flags (ceRun p k n u).cmd := by
  induction n generalizing u with
  | zero => exact h
  | succ n ih =>
    unfold ceRun
    split
    · exact ih (freshReport_step h (ceStep_report p k u))
    · exact h

/-! ## Idle BS -/

/-- A frame that starts from an accept step ends in flags that are still its own, or those of a command that is complete. -/
theorem freshReport_frame {c : Byte} {f : Flags} {x y : BsWorld} (hx : x.1.flags = f.accept) (hf : BsFrame c x y)
    (hy : OnCommand c y) : FreshReport c y.1.flags y.1.cmd := by
  rcases hf.flags with h | ⟨failed, h⟩ <;> rw [hx] at h
  · exact ⟨by rw [h]; rfl, by rw [h]; rfl, fun hb => (hy hb).1⟩
  · rw [h]
    exact ⟨rfl, rfl, nofun⟩

theorem bsStart_flags (p : Params) (i : Instr) (b : BsUnit) : (bsStart p i b).flags = b.flags := by
  unfold bsStart
  split <;> rfl

/-- Settles O7: the accept step makes the report fresh, and a run keeps it so. -/
theorem acceptClearsOverrun : Obligations.AcceptClearsOverrun := by
  refine ⟨fun s t k u w i hi hu hb ht hw => ?_, fun s t i hi hb ht => ?_⟩
  · rw [exec_ce (soloLapse_cipher hi), issueCe_setCe _ hu, if_neg (by simp [hb])] at ht
    cases ht
    have hlt : k < s.ces.length := (List.getElem?_eq_some_iff.mp hu).1
    obtain rfl : ceRun s.params k s.pace (u.accept (codeOf i)) = w :=
      Option.some.inj ((List.getElem?_set_self hlt).symm.trans hw)
    exact ceRun_freshReport s.params k s.pace ⟨rfl, rfl, fun _ => rfl⟩
  · have hs := soloLapse_boot hi
    rw [exec_bs_idle hs hb] at ht
    cases ht
    obtain ⟨hf, hc⟩ := bsRun_frame s.params s.fwb s.img s.pace _ (bsStart_onCommand hs s.params s.bs s.env)
    exact freshReport_frame (f := s.bs.flags) (bsStart_flags _ _ _) hf hc

end Sys2Proof.Machine
end

section
/-!
SUPPORT. The bootloader commands whose requests the node acknowledges at the first poll, from the accept step to the report: the
three of one request, and `BLK_WRITE` with its loop over chunks (R200, R204, R206, R210). Settles O35, O36, O37 and O39.
-/

namespace Sys2Proof.Machine

/-! ## From the accept step to the first request -/

/-- The first step of a command other than `DEV_INIT` is its checks. -/
theorem exec_bs_checks {s : State} {i : Instr} {n : Nat} (hs : soloLapse i = .lapseBs) (hne : i ≠ .devInit)
    (hb : s.bs.flags.busy = false) (hn : s.pace = n + 1) :
    exec i s = .next (s.onBs fun x =>
      bsRun s.params s.fwb s.img n (bsChecks s.params (startAtChecks (x.1.accept (codeOf i)), x.2))) := by
  have hstart : bsStart s.params i = startAtChecks := by
    unfold bsStart
    split
    · exact absurd rfl hne
    · rfl
  rw [exec_bs_idle hs hb, hn, hstart, State.onBs, State.onBs, bsRun_succ _ _ _ _ _ rfl, bsStep_checks rfl]

/-- BS inside command `c` when its checks have passed, at a place of its pseudocode. -/
def commandAt (c : Byte) (b : BsUnit) (pt : BsPoint) : BsUnit := { b.accept c with point := pt }

/-- A command whose checks pass, and whose further steps lead to `b` and `e`. -/
theorem exec_bs_passed {s : State} {i : Instr} {n : Nat} {pt : BsPoint} {b : BsUnit} {e : Env} (hs : soloLapse i = .lapseBs)
    (hne : i ≠ .devInit) (hb : s.bs.flags.busy = false) (hn : s.pace = n + 1)
    (hchecks : bsChecks s.params (startAtChecks (s.bs.accept (codeOf i)), s.env) = (commandAt (codeOf i) s.bs pt, s.env))
    (hrun : bsRun s.params s.fwb s.img n (commandAt (codeOf i) s.bs pt, s.env) = (b, e)) :
    exec i s = .next { s with bs := b, env := e } := by
  rw [exec_bs_checks hs hne hb hn, State.onBs, hchecks, hrun]

theorem inRange_of_le {a n : Word} {size : Nat} (h : a.toNat + n.toNat ≤ size) : inRange a n size = true :=
  decide_eq_true h

/-! ## One request -/

/-- Settles O35: the guard, the exchange, and `BlockStarted`. -/
theorem blkStartResult : Obligations.BlkStartResult := by
  intro s ev sends counts receives hb hpace hst hans
  obtain ⟨n, hn⟩ : ∃ n, s.pace = n + 2 + 1 := ⟨s.pace - 3, by omega⟩
  refine exec_bs_passed (pt := .sendStartBlock s.bs.blockNo s.bs.memtype) rfl nofun hb hn (if_pos hst)
    ((startBlock_exchange _ _ _ n (commandAt 0x11 s.bs _) s.env _ _ rfl rfl hans).trans ?_)
  rw [afterStartBlock_blkStart _ _ rfl, bsRun_idle _ _ _ _ _ rfl]
  rfl

/-- Settles O37: the guard, the exchange, and `BlockProgrammed`. -/
theorem blkProgramResult : Obligations.BlkProgramResult := by
  intro s ev sends counts receives hb hpace hst hans
  obtain ⟨n, hn⟩ : ∃ n, s.pace = n + 2 + 1 := ⟨s.pace - 3, by omega⟩
  refine exec_bs_passed (pt := .sendProgramBlock s.bs.blockNo) rfl nofun hb hn (if_pos hst)
    ((programBlock_exchange _ _ _ n _ _ rfl rfl hans).trans ?_)
  rw [afterProgramBlock_blkProgram _ _ _ rfl, bsRun_idle _ _ _ _ _ rfl]
  rfl

/-- `CHUNK_WRITE` inside its bounds goes on to its request. -/
theorem chunkWriteChecks_passed {p : Params} {b : BsUnit} (e : Env) (hst : b.state = .blockStarted)
    (hsize : b.chunkLen.toNat ≤ b.chunkSize.toNat) (hrange : b.src.toNat + b.chunkLen.toNat ≤ p.fwbSize.val) :
    bsChecks p (startAtChecks (b.accept 0x13), e) = (commandAt 0x13 b (.sendChunk b.chunkIdx.toNat), e) :=
  (if_neg (not_not_intro hst)).trans ((if_neg (Nat.not_lt.mpr hsize)).trans (if_pos (inRange_of_le hrange)))

theorem memRead_length (sp : Space) (m : Memory) (a n : Nat) : (memRead sp m a n).length = n := by simp [memRead]

/-- What `CHUNK_WRITE` carries (R204). -/
theorem chunkData_chunkWrite (p : Params) (fwb img : Memory) {b : BsUnit} (hc : b.cmd = 0x13) (k : Nat) :
    chunkData p fwb img b k = memRead .fwb fwb b.src.toNat b.chunkLen.toNat := by
  rw [chunkData, hc]
  rfl

/-- Settles O36: the checks, the exchange, and the chunk count, which may be the block's last. -/
theorem chunkWriteResult : Obligations.ChunkWriteResult := by
  intro s ev sends counts receives hb hpace hst hsize hrange hans
  obtain ⟨n, hn⟩ : ∃ n, s.pace = n + 2 + 1 := ⟨s.pace - 3, by omega⟩
  have hlen : (memRead .fwb s.fwb s.bs.src.toNat s.bs.chunkLen.toNat).length ≤ s.bs.chunkSize.toNat := by
    rwa [memRead_length]
  refine exec_bs_passed rfl nofun hb hn (chunkWriteChecks_passed s.env hst hsize hrange)
    ((chunk_exchange _ _ _ n _ (commandAt 0x13 s.bs _) s.env _ rfl rfl
      (chunkData_chunkWrite _ _ _ rfl _) hlen hans).trans ?_)
  rw [afterChunk_chunkWrite _ _ rfl, bsRun_idle _ _ _ _ _ rfl, ← hst]
  rfl

/-! ## BLK_WRITE -/

/-- `BLK_WRITE` at the start of a block in range goes on to its first chunk. -/
theorem blkWriteChecks_passed {p : Params} {b : BsUnit} (e : Env) (hst : b.state = .blockStarted) (hidx : b.chunkIdx = 0)
    (hcount : 0 < chunkCount b) (hrange : b.src.toNat + b.blockSize.toNat ≤ p.fwbSize.val) :
    bsChecks p (startAtChecks (b.accept 0x12), e) = (commandAt 0x12 b (.sendChunk 0), e) :=
  (if_neg (not_or_intro (not_not_intro hst) (not_not_intro hidx))).trans
    ((if_pos (inRange_of_le hrange)).trans (if_pos hcount))

/-- What chunk `j` of `BLK_WRITE` carries, in terms of the block's bytes (R206). -/
theorem chunkData_blkWrite (p : Params) (fwb img : Memory) {b : BsUnit} (hc : b.cmd = 0x12) (j : Nat) :
    chunkData p fwb img b j = chunkSlice (memRead .fwb fwb b.src.toNat b.blockSize.toNat) b.chunkSize.toNat j := by
  rw [chunkData, hc]
  show memRead .fwb fwb (b.src.toNat + chunkLo b j) (chunkHi b j - chunkLo b j) = _
  unfold memRead
  rw [chunkSlice_map]
  simp only [chunkHi, chunkLo, Nat.add_assoc]

/-- Settles O39: the checks, the loop over all chunks of the block, and its end. -/
theorem blkWriteResult : Obligations.BlkWriteResult := by
  intro s sends counts receives hb hst hidx hpos hle hrange data reqs hpace ha
  obtain ⟨hcount, hfits⟩ := chunkCount_bounds hpos hle
  have hdata : data.length = s.bs.blockSize.toNat := memRead_length _ _ _ _
  have hreqs : reqs.length = chunkCount s.bs := by rw [blockDataRequests_length, hdata]; rfl
  obtain ⟨m, hm⟩ : ∃ m, chunkCount s.bs = m + 1 := ⟨chunkCount s.bs - 1, by omega⟩
  obtain ⟨n, hn⟩ : ∃ n, s.pace = n + 2 * (m + 1) + 1 := ⟨s.pace - (2 * (m + 1) + 1), by omega⟩
  obtain ⟨t0, tm, ticks, draws, hrun⟩ := chunkLoop s.params s.fwb s.img m n 0 (commandAt 0x12 s.bs (.sendChunk 0)) s.env
    data rfl (.inl rfl) hst rfl hidx (by rw [Nat.zero_add]; exact hm.symm) hfits hdata hpos
    (fun c hc hsrc hbs hcs _ _ j _ => by rw [chunkData_blkWrite _ _ _ hc, hsrc, hbs, hcs]; rfl) ha
  refine ⟨t0, tm, ticks, draws, ?_, hreqs⟩
  rw [hreqs]
  refine exec_bs_passed rfl nofun hb hn (blkWriteChecks_passed s.env hst hidx hcount hrange) (hrun.trans ?_)
  rw [chunksDone_blkWrite rfl, bsRun_idle _ _ _ _ _ rfl, Nat.zero_mul, List.drop_zero]
  rfl

end Sys2Proof.Machine
end

section
/-!
SUPPORT. `DEV_INIT` from its accept step to its report: the register read, the request, the answer (R190 to R195), with the
messages and the register answers, which the exchange does not read, carried past it. Settles O30.
-/

namespace Sys2Proof.Machine

/-! ## The log of messages, and an exchange -/

/-- The last of a list of messages can be handed out by itself. -/
theorem withMessages_append_pair (e : Env) (c : Byte) (l : List (Byte × MsgId)) (m m' : Byte × MsgId) :
    e.withMessages c (l ++ [m, m']) = (e.withMessages c (l ++ [m])).withMessages c [m'] := by
  rw [withMessages_twice, List.append_assoc]
  rfl

/-- The clock does not read the messages or the register answers. -/
theorem now_withMessages (e : Env) (c : Byte) (l : List (Byte × MsgId)) :
    (e.withMessages c l).now = (e.now.1, e.now.2.withMessages c l) := by
  simp only [Env.now, Env.withMessages]
  cases e.ticks <;> rfl

theorem now_registers (e : Env) (regs : List (PortStatus × Byte × Half)) :
    Env.now { e with registers := regs } = (e.now.1, { e.now.2 with registers := regs }) := by
  unfold Env.now
  cases e.ticks <;> rfl

theorem afterSend_withMessages (e : Env) (c : Byte) (l : List (Byte × MsgId)) (req : Event) (sends : List PortStatus) :
    (e.withMessages c l).afterSend req sends = (e.afterSend req sends).withMessages c l := by
  unfold Env.afterSend
  rw [now_withMessages]
  rfl

theorem afterExchange_withMessages (e : Env) (c : Byte) (l : List (Byte × MsgId)) (req : Event) (sends : List PortStatus)
    (counts : List (PortStatus × Word)) (receives : List (PortStatus × Event)) :
    (e.withMessages c l).afterExchange req sends counts receives =
      (e.afterExchange req sends counts receives).withMessages c l := by
  unfold Env.afterExchange
  rw [now_withMessages]
  rfl

theorem afterExchange_registers (e : Env) (regs : List (PortStatus × Byte × Half)) (req : Event) (sends : List PortStatus)
    (counts : List (PortStatus × Word)) (receives : List (PortStatus × Event)) :
    Env.afterExchange { e with registers := regs } req sends counts receives =
      { e.afterExchange req sends counts receives with registers := regs } := by
  unfold Env.afterExchange
  rw [now_registers]

/-! ## The steps of DEV_INIT -/

/-- BS inside `DEV_INIT` when the registers have been read and both checks on them have passed. -/
def readyToSend (p : Params) (b : BsUnit) (code : Half) : BsUnit :=
  { (b.accept 0x10).registersPassed p p.expectedBootAlgorithm code with state := .registersRead, point := .sendEnterBoot }

/-- The register read gives the expected algorithm, and a device code that is the session's or need not be (R190 to R193). -/
theorem devInit_registers (p : Params) (fwb img : Memory) (b : BsUnit) {e : Env} {code : Half}
    {regs : List (PortStatus × Byte × Half)} (h : e.registers = (.ok, p.expectedBootAlgorithm, code) :: regs)
    (hc : code = b.devcode ∨ abortMismatch b.ctrl = false) :
    bsStep p fwb img (sessionOpen p (b.accept 0x10), e) = (readyToSend p b code,
      Env.withMessages { e with registers := regs } b.ctrl (devInitMessages (code ≠ b.devcode))) := by
  refine (devInitRead_ok p (sessionOpen p (b.accept 0x10)) h).trans ?_
  by_cases hm : code = b.devcode
  · rw [devInitCompare_match _ _ _ rfl hm]
    simp [devInitMessages, readyToSend, BsUnit.registersPassed, hm]
  · rw [devInitCompare_soft _ _ _ rfl hm (hc.resolve_left hm)]
    simp only [sessionOpen_sCtrl, bsAccept_ctrl, withMessages_twice]
    simp [devInitMessages, readyToSend, BsUnit.registersPassed, hm]

/-- A request that the transport takes (R190). -/
theorem devInit_send (p : Params) (fwb img : Memory) {b : BsUnit} {e : Env} {sends : List PortStatus}
    (hp : b.point = .sendEnterBoot) (h : e.sendStatus = .ok :: sends) :
    bsStep p fwb img (b, e) =
      ({ b with state := .bootModeRequested, deadlineT0 := e.now.1, point := .wait .enterBoot },
        (e.withMessages b.sCtrl [(milestone, .bootRequested)]).afterSend
          (requestEvent p b p.typeEnterBoot (enterBootPayload p b)) sends) := by
  have hstep : bsStep p fwb img (b, e) = devInitSend p (b, e) := by rw [bsStep, hp]
  rw [hstep, afterSend_withMessages]
  simp only [devInitSend, BsWorld.sendReq, tpSend_cons h, if_true, status_eq, BsWorld.enterWait, now_withMessages,
    now_afterSend]

/-- An ACK of at least 8 bytes, with a block size that holds a chunk (R194, R195). -/
theorem afterEnterBoot_ok {ev : Event} (b : BsUnit) (e : Env) (hlen : 8 ≤ ev.len.val)
    (hsize : b.chunkSize.toNat ≤ (ackBlockSize ev.payload).toNat) :
    afterEnterBoot ev (b, e) =
      (BsUnit.finish .success { b with
        blockSize := ackBlockSize ev.payload, numBlocks := ackNumBlocks ev.payload, state := .bootModeConfirmed },
        e.withMessages b.sCtrl [(milestone, .bootConfirmed)]) := by
  unfold afterEnterBoot
  rw [if_neg (by omega)]
  dsimp only
  rw [if_neg (by omega), status_eq]
  rfl

/-- The first poll after the request meets its ACK (R182, R183). -/
theorem devInit_answer (p : Params) (fwb img : Memory) {b : BsUnit} {e : Env} {ev : Event} (req : Event)
    {sends : List PortStatus} {counts : List (PortStatus × Word)} {receives : List (PortStatus × Event)}
    (hp : b.point = .wait .enterBoot) (h : e.oneAnswer p b.sGuid p.typeEnterBootAck ev sends counts receives) :
    bsStep p fwb img (b, e.afterSend req sends) = afterEnterBoot ev (b, e.afterExchange req sends counts receives) := by
  have hstep : bsStep p fwb img (b, e.afterSend req sends) = checkResponse p img .enterBoot (b, e.afterSend req sends) := by
    rw [bsStep, hp]
  have ⟨_, _, _, hcls, htyp, hguid⟩ := h
  rw [hstep, checkResponse_answer p img .enterBoot b h, classify_ack (a := .enterBoot) hcls hguid htyp]
  rfl

/-- From the accept step to the wait, with the two steps it takes. -/
theorem devInit_toWait {p : Params} {fwb img : Memory} (n : Nat) {b : BsUnit} {e : Env} {code : Half}
    {regs : List (PortStatus × Byte × Half)} {sends : List PortStatus}
    (hregs : e.registers = (.ok, p.expectedBootAlgorithm, code) :: regs)
    (hc : code = b.devcode ∨ abortMismatch b.ctrl = false) (hsend : e.sendStatus = .ok :: sends) :
    bsRun p fwb img (n + 1 + 1) (sessionOpen p (b.accept 0x10), e) = bsRun p fwb img n
      ({ readyToSend p b code with
          state := .bootModeRequested, deadlineT0 := e.now.1, point := .wait .enterBoot },
        Env.afterSend (Env.withMessages { e with registers := regs } b.ctrl
          (devInitMessages (code ≠ b.devcode) ++ [(milestone, .bootRequested)])) (enterBootRequest p b) sends) := by
  have hsend' : (Env.withMessages { e with registers := regs } b.ctrl (devInitMessages (code ≠ b.devcode))).sendStatus =
      .ok :: sends := hsend
  rw [bsRun_succ _ _ _ _ _ rfl, devInit_registers _ _ _ _ hregs hc, bsRun_succ _ _ _ _ _ rfl,
    devInit_send _ _ _ rfl hsend', now_withMessages, now_registers, ← withMessages_twice]
  rfl

/-- `DEV_INIT` on idle BS, whose steps lead from the open session to `b` and `e`. -/
theorem exec_devInit {s : State} {b : BsUnit} {e : Env} (hb : s.bs.flags.busy = false)
    (hrun : bsRun s.params s.fwb s.img s.pace (sessionOpen s.params (s.bs.accept 0x10), s.env) = (b, e)) :
    exec .devInit s = .next { s with bs := b, env := e } := by
  have hstart : bsStart s.params .devInit (s.bs.accept (codeOf .devInit)) = sessionOpen s.params (s.bs.accept 0x10) := rfl
  rw [exec_bs_idle rfl hb, State.onBs, hstart, hrun]

/-- Settles O30: the request is under way after two steps, and the third meets its ACK. -/
theorem devInitResult : Obligations.DevInitResult := by
  intro s code regs ev sends counts receives hb hpace hregs hcode hans hlen hsize
  obtain ⟨n, hn⟩ : ∃ n, s.pace = n + 1 + 1 + 1 := ⟨s.pace - 3, by omega⟩
  refine exec_devInit hb ?_
  rw [hn, devInit_toWait (n + 1) hregs hcode hans.1, bsRun_succ _ _ _ _ _ rfl, devInit_answer _ _ _ _ rfl hans,
    afterEnterBoot_ok _ _ hlen hsize, bsRun_idle _ _ _ _ _ rfl, afterExchange_withMessages, afterExchange_registers,
    withMessages_append_pair]
  rfl

end Sys2Proof.Machine
end

section
/-!
SUPPORT. GF(2^8): `gmul` is additive in both operands and moves past `xtime`, so that a law of it holds of all bytes
once it holds of `0x01` (R121, R122). Settles O8.
-/

namespace Sys2Proof.Machine

/-! ## Doubling -/

@[simp] theorem xtime_zero : xtime 0#8 = 0#8 := rfl

theorem xtime_eq (a : Byte) : xtime a = a <<< 1 ^^^ if a.getLsbD 7 then 0x1B else 0#8 := rfl

/-- A bit by which two bytes differ, chosen between `x` and nothing, is the sum of their two choices. -/
theorem ite_bne (b c : Bool) (x : Byte) :
    (if b ^^ c then x else 0#8) = (if b then x else 0#8) ^^^ (if c then x else 0#8) := by
  cases b <;> cases c <;> simp

theorem xtime_xor (a b : Byte) : xtime (a ^^^ b) = xtime a ^^^ xtime b := by
  simp only [xtime_eq, BitVec.shiftLeft_xor_distrib, BitVec.getLsbD_xor, ite_bne]
  ac_rfl

/-- A byte is the double of its upper seven bits, and its lowest bit. -/
theorem xtime_upper_xor_lowest (a : Byte) : xtime (a >>> 1) ^^^ (if a.getLsbD 0 then 1#8 else 0#8) = a := by
  have hup : xtime (a >>> 1) = a >>> 1 <<< 1 := by simp [xtime]
  rw [hup]
  ext i hi
  cases i with
  | zero => cases h : a[0] <;> simp [h]
  | succ i => cases h : a[0] <;> simp [h, Nat.add_comm 1 i, BitVec.getLsbD_eq_getElem hi]

/-- Every byte is made of `0x01` by doubling and addition (R120, R121). -/
theorem byte_induction {P : Byte → Prop} (zero : P 0#8) (one : P 1#8) (xor : ∀ a b, P a → P b → P (a ^^^ b))
    (double : ∀ a, P a → P (xtime a)) (a : Byte) : P a := by
  induction hn : a.toNat using Nat.strong_induction_on generalizing a with
  | _ n ih =>
    by_cases h0 : a = 0#8
    · exact h0 ▸ zero
    · have hlt : (a >>> 1).toNat < n := by
        have hpos : 0 < a.toNat := Nat.pos_of_ne_zero fun h => h0 (BitVec.eq_of_toNat_eq h)
        rw [BitVec.toNat_ushiftRight, Nat.shiftRight_eq_div_pow]
        omega
      rw [← xtime_upper_xor_lowest a]
      refine xor _ _ (double _ (ih _ hlt _ rfl)) ?_
      split
      · exact one
      · exact zero

/-! ## The loop of a product -/

/-- One bit of the loop of `gmul`, as a sum. -/
theorem gmulLoop_succ (c : Byte) (n k : Nat) (t p : Byte) :
    gmulLoop c (n + 1) k t p = gmulLoop c n (k + 1) (xtime t) (p ^^^ if c.getLsbD k then t else 0#8) := by
  rw [gmulLoop]
  split <;> simp

theorem gmulLoop_xor_left (c : Byte) (n k : Nat) (t t' p p' : Byte) :
    gmulLoop c n k (t ^^^ t') (p ^^^ p') = gmulLoop c n k t p ^^^ gmulLoop c n k t' p' := by
  induction n generalizing k t t' p p' with
  | zero => rfl
  | succ n ih =>
    simp only [gmulLoop_succ, xtime_xor, ← ih]
    congr 1
    split
    · ac_rfl
    · simp

theorem gmulLoop_xor_right (c d : Byte) (n k : Nat) (t p q : Byte) :
    gmulLoop (c ^^^ d) n k t (p ^^^ q) = gmulLoop c n k t p ^^^ gmulLoop d n k t q := by
  induction n generalizing k t p q with
  | zero => rfl
  | succ n ih =>
    simp only [gmulLoop_succ, BitVec.getLsbD_xor, ite_bne, ← ih]
    congr 1
    ac_rfl

theorem gmulLoop_xtime (c : Byte) (n k : Nat) (t p : Byte) :
    gmulLoop c n k (xtime t) (xtime p) = xtime (gmulLoop c n k t p) := by
  induction n generalizing k t p with
  | zero => rfl
  | succ n ih =>
    simp only [gmulLoop_succ, ← ih, xtime_xor]
    congr 2
    split <;> rfl

/-! ## The laws of the product (R122) -/

theorem gmul_xor_left (a b c : Byte) : gmul (a ^^^ b) c = gmul a c ^^^ gmul b c :=
  gmulLoop_xor_left c 8 0 a b 0#8 0#8

theorem gmul_xor_right (a b c : Byte) : gmul a (b ^^^ c) = gmul a b ^^^ gmul a c :=
  gmulLoop_xor_right b c 8 0 a 0#8 0#8

theorem gmul_xtime_left (a c : Byte) : gmul (xtime a) c = xtime (gmul a c) :=
  gmulLoop_xtime c 8 0 a 0#8

@[simp] theorem gmul_zero_left (c : Byte) : gmul 0#8 c = 0#8 := by
  simpa using gmul_xor_left 0#8 0#8 c

@[simp] theorem gmul_zero_right (a : Byte) : gmul a 0#8 = 0#8 := by
  simpa using gmul_xor_right a 0#8 0#8

@[simp] theorem gmul_one_left (c : Byte) : gmul 1#8 c = c := by
  decide +revert +kernel

@[simp] theorem gmul_one_right (a : Byte) : gmul a 1#8 = a := by
  induction a using byte_induction with
  | zero => rfl
  | one => rfl
  | xor a b iha ihb => rw [gmul_xor_left, iha, ihb]
  | double a ih => rw [gmul_xtime_left, ih]

theorem gmul_xtime_right (a c : Byte) : gmul a (xtime c) = xtime (gmul a c) := by
  induction a using byte_induction with
  | zero => rw [gmul_zero_left, gmul_zero_left, xtime_zero]
  | one => rw [gmul_one_left, gmul_one_left]
  | xor a b iha ihb => simp only [gmul_xor_left, xtime_xor, iha, ihb]
  | double a ih => simp only [gmul_xtime_left, ih]

theorem gmul_comm (a c : Byte) : gmul a c = gmul c a := by
  induction a using byte_induction generalizing c with
  | zero => simp only [gmul_zero_left, gmul_zero_right]
  | one => rw [gmul_one_left, gmul_one_right]
  | xor a b iha ihb => simp only [gmul_xor_left, gmul_xor_right, iha, ihb]
  | double a ih => simp only [gmul_xtime_left, gmul_xtime_right, ih]

theorem gmul_assoc (a b c : Byte) : gmul (gmul a b) c = gmul a (gmul b c) := by
  induction a using byte_induction with
  | zero => simp only [gmul_zero_left]
  | one => rw [gmul_one_left, gmul_one_left]
  | xor a a' iha iha' => simp only [gmul_xor_left, iha, iha']
  | double a ih => simp only [gmul_xtime_left, ih]

/-- Settles O8: each constant is a sum of doubles of `0x01`, and a product takes the same sum of doubles of its other
operand. -/
theorem fieldMultiplication : Obligations.FieldMultiplication := by
  refine ⟨fun a => ?_, gmul_comm, gmul_xor_left⟩
  have h02 : (0x02 : Byte) = xtime 1#8 := by decide
  have h03 : (0x03 : Byte) = xtime 1#8 ^^^ 1#8 := by decide
  have h09 : (0x09 : Byte) = xtime (xtime (xtime 1#8)) ^^^ 1#8 := by decide
  have h0B : (0x0B : Byte) = xtime (xtime (xtime 1#8)) ^^^ xtime 1#8 ^^^ 1#8 := by decide
  have h0D : (0x0D : Byte) = xtime (xtime (xtime 1#8)) ^^^ xtime (xtime 1#8) ^^^ 1#8 := by decide
  have h0E : (0x0E : Byte) = xtime (xtime (xtime 1#8)) ^^^ xtime (xtime 1#8) ^^^ xtime 1#8 := by decide
  rw [h02, h03, h09, h0B, h0D, h0E]
  simp [gmul_xor_right, gmul_xtime_right]

end Sys2Proof.Machine
end

section
/-!
SUPPORT. The round transforms byte by byte and column by column: the substitutions act on values, the rotations on
positions, and the column mixes are products by two polynomials that are inverse modulo `x^4 + 1` (R126 to R132).
Settles O9 and O10.
-/

namespace Sys2Proof.Machine

/-! ## The substitutions (R126, R130) -/

/-- Settles O9, entry by entry. -/
theorem substitutionTablesInvert : Obligations.SubstitutionTablesInvert := by
  unfold Obligations.SubstitutionTablesInvert
  decide +kernel

theorem invSbox_sbox (a : Byte) : invSbox (sbox a) = a := (substitutionTablesInvert a).1

theorem sbox_invSbox (a : Byte) : sbox (invSbox a) = a := (substitutionTablesInvert a).2

@[simp] theorem getElem_subBytes (S : Block) (k : Nat) (hk : k < 16) : (subBytes S)[k] = sbox S[k] :=
  Vector.getElem_ofFn hk

@[simp] theorem getElem_invSubBytes (S : Block) (k : Nat) (hk : k < 16) : (invSubBytes S)[k] = invSbox S[k] :=
  Vector.getElem_ofFn hk

theorem invSubBytes_subBytes (S : Block) : invSubBytes (subBytes S) = S :=
  Vector.ext fun k hk => by rw [getElem_invSubBytes, getElem_subBytes, invSbox_sbox]

theorem subBytes_invSubBytes (S : Block) : subBytes (invSubBytes S) = S :=
  Vector.ext fun k hk => by rw [getElem_subBytes, getElem_invSubBytes, sbox_invSbox]

/-! ## The rotations (R127, R131) -/

@[simp] theorem getElem_shiftRows (S : Block) (k : Nat) (hk : k < 16) :
    (shiftRows S)[k] = S[k % 4 + 4 * ((k / 4 + k % 4) % 4)] :=
  Vector.getElem_ofFn hk

@[simp] theorem getElem_invShiftRows (S : Block) (k : Nat) (hk : k < 16) :
    (invShiftRows S)[k] = S[k % 4 + 4 * ((k / 4 + 4 - k % 4) % 4)] :=
  Vector.getElem_ofFn hk

theorem invShiftRows_shiftRows (S : Block) : invShiftRows (shiftRows S) = S := by
  refine Vector.ext fun k hk => ?_
  rw [getElem_invShiftRows, getElem_shiftRows]
  congr 1
  omega

theorem shiftRows_invShiftRows (S : Block) : shiftRows (invShiftRows S) = S := by
  refine Vector.ext fun k hk => ?_
  rw [getElem_shiftRows, getElem_invShiftRows]
  congr 1
  omega

/-- One acts on byte values, the other on byte positions (R134). -/
theorem subBytes_shiftRows (S : Block) : subBytes (shiftRows S) = shiftRows (subBytes S) :=
  Vector.ext fun k hk => by simp only [getElem_subBytes, getElem_shiftRows]

theorem invSubBytes_invShiftRows (S : Block) : invSubBytes (invShiftRows S) = invShiftRows (invSubBytes S) :=
  Vector.ext fun k hk => by simp only [getElem_invSubBytes, getElem_invShiftRows]

/-! ## The product of a column and a polynomial -/

/-- The column `a`, read as a polynomial with coefficients `a[0]` to `a[3]`, times `m`, modulo `x^4 + 1`: the circulant
matrix of R128 and R132 whose first column is `m`, applied to `a`. -/
def mulColumn (a m : CWord) : CWord :=
  #v[gmul a[0] m[0] ^^^ gmul a[1] m[3] ^^^ gmul a[2] m[2] ^^^ gmul a[3] m[1],
     gmul a[0] m[1] ^^^ gmul a[1] m[0] ^^^ gmul a[2] m[3] ^^^ gmul a[3] m[2],
     gmul a[0] m[2] ^^^ gmul a[1] m[1] ^^^ gmul a[2] m[0] ^^^ gmul a[3] m[3],
     gmul a[0] m[3] ^^^ gmul a[1] m[2] ^^^ gmul a[2] m[1] ^^^ gmul a[3] m[0]]

/-- The polynomial of `MIX_COLUMNS` (R128). -/
def mixPoly : CWord := #v[0x02, 0x01, 0x01, 0x03]

/-- The polynomial of `INV_MIX_COLUMNS` (R132). -/
def invMixPoly : CWord := #v[0x0E, 0x09, 0x0D, 0x0B]

theorem mixColumn_eq_mulColumn (a : CWord) : mixColumn a = mulColumn a mixPoly := by
  simp [mixColumn, mulColumn, mixPoly]

theorem invMixColumn_eq_mulColumn (a : CWord) : invMixColumn a = mulColumn a invMixPoly := rfl

theorem mulColumn_one (a : CWord) : mulColumn a #v[1#8, 0#8, 0#8, 0#8] = a := by
  refine Vector.ext fun k hk => ?_
  interval_cases k <;> simp [mulColumn]

/-- Either way a row is the sum of sixteen products of three factors. -/
theorem mulColumn_assoc (a m n : CWord) : mulColumn (mulColumn a m) n = mulColumn a (mulColumn m n) := by
  simp only [mulColumn, Vector.getElem_mk, List.getElem_toArray, List.getElem_cons_zero, List.getElem_cons_succ,
    gmul_xor_left, gmul_xor_right, gmul_assoc]
  ac_rfl

theorem mixPoly_mul_invMixPoly : mulColumn mixPoly invMixPoly = #v[1#8, 0#8, 0#8, 0#8] := by decide

theorem invMixPoly_mul_mixPoly : mulColumn invMixPoly mixPoly = #v[1#8, 0#8, 0#8, 0#8] := by decide

theorem invMixColumn_mixColumn (a : CWord) : invMixColumn (mixColumn a) = a := by
  rw [invMixColumn_eq_mulColumn, mixColumn_eq_mulColumn, mulColumn_assoc, mixPoly_mul_invMixPoly, mulColumn_one]

theorem mixColumn_invMixColumn (a : CWord) : mixColumn (invMixColumn a) = a := by
  rw [invMixColumn_eq_mulColumn, mixColumn_eq_mulColumn, mulColumn_assoc, invMixPoly_mul_mixPoly, mulColumn_one]

/-! ## The column mixes (R128, R132) -/

theorem column_ofColumns (f : Fin 4 → CWord) (c : Fin 4) : column (ofColumns f) c = f c := by
  refine Vector.ext fun r hr => ?_
  have hq : (4 * c.val + r) / 4 = c.val := by omega
  have hm : (4 * c.val + r) % 4 = r := by omega
  simp only [column, ofColumns, Vector.getElem_ofFn, hq, hm]

theorem ofColumns_column (S : Block) : ofColumns (column S) = S := by
  refine Vector.ext fun k hk => ?_
  simp [ofColumns, column, Nat.div_add_mod]

theorem invMixColumns_mixColumns (S : Block) : invMixColumns (mixColumns S) = S := by
  simp only [invMixColumns, mixColumns, column_ofColumns, invMixColumn_mixColumn, ofColumns_column]

theorem mixColumns_invMixColumns (S : Block) : mixColumns (invMixColumns S) = S := by
  simp only [invMixColumns, mixColumns, column_ofColumns, mixColumn_invMixColumn, ofColumns_column]

/-! ## The round keys (R129) -/

theorem addRoundKey_twice (W : Vector CWord 60) (r : Nat) (S : Block) : addRoundKey W r (addRoundKey W r S) = S := by
  refine Vector.ext fun k hk => ?_
  simp [addRoundKey]

/-- Settles O10, one transform at a time. -/
theorem roundTransformsInvert : Obligations.RoundTransformsInvert := fun S W r =>
  ⟨invSubBytes_subBytes S, subBytes_invSubBytes S, invShiftRows_shiftRows S, shiftRows_invShiftRows S,
    invMixColumns_mixColumns S, mixColumns_invMixColumns S, addRoundKey_twice W r S, subBytes_shiftRows S,
    invSubBytes_invShiftRows S⟩

end Sys2Proof.Machine
end

section
/-!
SUPPORT. The block transforms undo each other (R154). A round of one is not the inverse of the same round of the other,
since they take the four transforms in different orders: it is so only with the substitution and the rotation of the
next round in between. The loops cancel in that form, from the round where they meet outwards. Settles O11.
-/

namespace Sys2Proof.Machine

/-- Two loops that take one list in opposite orders cancel, where a pass of the second undoes a pass of the first across
`between`. -/
theorem foldl_reverse_foldl_of_undo {σ ρ : Type} {first second : σ → ρ → σ} {between : σ → σ}
    (hundo : ∀ s r, second (between (first s r)) r = between s) (l : List ρ) (s : σ) :
    l.reverse.foldl second (between (l.foldl first s)) = between s := by
  induction l generalizing s with
  | nil => rfl
  | cons r rs ih => rw [List.foldl_cons, List.reverse_cons, List.foldl_append, ih, List.foldl_cons, hundo, List.foldl_nil]

section
variable (W : Vector CWord 60)

/-! ## One round -/

theorem decRound_subst_encRound (S : Block) (r : Nat) :
    decRound W ((shiftRows ∘ subBytes) (encRound W S r)) r = (shiftRows ∘ subBytes) S := by
  simp only [Function.comp_apply, decRound, encRound, invShiftRows_shiftRows, invSubBytes_subBytes, addRoundKey_twice,
    invMixColumns_mixColumns]

theorem encRound_invSubst_decRound (S : Block) (r : Nat) :
    encRound W ((invSubBytes ∘ invShiftRows) (decRound W S r)) r = (invSubBytes ∘ invShiftRows) S := by
  simp only [Function.comp_apply, encRound, decRound, subBytes_invSubBytes, shiftRows_invShiftRows,
    mixColumns_invMixColumns, addRoundKey_twice]

/-! ## All rounds, under any schedule -/

theorem decRounds_subst_encRounds (l : List Nat) (S : Block) :
    l.reverse.foldl (decRound W) (shiftRows (subBytes (l.foldl (encRound W) S))) = shiftRows (subBytes S) :=
  foldl_reverse_foldl_of_undo (decRound_subst_encRound W) l S

theorem encRounds_invSubst_decRounds (l : List Nat) (S : Block) :
    l.foldl (encRound W) (invSubBytes (invShiftRows (l.reverse.foldl (decRound W) S))) =
      invSubBytes (invShiftRows S) := by
  have h := foldl_reverse_foldl_of_undo (encRound_invSubst_decRound W) l.reverse S
  rwa [List.reverse_reverse] at h

theorem decBlock_encBlock (nr : Nat) (B : Block) : decBlock W nr (encBlock W nr B) = B := by
  rw [decBlock, encBlock, addRoundKey_twice, decRounds_subst_encRounds, invShiftRows_shiftRows, invSubBytes_subBytes,
    addRoundKey_twice]

theorem encBlock_decBlock (nr : Nat) (B : Block) : encBlock W nr (decBlock W nr B) = B := by
  rw [encBlock, decBlock, addRoundKey_twice, encRounds_invSubst_decRounds, subBytes_invSubBytes, shiftRows_invShiftRows,
    addRoundKey_twice]

end

/-- Settles O11: the two transforms undo each other under any schedule and any number of rounds. -/
theorem blockTransformsInvert : Obligations.BlockTransformsInvert := fun key _ v B _ =>
  ⟨decBlock_encBlock (expandKey key v) v.nr B, encBlock_decBlock (expandKey key v) v.nr B⟩

end Sys2Proof.Machine
end

section
/-!
SUPPORT. The four cipher commands on an idle unit, from `exec` to the whole next state: a failed check refuses, passed
checks complete with BUF as the block loop makes it. Settles O13 to O17 and O24.
-/

namespace Sys2Proof.Machine

/-! ## The checks (R161) -/

theorem variantOf_eq_none_iff (x : Half) : variantOf x = none ↔ x.toNat ∉ [128, 192, 256] := by
  simp [Option.eq_none_iff_forall_ne_some, variantOf_eq_some_iff, forall_and]

theorem exists_variantOf {x : Half} (h : x.toNat ∈ [128, 192, 256]) : ∃ v, variantOf x = some v :=
  Option.ne_none_iff_exists'.mp fun hnone => (variantOf_eq_none_iff x).mp hnone h

section
variable {p : Params} {u : CeUnit} {v : Variant}

theorem cipherChecks_of_variant_none (hv : variantOf u.variant = none) : cipherChecks p u = .error .variant := by
  simp only [cipherChecks, hv]

theorem cipherChecks_of_length (hv : variantOf u.variant = some v) (hl : u.len.toNat % 16 ≠ 0) :
    cipherChecks p u = .error .length := by
  simp only [cipherChecks, hv, if_pos hl]

theorem cipherChecks_of_range (hv : variantOf u.variant = some v) (hl : u.len.toNat % 16 = 0)
    (hout : p.bufSize.val < u.src.toNat + u.len.toNat ∨ p.bufSize.val < u.dst.toNat + u.len.toNat) :
    cipherChecks p u = .error .range := by
  have hr : ¬(inRange u.src u.len p.bufSize.val && inRange u.dst u.len p.bufSize.val) = true := by
    simp only [inRange, Bool.and_eq_true, decide_eq_true_eq]
    omega
  simp only [cipherChecks, hv, if_neg (not_not_intro hl), if_neg hr]

theorem cipherChecks_of_passed (hv : variantOf u.variant = some v) (hl : u.len.toNat % 16 = 0)
    (hs : u.src.toNat + u.len.toNat ≤ p.bufSize.val) (hd : u.dst.toNat + u.len.toNat ≤ p.bufSize.val) :
    cipherChecks p u = .ok v := by
  simp [cipherChecks, hv, hl, inRange, hs, hd]

end

/-! ## The four commands -/

/-- The commands of R163 to R169 on cipher unit `k`. -/
def cipherCommands (k : Nat) : List Instr := [.ecbEnc k, .ecbDec k, .cbcEnc k, .cbcDec k]

/-- What a cipher command makes of `CHAIN` and one block, from the schedule and the number of rounds. The other commands
have no block loop; here they copy. -/
def blockXf : Instr → Vector CWord 60 → Nat → Block → Block → Block × Block
  | .ecbEnc _ => ecbEncXf
  | .ecbDec _ => ecbDecXf
  | .cbcEnc _ => cbcEncXf
  | .cbcDec _ => cbcDecXf
  | _ => fun _ _ ch b => (b, ch)

@[simp] theorem mem_cipherCommands {k : Nat} {i : Instr} :
    i ∈ cipherCommands k ↔ i = .ecbEnc k ∨ i = .ecbDec k ∨ i = .cbcEnc k ∨ i = .cbcDec k := by
  simp [cipherCommands]

/-- A cipher command on an idle unit accepts and runs. -/
theorem exec_cipher_idle {s : State} {k : Nat} {u : CeUnit} {i : Instr} (hi : i ∈ cipherCommands k)
    (hu : s.ces[k]? = some u) (hidle : u.idleClear) :
    exec i s = .next (s.setCe k (ceRun s.params k s.pace (u.accept (codeOf i)))) := by
  rw [exec_ce (soloLapse_cipher (List.mem_append_left [.genIv k] hi)), issueCe_setCe _ hu, hidle.1]
  rfl

/-- A check that fails is the command's only step (R161, R262, R264). -/
theorem exec_cipher_refused {s : State} {k : Nat} {u : CeUnit} {e : ErrCode} {i : Instr} (hi : i ∈ cipherCommands k)
    (hu : s.ces[k]? = some u) (hidle : u.idleClear) (hpace : 1 ≤ s.pace) (hchk : cipherChecks s.params u = .error e) :
    exec i s = .next (s.setCe k (u.refused e)) := by
  have hrun {m : CipherOps} {c : Byte} (hm : RunsOps m s.params k c) :
      ceRun s.params k s.pace (u.accept c) = u.refused e :=
    ceRun_cipher_refused hm u hidle e (cipherChecks_error hchk) hchk s.pace hpace
  rw [exec_cipher_idle hi hu hidle]
  congr 2
  rcases mem_cipherCommands.mp hi with rfl | rfl | rfl | rfl
  · exact hrun (runsOps_ecbEnc _ _)
  · exact hrun (runsOps_ecbDec _ _)
  · exact hrun (runsOps_cbcEnc _ _)
  · exact hrun (runsOps_cbcDec _ _)

/-- With the checks passed and the steps it needs, the command completes (R163 to R169, R173). -/
theorem exec_cipher_passed {s : State} {k : Nat} {u : CeUnit} {v : Variant} {i : Instr} (hi : i ∈ cipherCommands k)
    (hu : s.ces[k]? = some u) (hidle : u.idleClear) (hchk : cipherChecks s.params u = .ok v)
    (hpace : u.len.toNat + 64 ≤ s.pace) :
    exec i s =
      .next (s.setCe k (u.succeeded u.len (cipherBuffer (blockXf i (expandKey u.key v) v.nr) k u))) := by
  rw [exec_cipher_idle hi hu hidle]
  congr 2
  rcases mem_cipherCommands.mp hi with rfl | rfl | rfl | rfl
  · exact ceRun_ecbEnc _ _ _ hidle _ hchk _ hpace
  · exact ceRun_ecbDec _ _ _ hidle _ hchk _ hpace
  · exact ceRun_cbcEnc _ _ _ hidle _ hchk _ hpace
  · exact ceRun_cbcDec _ _ _ hidle _ hchk _ hpace

/-- Settles O13: each failing check, when those before it pass. -/
theorem cipherRefusals : Obligations.CipherRefusals := by
  intro s k u i hi hu hidle hpace
  have hrefused {e : ErrCode} (h : cipherChecks s.params u = .error e) := exec_cipher_refused hi hu hidle hpace h
  refine ⟨fun hv => ?_, fun hv hl => ?_, fun hv hl hout => ?_⟩
  · exact hrefused (cipherChecks_of_variant_none ((variantOf_eq_none_iff _).mpr hv))
  · obtain ⟨v, hv⟩ := exists_variantOf hv
    exact hrefused (cipherChecks_of_length hv hl)
  · obtain ⟨v, hv⟩ := exists_variantOf hv
    exact hrefused (cipherChecks_of_range hv hl hout)

/-- Settles O14: `ECB_ENC` in the common shape of R160. -/
theorem ecbEncResult : Obligations.EcbEncResult := fun _ k _ _ hu hidle hv hl hs hd hpace =>
  exec_cipher_passed (i := .ecbEnc k) (by simp) hu hidle (cipherChecks_of_passed hv hl hs hd) hpace

/-- Settles O15: `ECB_DEC` in the common shape of R160. -/
theorem ecbDecResult : Obligations.EcbDecResult := fun _ k _ _ hu hidle hv hl hs hd hpace =>
  exec_cipher_passed (i := .ecbDec k) (by simp) hu hidle (cipherChecks_of_passed hv hl hs hd) hpace

/-- Settles O16: `CBC_ENC` in the common shape of R160; the first `CHAIN` is `CE_IV`. -/
theorem cbcEncResult : Obligations.CbcEncResult := fun _ k _ _ hu hidle hv hl hs hd hpace =>
  exec_cipher_passed (i := .cbcEnc k) (by simp) hu hidle (cipherChecks_of_passed hv hl hs hd) hpace

/-- Settles O17: `CBC_DEC` in the common shape of R160; the first `CHAIN` is `CE_IV`. -/
theorem cbcDecResult : Obligations.CbcDecResult := fun _ k _ _ hu hidle hv hl hs hd hpace =>
  exec_cipher_passed (i := .cbcDec k) (by simp) hu hidle (cipherChecks_of_passed hv hl hs hd) hpace

/-- An operand of no bytes has no block to transform (R174). -/
theorem cipherBuffer_of_len_zero (xf : Block → Block → Block × Block) (k : Nat) {u : CeUnit} (h : u.len = 0) :
    cipherBuffer xf k u = u.buf := by
  rw [cipherBuffer, h]
  rfl

/-- Settles O24: 0 is a multiple of 16, and the block loop makes no pass. -/
theorem zeroLengthCipher : Obligations.ZeroLengthCipher := by
  intro s k u i hi hu hidle hlen hpace
  have hlen0 : u.len.toNat = 0 := by rw [hlen]; rfl
  refine ⟨fun hv hs hd => ?_, fun hv => ?_⟩
  · obtain ⟨v, hv⟩ := exists_variantOf hv
    have hchk : cipherChecks s.params u = .ok v := by apply cipherChecks_of_passed hv <;> omega
    rw [exec_cipher_passed hi hu hidle hchk (by omega), cipherBuffer_of_len_zero _ _ hlen, hlen]
  · exact exec_cipher_refused hi hu hidle (by omega)
      (cipherChecks_of_variant_none ((variantOf_eq_none_iff _).mpr hv))

end Sys2Proof.Machine
end

section
/-!
SUPPORT. A decryption of what an encryption left gives the source back: block by block, then byte by byte, then as two
commands with HOST's writes in between. Settles O22 and O23.
-/

namespace Sys2Proof.Machine

/-! ## One block -/

/-- `dec` takes the block that `enc` wrote back to the block that `enc` read, and leaves the same `CHAIN`. -/
def Undoes (dec enc : Block → Block → Block × Block) : Prop := ∀ ch b, dec ch (enc ch b).1 = (b, (enc ch b).2)

theorem xorBlock_twice (a b : Block) : xorBlock (xorBlock a b) b = a := by
  refine Vector.ext fun k hk => ?_
  simp [xorBlock]

theorem ecbDecXf_undoes (W : Vector CWord 60) (nr : Nat) : Undoes (ecbDecXf W nr) (ecbEncXf W nr) := fun ch b => by
  rw [ecbEncXf, ecbDecXf, decBlock_encBlock]

theorem cbcDecXf_undoes (W : Vector CWord 60) (nr : Nat) : Undoes (cbcDecXf W nr) (cbcEncXf W nr) := fun ch b => by
  rw [cbcEncXf, cbcDecXf, decBlock_encBlock, xorBlock_twice]

/-! ## A buffer, block by block -/

section
variable {enc dec : Block → Block → Block × Block}

/-- Over the blocks that `enc` wrote, `dec` has before each the `CHAIN` that `enc` had. -/
theorem chainBefore_of_undoes (hundo : Undoes dec enc) {inp out : Nat → Block} {iv : Block} {j : Nat}
    (hout : ∀ l, l < j → out l = (enc (chainBefore enc inp iv l) (inp l)).1) :
    chainBefore dec out iv j = chainBefore enc inp iv j := by
  induction j with
  | zero => rfl
  | succ j ih =>
    rw [chainBefore, ih fun l hl => hout l (Nat.lt_succ_of_lt hl), hout j (Nat.lt_succ_self j), hundo]
    rfl

theorem bufferLoop_wf (xf : Block → Block → Block × Block) (sp : Space) (src dst n off : Nat) (ch : Block) {m : Memory}
    (h : m.wf) : (bufferLoop xf sp src dst n off ch m).wf := by
  induction n generalizing off ch m with
  | zero => exact h
  | succ n ih => exact ih _ _ (writeBytes_wf h _ _)

/-- Two ranges of `n` bytes that are one range, or have no byte in common (R73, R74). -/
def EqualOrDisjoint (a b n : Word) : Prop := a = b ∨ a.toNat + n.toNat ≤ b.toNat ∨ b.toNat + n.toNat ≤ a.toNat

/-- The unit on which HOST starts the second command: the first is complete, and HOST has written `CE_SRC` and
`CE_DST`. -/
def CeUnit.redirected (enc : Block → Block → Block × Block) (k : Nat) (u : CeUnit) (d2 : Word) : CeUnit :=
  { u.succeeded u.len (cipherBuffer enc k u) with src := u.dst, dst := d2 }

theorem readBlock_roundTrip (hundo : Undoes dec enc) (k : Nat) {u : CeUnit} {d2 : Word} (hwf : u.buf.wf)
    (h1 : EqualOrDisjoint u.src u.dst u.len) (h2 : EqualOrDisjoint u.dst d2 u.len) {j : Nat}
    (hj : j < u.len.toNat / 16) :
    readBlock (.buf k) (cipherBuffer dec k (u.redirected enc k d2)) (d2.toNat + 16 * j) = u.sourceBlock k j := by
  have hread : ∀ l, l < u.len.toNat / 16 → (u.redirected enc k d2).sourceBlock k l =
      (enc (chainBefore enc (u.sourceBlock k) u.iv l) (u.sourceBlock k l)).1 :=
    fun _ hl => readBlock_cipherBuffer enc k hwf h1 hl
  have hchain : chainBefore dec ((u.redirected enc k d2).sourceBlock k) u.iv j =
      chainBefore enc (u.sourceBlock k) u.iv j :=
    chainBefore_of_undoes hundo fun l hl => hread l (hl.trans hj)
  have hwritten := readBlock_cipherBuffer dec k (u := u.redirected enc k d2) (bufferLoop_wf _ _ _ _ _ _ _ hwf) h2 hj
  calc readBlock (.buf k) (cipherBuffer dec k (u.redirected enc k d2)) (d2.toNat + 16 * j)
      = (dec (chainBefore dec ((u.redirected enc k d2).sourceBlock k) u.iv j)
          ((u.redirected enc k d2).sourceBlock k j)).1 := hwritten
    _ = (dec (chainBefore enc (u.sourceBlock k) u.iv j)
          (enc (chainBefore enc (u.sourceBlock k) u.iv j) (u.sourceBlock k j)).1).1 := by rw [hchain, hread j hj]
    _ = u.sourceBlock k j := by rw [hundo]

end

/-! ## Byte by byte -/

theorem byteAt_eq_readBlock (sp : Space) (m : Memory) (a j : Nat) :
    byteAt sp m (a + j) = (readBlock sp m (a + 16 * (j / 16)))[j % 16] := by
  simp only [readBlock, Vector.getElem_ofFn, Nat.add_assoc, Nat.div_add_mod]

/-- The last block is whole, so every byte of the operand is in a block. -/
theorem byteAt_roundTrip {enc dec : Block → Block → Block × Block} (hundo : Undoes dec enc) (k : Nat) {u : CeUnit}
    {d2 : Word} (hwf : u.buf.wf) (hl : u.len.toNat % 16 = 0) (h1 : EqualOrDisjoint u.src u.dst u.len)
    (h2 : EqualOrDisjoint u.dst d2 u.len) {j : Nat} (hj : j < u.len.toNat) :
    byteAt (.buf k) (cipherBuffer dec k (u.redirected enc k d2)) (d2.toNat + j) =
      byteAt (.buf k) u.buf (u.src.toNat + j) := by
  have hblock : j / 16 < u.len.toNat / 16 := by omega
  rw [byteAt_eq_readBlock, byteAt_eq_readBlock, readBlock_roundTrip hundo k hwf h1 h2 hblock]
  rfl

/-! ## Two commands -/

theorem idleClear_redirected {u : CeUnit} (h : u.idleClear) (enc : Block → Block → Block × Block) (k : Nat)
    (d2 : Word) : (u.redirected enc k d2).idleClear :=
  ⟨rfl, h.2⟩

theorem setCe_getElem? {s : State} {k : Nat} {u : CeUnit} (h : s.ces[k]? = some u) (w : CeUnit) :
    (s.setCe k w).ces[k]? = some w :=
  List.getElem?_set_self (List.getElem?_eq_some_iff.mp h).1

/-- One cipher command and then, from its destination to `d2`, another that undoes it block by block: both complete, and
the bytes at `d2` are those that were at the source. -/
theorem exec_roundTrip {enc dec : Instr} {s : State} {k : Nat} {u : CeUnit} {v : Variant} {d2 : Word}
    (henc : enc ∈ cipherCommands k) (hdec : dec ∈ cipherCommands k)
    (hundo : ∀ W nr, Undoes (blockXf dec W nr) (blockXf enc W nr)) (hu : s.ces[k]? = some u) (hidle : u.idleClear)
    (hwf : u.buf.wf) (hchk : cipherChecks s.params u = .ok v) (hd2 : d2.toNat + u.len.toNat ≤ s.params.bufSize.val)
    (hpace : u.len.toNat + 64 ≤ s.pace) (h1 : EqualOrDisjoint u.src u.dst u.len) (h2 : EqualOrDisjoint u.dst d2 u.len) :
    ∃ (t t' : State) (w w' : CeUnit), exec enc s = .next t ∧ t.ces[k]? = some w ∧
      exec dec (t.setCe k { w with src := u.dst, dst := d2 }) = .next t' ∧ t'.ces[k]? = some w' ∧
      w'.err = .success ∧ w'.flags.done = true ∧ w'.result = u.len ∧
      ∀ j, j < u.len.toNat → byteAt (.buf k) w'.buf (d2.toNat + j) = byteAt (.buf k) u.buf (u.src.toNat + j) := by
  obtain ⟨hv, hl, -, hd⟩ := cipherChecks_ok hchk
  have hfirst := setCe_getElem? hu (u.succeeded u.len (cipherBuffer (blockXf enc (expandKey u.key v) v.nr) k u))
  have hsecond := setCe_getElem? hfirst (u.redirected (blockXf enc (expandKey u.key v) v.nr) k d2)
  have hchk2 : cipherChecks s.params (u.redirected (blockXf enc (expandKey u.key v) v.nr) k d2) = .ok v :=
    cipherChecks_of_passed hv hl hd hd2
  exact ⟨_, _, _, _, exec_cipher_passed henc hu hidle hchk hpace, hfirst,
    exec_cipher_passed hdec hsecond (idleClear_redirected hidle _ k d2) hchk2 hpace, setCe_getElem? hsecond _, rfl, rfl,
    rfl, fun _ hj => byteAt_roundTrip (hundo _ _) k hwf hl h1 h2 hj⟩

/-- Settles O22: decryption undoes encryption block by block, and `CHAIN` is not used. -/
theorem ecbRoundTrip : Obligations.EcbRoundTrip := fun _ _ _ _ _ hu hidle hwf hv hl hs hd hd2 hpace h1 h2 =>
  exec_roundTrip (by simp) (by simp) ecbDecXf_undoes hu hidle hwf (cipherChecks_of_passed hv hl hs hd) hd2 hpace h1 h2

/-- Settles O23: decryption undoes encryption block by block from the same `CHAIN`, and both begin with `CE_IV`. -/
theorem cbcRoundTrip : Obligations.CbcRoundTrip := fun _ _ _ _ _ hu hidle hwf hv hl hs hd hd2 hpace h1 h2 =>
  exec_roundTrip (by simp) (by simp) cbcDecXf_undoes hu hidle hwf (cipherChecks_of_passed hv hl hs hd) hd2 hpace h1 h2

end Sys2Proof.Machine
end

section
/-!
SUPPORT. With the status port not connected a bootloader command hands out no message (R186): the field `quiet` of the frame
of a run, from the step on that latches `STATUS_EN`. Settles O48.
-/

namespace Sys2Proof.Machine

/-- A command that the status port's bit of its accept step keeps quiet. -/
theorem messages_of_quiet {s t : State} {i : Instr} (hs : soloLapse i = .lapseBs) (hb : s.bs.flags.busy = false)
    (ht : exec i s = .next t) (hq : (bsStart s.params i (s.bs.accept (codeOf i))).quiet (codeOf i)) :
    t.env.messages = s.env.messages :=
  ((exec_bs_frame hs hb ht).quiet hq).2

/-- `DEV_LOAD` past its guard is quiet when `BS_CTRL` says so: it has relatched the bit (R43). -/
theorem loadStart_quiet {b : BsUnit} (h : statusEn b.ctrl = false) : (loadStart b).quiet 0x15 :=
  ⟨(statusEn_relatch b.sCtrl b.ctrl).trans h, fun _ => h⟩

/-- `DEV_LOAD` hands out nothing in its accept step, when its guard refuses, and, quiet, after its guard has passed. -/
theorem devLoad_messages {s t : State} (hb : s.bs.flags.busy = false) (ht : exec .devLoad s = .next t)
    (hctrl : statusEn s.bs.ctrl = false) : t.env.messages = s.env.messages := by
  cases hn : s.pace with
  | zero =>
    rw [exec_bs_idle rfl hb, hn] at ht
    cases ht
    rfl
  | succ n =>
    by_cases hst : s.bs.state = .bootModeConfirmed
    · rw [exec_devLoad hb hst hn] at ht
      cases ht
      have hrun := (bsRun_frame s.params s.fwb s.img n (c := 0x15) (loadStart s.bs, s.env) fun _ => ⟨rfl, rfl⟩).1
      exact (hrun.quiet (loadStart_quiet hctrl)).2
    · rw [exec_bs_refused (i := .devLoad) (r := .state) rfl nofun hb (by omega) nofun (if_neg hst)] at ht
      cases ht
      rfl

/-- Settles O48: each command's frame begins quiet, `DEV_LOAD`'s once its guard has passed. -/
theorem statusPortGated : Obligations.StatusPortGated := by
  intro s t i hb ht
  refine ⟨fun hi hsctrl => ?_, ?_⟩
  · simp only [List.mem_cons, List.not_mem_nil, or_false] at hi
    rcases hi with rfl | rfl | rfl | rfl <;> exact messages_of_quiet rfl hb ht ⟨hsctrl, nofun⟩
  · rintro (rfl | rfl) hctrl
    · exact messages_of_quiet rfl hb ht ⟨hctrl, nofun⟩
    · exact devLoad_messages hb ht hctrl

end Sys2Proof.Machine
end

section
/-!
SUPPORT. The iterations of the response wait: what it makes of a poll that finds nothing, of a failing receive, of a
foreign event and of the answer, and the deadline test after the first three (R182 to R185). Settles O41 and O42.
-/

namespace Sys2Proof.Machine

/-! ## The deadline test -/

/-- `raise E`, whether or not a further command has set `OVR` meanwhile. -/
theorem raise_report (r : ErrCode) (hr : r ≠ .success) (b : BsUnit) (e : Env) :
    BsWorld.raise r (b, e) =
      ({ b.raised r with flags := { busy := false, done := true, err := true, ovr := b.flags.ovr } },
        e.withMessages b.sCtrl [(milestone, .failed)]) := by
  simp [BsWorld.raise, status_eq, BsUnit.finish, Flags.complete, BsUnit.raised, BsUnit.refused, hr]

/-- The elapsed time does not exceed `S_TIMEOUT`: the wait goes on (R184). -/
theorem deadlineTest_within {b : BsUnit} {e : Env} {d : Word} {ds : List Word} (ht : e.ticks = d :: ds)
    (h : ¬b.sTimeout.toNat < (e.timer + d - b.deadlineT0).toNat) :
    deadlineTest (b, e) = (b, { e with timer := e.timer + d, ticks := ds }) := by
  simp only [deadlineTest, now_cons ht, if_neg h]

/-- The elapsed time exceeds `S_TIMEOUT` (R184). -/
theorem deadlineTest_past {b : BsUnit} {e : Env} {d : Word} {ds : List Word} (ht : e.ticks = d :: ds)
    (h : b.sTimeout.toNat < (e.timer + d - b.deadlineT0).toNat) :
    deadlineTest (b, e) = BsWorld.raise .timeout (b, { e with timer := e.timer + d, ticks := ds }) := by
  simp only [deadlineTest, now_cons ht, if_pos h]

/-- `S_TIMEOUT = 0xFFFFFFFF` is never exceeded: `elapsed` has 32 bits. -/
theorem deadlineTest_forever {b : BsUnit} (e : Env) (h : b.sTimeout = 0xFFFFFFFF) :
    deadlineTest (b, e) = (b, e.now.2) := by
  have hmax : ¬b.sTimeout.toNat < (e.now.1 - b.deadlineT0).toNat := by
    have hlt := (e.now.1 - b.deadlineT0).isLt
    have hval : b.sTimeout.toNat = 2 ^ 32 - 1 := by rw [h]; rfl
    omega
  simp only [deadlineTest, if_neg hmax]

/-! ## One iteration -/

/-- The event is not an answer to the request a wait is for: its class, its GUID or its type is another (R183). -/
def ForeignEvent (p : Params) (a : Await) (g : Guid) (f : Event) : Prop :=
  f.cls ≠ p.classProtocol ∨ f.guid ≠ g ∨ (f.typ ≠ ackType p a ∧ f.typ ≠ nackType p a)

theorem classify_foreign {p : Params} {a : Await} {g : Guid} {f : Event} (h : ForeignEvent p a g f) :
    classify p a g f = .dropped := by
  unfold classify
  by_cases hnode : f.cls = p.classProtocol ∧ f.guid = g
  · obtain ⟨hack, hnack⟩ := (h.resolve_left (not_not_intro hnode.1)).resolve_left (not_not_intro hnode.2)
    rw [if_pos hnode, if_neg hack, if_neg hnack]
  · rw [if_neg hnode]

theorem bsStep_wait {p : Params} {fwb img : Memory} {a : Await} {b : BsUnit} (e : Env) (hp : b.point = .wait a) :
    bsStep p fwb img (b, e) = checkResponse p img a (b, e) := by
  rw [bsStep, hp]

/-- A poll that fails or finds nothing is followed by the deadline test, with nothing received (R185). -/
theorem checkResponse_nothing (p : Params) (img : Memory) (a : Await) (b : BsUnit) {e : Env} {c : PortStatus × Word}
    {cs : List (PortStatus × Word)} (hc : e.counts = c :: cs) (h : ¬(c.1 = .ok ∧ c.2 ≠ 0)) :
    checkResponse p img a (b, e) = deadlineTest (b, { e with counts := cs }) := by
  simp only [checkResponse, tpCount_cons hc, if_neg h]

/-- A failing receive, and a foreign event, are followed by the deadline test (R182, R183). -/
theorem checkResponse_dropped (p : Params) (img : Memory) (a : Await) (b : BsUnit) {e : Env} {c : PortStatus × Word}
    {cs : List (PortStatus × Word)} {r : PortStatus × Event} {rs : List (PortStatus × Event)} (hc : e.counts = c :: cs)
    (hr : e.receives = r :: rs) (hfound : c.1 = .ok ∧ c.2 ≠ 0) (h : r.1 ≠ .ok ∨ ForeignEvent p a b.sGuid r.2) :
    checkResponse p img a (b, e) = deadlineTest (b, { e with counts := cs, receives := rs }) := by
  have hr' : Env.receives { e with counts := cs } = r :: rs := hr
  simp only [checkResponse, tpCount_cons hc, if_pos hfound, tpReceive_cons hr']
  by_cases hok : r.1 = .ok
  · rw [if_pos hok, classify_foreign (h.resolve_left (not_not_intro hok))]
  · rw [if_neg hok]

/-- An iteration that does not match leads to the deadline test: the poll is used up, and the event if the poll found one. -/
theorem checkResponse_unmatched (p : Params) (img : Memory) (a : Await) (b : BsUnit) {e : Env} {c : PortStatus × Word}
    {cs : List (PortStatus × Word)} {r : PortStatus × Event} {rs : List (PortStatus × Event)} (hc : e.counts = c :: cs)
    (hr : e.receives = r :: rs) (h : c.1 ≠ .ok ∨ c.2 = 0 ∨ r.1 ≠ .ok ∨ ForeignEvent p a b.sGuid r.2) :
    checkResponse p img a (b, e) =
      deadlineTest (b, { e with counts := cs, receives := if c.1 = .ok ∧ c.2 ≠ 0 then rs else r :: rs }) := by
  by_cases hfound : c.1 = .ok ∧ c.2 ≠ 0
  · rw [if_pos hfound, checkResponse_dropped p img a b hc hr hfound
      ((h.resolve_left (not_not_intro hfound.1)).resolve_left hfound.2)]
  · rw [if_neg hfound, ← hr, checkResponse_nothing p img a b hc hfound]

/-! ## Iterations in a row -/

/-- With `S_TIMEOUT = 0xFFFFFFFF` polls that find nothing leave BS waiting. -/
theorem wait_forever {p : Params} {fwb img : Memory} {a : Await} {b : BsUnit} (hb : b.flags.busy = true)
    (hp : b.point = .wait a) (hmax : b.sTimeout = 0xFFFFFFFF) (n : Nat) (e : Env) (hn : n ≤ e.counts.length)
    (hnone : ∀ c ∈ e.counts, c.1 ≠ .ok ∨ c.2 = 0) : (bsRun p fwb img n (b, e)).1 = b := by
  induction n generalizing e with
  | zero => rfl
  | succ n ih =>
    obtain ⟨c, cs, hc⟩ := List.exists_cons_of_length_pos (Nat.lt_of_lt_of_le n.succ_pos hn)
    rw [hc, List.forall_mem_cons] at hnone
    rw [hc, List.length_cons] at hn
    have hcounts : (Env.now { e with counts := cs }).2.counts = cs := (now_counts _).1
    rw [bsRun_succ _ _ _ _ _ hb, bsStep_wait e hp,
      checkResponse_nothing p img a b hc (fun h => hnone.1.elim (absurd h.1) h.2), deadlineTest_forever _ hmax]
    exact ih _ (by rw [hcounts]; omega) (by rw [hcounts]; exact hnone.2)

/-- Settles O41: an iteration that does not match comes to the deadline test, in its two cases; and `wait_forever`. -/
theorem waitDropsAndTimesOut : Obligations.WaitDropsAndTimesOut := by
  refine ⟨fun p fwb img a b e d ds c cs r rs hb hp hticks hcounts hreceives h => ?_,
    fun p fwb img a b e n hb hp hmax hn hnone => wait_forever hb hp hmax n e hn hnone⟩
  have hrun : bsRun p fwb img 1 (b, e) = _ := (bsRun_succ p fwb img 0 (b, e) hb).trans
    ((bsStep_wait e hp).trans (checkResponse_unmatched p img a b hcounts hreceives h))
  refine ⟨fun hin => hrun.trans (deadlineTest_within hticks hin), fun hout => ?_⟩
  exact (hrun.trans (deadlineTest_past hticks hout)).trans (raise_report .timeout nofun b _)

/-- An event that matches, at the first poll, is handed to the command (R182, R183). -/
theorem wait_ack {p : Params} {fwb img : Memory} {a : Await} {b : BsUnit} {e : Env} {c : PortStatus × Word} {ev : Event}
    {cs : List (PortStatus × Word)} {rs : List (PortStatus × Event)} (hb : b.flags.busy = true) (hp : b.point = .wait a)
    (hc : e.counts = c :: cs) (hfound : c.1 = .ok ∧ c.2 ≠ 0) (hr : e.receives = (.ok, ev) :: rs)
    (hack : classify p a b.sGuid ev = .ack) :
    bsRun p fwb img 1 (b, e) = afterAck p img a ev (b, { e with counts := cs, receives := rs }) := by
  obtain ⟨st, w⟩ := c
  obtain ⟨rfl, hw⟩ : st = .ok ∧ w ≠ 0 := hfound
  rw [bsRun_succ _ _ _ _ _ hb, bsStep_wait e hp, checkResponse_event p img a b hw hc hr, hack]
  rfl

/-- Foreign events in front of the ACK are dropped one by one, as long as the deadline allows (R183, R184, R185). -/
theorem wait_foreign_ack {p : Params} {fwb img : Memory} {a : Await} {b : BsUnit} {ev : Event}
    {cs : List (PortStatus × Word)} {rs : List (PortStatus × Event)} {ds : List Word} (hb : b.flags.busy = true)
    (hp : b.point = .wait a) (hack : classify p a b.sGuid ev = .ack) (foreign : List Event)
    (polls : List (PortStatus × Word)) (waits : List Word) (e : Env)
    (hforeign : ∀ f ∈ foreign, ForeignEvent p a b.sGuid f) (hlen : polls.length = foreign.length + 1)
    (hpolls : ∀ c ∈ polls, c.1 = .ok ∧ c.2 ≠ 0) (hcounts : e.counts = polls ++ cs)
    (hreceives : e.receives = foreign.map (fun f => (PortStatus.ok, f)) ++ (.ok, ev) :: rs)
    (hwaits : waits.length = foreign.length) (hticks : e.ticks = waits ++ ds)
    (hin : ∀ n, n < foreign.length →
      (e.timer + (waits.take (n + 1)).sum - b.deadlineT0).toNat ≤ b.sTimeout.toNat) :
    bsRun p fwb img (foreign.length + 1) (b, e) = afterAck p img a ev
      (b, { e with timer := e.timer + waits.sum, counts := cs, receives := rs, ticks := ds }) := by
  induction foreign generalizing polls waits e with
  | nil =>
    obtain ⟨c, rfl⟩ := List.length_eq_one_iff.mp hlen
    obtain rfl := List.length_eq_zero_iff.mp hwaits
    obtain rfl : e.ticks = ds := hticks
    rw [List.sum_nil, BitVec.ofNat_eq_ofNat, BitVec.add_zero]
    exact wait_ack hb hp hcounts (hpolls c (List.mem_singleton_self c)) hreceives hack
  | cons f foreign ih =>
    obtain ⟨hf, hforeign⟩ := List.forall_mem_cons.mp hforeign
    obtain ⟨c, polls, rfl⟩ := List.exists_cons_of_length_eq_add_one hlen
    obtain ⟨hc, hpolls⟩ := List.forall_mem_cons.mp hpolls
    obtain ⟨d, waits, rfl⟩ := List.exists_cons_of_length_eq_add_one hwaits
    have hfirst : ¬b.sTimeout.toNat < (e.timer + d - b.deadlineT0).toNat := by
      have h0 := hin 0 (Nat.succ_pos _)
      simpa using h0
    have hstep := (checkResponse_dropped p img a b hcounts hreceives hc (.inr hf)).trans (deadlineTest_within hticks hfirst)
    rw [List.length_cons, bsRun_succ _ _ _ _ _ hb, bsStep_wait e hp, hstep]
    refine (ih polls waits _ hforeign (Nat.succ.inj hlen) hpolls rfl rfl (Nat.succ.inj hwaits) rfl fun n hn => ?_).trans ?_
    · have hnext := hin (n + 1) (Nat.succ_lt_succ hn)
      rwa [List.take_succ_cons, List.sum_cons, ← BitVec.add_assoc] at hnext
    · rw [List.sum_cons, ← BitVec.add_assoc]

/-- Settles O42: the foreign events are dropped and the ACK is handed on; after it `BLK_START` is complete. -/
theorem ackBehindForeignEvents : Obligations.AckBehindForeignEvents := by
  intro p fwb img a b e foreign ev polls cs rs waits ds hb hp hforeign hcls hguid htyp hlen hpolls hcounts hreceives hwaits
    hticks hin e'
  have hrun := wait_foreign_ack (fwb := fwb) (img := img) hb hp (classify_ack hcls hguid htyp) foreign polls waits e hforeign
    hlen hpolls hcounts hreceives hwaits hticks hin
  refine ⟨hrun, ?_⟩
  rintro m rfl hcmd
  exact hrun.trans (afterStartBlock_blkStart m (b, e') hcmd)

end Sys2Proof.Machine
end

section
/-!
SUPPORT. Requests that fail, by their send or by a NACK (R181, R182), and the failures of `DEV_INIT` before its request,
at it and after it (R192 to R195). Settles O31 and O32.
-/

namespace Sys2Proof.Machine

/-! ## DEV_INIT before its request -/

/-- `DEV_INIT` whose register read and the checks on it end in a raise, after the messages `l`. -/
theorem exec_devInit_readFails {s : State} {b : BsUnit} {e : Env} {l : List (Byte × MsgId)} (r : ErrCode)
    (hr : r ≠ .success) (hb : s.bs.flags.busy = false) (hpace : 1 ≤ s.pace) (hovr : b.flags.ovr = false)
    (hctrl : b.sCtrl = s.bs.ctrl)
    (hread : devInitRead s.params (sessionOpen s.params (s.bs.accept 0x10), s.env) =
      BsWorld.raise r (b, e.withMessages s.bs.ctrl l)) :
    exec .devInit s =
      .next { s with bs := b.raised r, env := e.withMessages s.bs.ctrl (l ++ [(milestone, .failed)]) } := by
  obtain ⟨n, hn⟩ : ∃ n, s.pace = n + 1 := ⟨s.pace - 1, by omega⟩
  have hstep : bsStep s.params s.fwb s.img (sessionOpen s.params (s.bs.accept 0x10), s.env) = _ :=
    hread.trans (raise_eq r hr b _ hovr)
  refine exec_devInit hb ?_
  rw [hn, bsRun_succ _ _ _ _ _ rfl, hstep, bsRun_idle _ _ _ _ _ rfl, hctrl, withMessages_twice]

/-- Settles O31: the register read and the two checks on it, each raising in its turn. -/
theorem devInitEarlyFailures : Obligations.DevInitEarlyFailures := by
  intro s st alg code regs hb hpace hregs
  refine ⟨fun hst => ?_, ?_, ?_⟩
  · exact exec_devInit_readFails .comm nofun hb hpace rfl rfl (devInitRead_failed s.params _ hst hregs)
  · rintro rfl halg
    exact exec_devInit_readFails .notSupported nofun hb hpace rfl rfl
      ((devInitRead_ok s.params _ hregs).trans (devInitCompare_algorithm _ _ _ halg))
  · rintro rfl halg hcode habort
    exact exec_devInit_readFails .parameter nofun hb hpace rfl rfl
      ((devInitRead_ok s.params _ hregs).trans (devInitCompare_mismatch _ _ _ halg hcode habort))

/-! ## A request that fails -/

/-- The first poll after a request meets a NACK (R182, R183). -/
theorem wait_nack (p : Params) (fwb img : Memory) {a : Await} {b : BsUnit} {e : Env} {ev : Event} (req : Event)
    {sends : List PortStatus} {counts : List (PortStatus × Word)} {receives : List (PortStatus × Event)}
    (hp : b.point = .wait a) (h : e.oneAnswer p b.sGuid (nackType p a) ev sends counts receives)
    (hne : nackType p a ≠ ackType p a) :
    bsStep p fwb img (b, e.afterSend req sends) = BsWorld.raise .nack (b, e.afterExchange req sends counts receives) := by
  have ⟨_, _, _, hcls, htyp, hguid⟩ := h
  rw [bsStep_wait _ hp, checkResponse_answer p img a b h, classify_nack hcls hguid htyp hne]

/-- A step at which BS sends a request, as `c`, that the transport refuses (R181). -/
theorem run_sendFailed {p : Params} {fwb img : Memory} {b c : BsUnit} {e : Env} {typ : Half} {payload : List Byte}
    {next : BsWorld → BsWorld} {sends : List PortStatus} (n : Nat) (hb : b.flags.busy = true) (hovr : c.flags.ovr = false)
    (hstep : bsStep p fwb img (b, e) = BsWorld.sendReq p typ payload (c, e) next) (h : e.sendStatus = .failed :: sends) :
    bsRun p fwb img (n + 1) (b, e) = (c.raised .comm,
      Env.withMessages { e with sendStatus := sends, sent := e.sent ++ [requestEvent p c typ payload] } c.sCtrl
        [(milestone, .failed)]) := by
  rw [bsRun_succ _ _ _ _ _ hb, hstep, sendReq_failed _ _ _ _ _ h, raise_eq .comm nofun _ _ hovr, bsRun_idle _ _ _ _ _ rfl]

/-- A request, sent as `c`, that the node answers with a NACK at the first poll (R182). -/
theorem run_nack {p : Params} {fwb img : Memory} {a : Await} {b c : BsUnit} {e : Env} {typ : Half} {payload : List Byte}
    {ev : Event} {sends : List PortStatus} {counts : List (PortStatus × Word)} {receives : List (PortStatus × Event)}
    (n : Nat) (hb : b.flags.busy = true) (hcb : c.flags.busy = true) (hovr : c.flags.ovr = false)
    (hstep : bsStep p fwb img (b, e) = BsWorld.sendReq p typ payload (c, e) (BsWorld.enterWait a))
    (h : e.oneAnswer p c.sGuid (nackType p a) ev sends counts receives) (hne : nackType p a ≠ ackType p a) :
    bsRun p fwb img (n + 2) (b, e) = ({ c with deadlineT0 := e.now.1 }.raised .nack,
      (e.afterExchange (requestEvent p c typ payload) sends counts receives).withMessages c.sCtrl
        [(milestone, .failed)]) := by
  have hwait : bsStep p fwb img ({ c with deadlineT0 := e.now.1, point := .wait a },
      e.afterSend (requestEvent p c typ payload) sends) = _ := wait_nack p fwb img _ rfl h hne
  rw [bsRun_succ _ _ _ _ _ hb, hstep, sendReq_ok _ _ _ _ _ h.1, bsRun_succ _ _ _ _ _ hcb,
    hwait.trans (raise_eq .nack nofun _ _ hovr), bsRun_idle _ _ _ _ _ rfl]
  rfl

/-! ## DEV_INIT from its request on -/

/-- The request of `DEV_INIT` (R190). -/
theorem devInit_atRequest (p : Params) (fwb img : Memory) (b : BsUnit) (e : Env) (hp : b.point = .sendEnterBoot) :
    bsStep p fwb img (b, e) = BsWorld.sendReq p p.typeEnterBoot (enterBootPayload p b) (b, e) fun y =>
      (BsWorld.status ({ y.1 with state := .bootModeRequested }, y.2) milestone .bootRequested).enterWait .enterBoot := by
  rw [bsStep, hp]
  rfl

/-- BS inside `DEV_INIT`'s wait, entered when the clock said `t0`. -/
def awaitingBoot (p : Params) (b : BsUnit) (code : Half) (t0 : Word) : BsUnit :=
  { readyToSend p b code with state := .bootModeRequested, deadlineT0 := t0, point := .wait .enterBoot }

/-- `DEV_INIT` whose request is answered, when what it makes of the answer, as `c`, is a raise. -/
theorem exec_devInit_answerFails {s : State} {code : Half} {regs : List (PortStatus × Byte × Half)} {typ : Half}
    {ev : Event} {sends : List PortStatus} {counts : List (PortStatus × Word)} {receives : List (PortStatus × Event)}
    {c : BsUnit} (r : ErrCode) (hr : r ≠ .success) (hb : s.bs.flags.busy = false) (hpace : 3 ≤ s.pace)
    (hregs : s.env.registers = (.ok, s.params.expectedBootAlgorithm, code) :: regs)
    (hcode : code = s.bs.devcode ∨ abortMismatch s.bs.ctrl = false)
    (hans : s.env.oneAnswer s.params s.bs.guid typ ev sends counts receives) (hovr : c.flags.ovr = false)
    (hctrl : c.sCtrl = s.bs.ctrl)
    (hanswer : ∀ (e : Env) (req : Event), e.oneAnswer s.params s.bs.guid typ ev sends counts receives →
      bsStep s.params s.fwb s.img (awaitingBoot s.params s.bs code s.env.now.1, e.afterSend req sends) =
        BsWorld.raise r (c, e.afterExchange req sends counts receives)) :
    exec .devInit s = .next { s with
      bs := c.raised r,
      env := Env.withMessages
        { s.env.afterExchange (enterBootRequest s.params s.bs) sends counts receives with registers := regs } s.bs.ctrl
        (devInitMessages (code ≠ s.bs.devcode) ++ [(milestone, .bootRequested), (milestone, .failed)]) } := by
  obtain ⟨n, hn⟩ : ∃ n, s.pace = n + 1 + 1 + 1 := ⟨s.pace - 3, by omega⟩
  have hwait := (devInit_toWait (fwb := s.fwb) (img := s.img) (n + 1) hregs hcode hans.1).trans
    (bsRun_succ _ _ _ _ (awaitingBoot s.params s.bs code s.env.now.1, _) rfl)
  refine exec_devInit hb ?_
  rw [hn, hwait, hanswer, raise_eq r hr _ _ hovr, bsRun_idle _ _ _ _ _ rfl, hctrl, afterExchange_withMessages,
    afterExchange_registers, ← withMessages_append_pair]
  exact hans

/-- An ACK of fewer than 8 bytes (R194). -/
theorem afterEnterBoot_short {ev : Event} (x : BsWorld) (hlen : ev.len.val < 8) :
    afterEnterBoot ev x = BsWorld.raise .invalidFrame x :=
  if_pos hlen

/-- An ACK whose block size holds no chunk (R195). -/
theorem afterEnterBoot_smallBlock {ev : Event} (b : BsUnit) (e : Env) (hlen : 8 ≤ ev.len.val)
    (hsize : (ackBlockSize ev.payload).toNat < b.chunkSize.toNat) :
    afterEnterBoot ev (b, e) = BsWorld.raise .size
      ({ b with blockSize := ackBlockSize ev.payload, numBlocks := ackNumBlocks ev.payload }, e) :=
  (if_neg (Nat.not_lt.mpr hlen)).trans (if_pos hsize)

/-- Settles O32: the failing send raises at the second step, and each failing answer at the third. -/
theorem devInitLateFailures : Obligations.DevInitLateFailures := by
  intro s code regs sends counts receives hb hpace hregs hcode b req early
  let waiting := awaitingBoot s.params s.bs code s.env.now.1
  refine ⟨fun hsend => ?_, fun ev hans hne => ?_, fun ev hans hlen => ?_, fun ev hans hlen hsize => ?_⟩
  · obtain ⟨n, hn⟩ : ∃ n, s.pace = n + 1 + 1 := ⟨s.pace - 2, by omega⟩
    have hsend' : (Env.withMessages { s.env with registers := regs } s.bs.ctrl early).sendStatus = .failed :: sends := hsend
    have hfail := run_sendFailed n rfl rfl
      (devInit_atRequest s.params s.fwb s.img (readyToSend s.params s.bs code) _ rfl) hsend'
    refine exec_devInit hb ?_
    rw [hn, bsRun_succ _ _ _ _ _ rfl, devInit_registers _ _ _ _ hregs hcode, hfail, ← withMessages_twice]
    rfl
  · exact exec_devInit_answerFails (c := waiting) .nack nofun hb hpace hregs hcode hans rfl rfl fun e req h =>
      wait_nack (a := .enterBoot) s.params s.fwb s.img req rfl h hne
  · exact exec_devInit_answerFails (c := waiting) .invalidFrame nofun hb hpace hregs hcode hans rfl rfl fun e req h =>
      (devInit_answer _ _ _ req rfl h).trans (afterEnterBoot_short _ hlen)
  · exact exec_devInit_answerFails
      (c := { waiting with blockSize := ackBlockSize ev.payload, numBlocks := ackNumBlocks ev.payload })
      .size nofun hb hpace hregs hcode hans rfl rfl fun e req h =>
      (devInit_answer _ _ _ req rfl h).trans (afterEnterBoot_smallBlock _ _ hlen hsize)

end Sys2Proof.Machine
end

section
/-!
SUPPORT. The commands of block operations whose requests fail: the three of one request (R181, R182, R263), and
`BLK_WRITE`, whose loop stops at the chunk whose send fails (R206, R208). Settles O38 and O40.
-/

namespace Sys2Proof.Machine

/-! ## The three commands of one request -/

/-- The two failures of a command that sends one request: at place `pt`, as `b`, with the wait `a` after it. -/
theorem exec_request_fails {s : State} {i : Instr} {pt : BsPoint} {b : BsUnit} {a : Await} {typ : Half} {payload : List Byte}
    (sends : List PortStatus) (counts : List (PortStatus × Word)) (receives : List (PortStatus × Event))
    (hs : soloLapse i = .lapseBs) (hne : i ≠ .devInit) (hb : s.bs.flags.busy = false) (hpace : 3 ≤ s.pace)
    (hchecks : bsChecks s.params (startAtChecks (s.bs.accept (codeOf i)), s.env) = (commandAt (codeOf i) s.bs pt, s.env))
    (hrequest : bsStep s.params s.fwb s.img (commandAt (codeOf i) s.bs pt, s.env) =
      BsWorld.sendReq s.params typ payload (commandAt (codeOf i) b pt, s.env) (BsWorld.enterWait a)) :
    (s.env.sendStatus = .failed :: sends → exec i s = .next { s with
      bs := b.raised .comm,
      env := Env.withMessages
        { s.env with sendStatus := sends, sent := s.env.sent ++ [requestEvent s.params b typ payload] }
        b.sCtrl [(milestone, .failed)] }) ∧
    (∀ ev, s.env.oneAnswer s.params b.sGuid (nackType s.params a) ev sends counts receives →
      nackType s.params a ≠ ackType s.params a → exec i s = .next { s with
        bs := { b with deadlineT0 := s.env.now.1 }.raised .nack,
        env := Env.withMessages
          (s.env.afterExchange (requestEvent s.params b typ payload) sends counts receives)
          b.sCtrl [(milestone, .failed)] }) := by
  obtain ⟨n, hn⟩ : ∃ n, s.pace = n + 2 + 1 := ⟨s.pace - 3, by omega⟩
  exact ⟨fun hsend => exec_bs_passed hs hne hb hn hchecks
      (run_sendFailed (c := commandAt (codeOf i) b pt) (n + 1) rfl rfl hrequest hsend),
    fun ev hans htyp => exec_bs_passed hs hne hb hn hchecks
      (run_nack (c := commandAt (codeOf i) b pt) n rfl rfl rfl hrequest hans htyp)⟩

/-- The request for a chunk that is no longer than `BS_CHUNKSIZE`: the checksum takes it in first (R203). -/
theorem bsStep_sendChunk {p : Params} {fwb img : Memory} {k : Nat} {data : List Byte} {b : BsUnit} (e : Env)
    (hp : b.point = .sendChunk k) (hd : chunkData p fwb img b k = data) (hlen : data.length ≤ b.chunkSize.toNat) :
    bsStep p fwb img (b, e) = BsWorld.sendReq p p.typeBlockData data
      ({ b with checksum := crc16Bytes b.checksum data }, e) (BsWorld.enterWait (.blockData k)) := by
  have hstep : bsStep p fwb img (b, e) = writeChunkSend p k data (b, e) := by
    rw [bsStep, hp, ← hd]
  exact hstep.trans (if_neg (Nat.not_lt.mpr hlen))

/-- Settles O38: the checks pass, and the one request fails at its send or by its answer. -/
theorem stepCommandFailures : Obligations.StepCommandFailures := by
  intro s i b typ nack ack payload sends counts receives hb hpace hi
  rcases hi with ⟨rfl, hst, rfl, rfl, rfl, rfl, rfl⟩ | ⟨rfl, hst, hsize, hrange, rfl, rfl, rfl, rfl, rfl⟩ |
    ⟨rfl, hst, rfl, rfl, rfl, rfl, rfl⟩
  · exact exec_request_fails (pt := .sendStartBlock s.bs.blockNo s.bs.memtype) (b := s.bs) (a := .startBlock s.bs.blockNo)
      sends counts receives rfl nofun hb hpace (if_pos hst) rfl
  · exact exec_request_fails (pt := .sendChunk s.bs.chunkIdx.toNat) (a := .blockData s.bs.chunkIdx.toNat)
      sends counts receives rfl nofun hb hpace (chunkWriteChecks_passed s.env hst hsize hrange)
      (bsStep_sendChunk s.env rfl (chunkData_chunkWrite _ _ _ rfl _) (by rwa [memRead_length]))
  · exact exec_request_fails (pt := .sendProgramBlock s.bs.blockNo) (b := s.bs) (a := .programBlock)
      sends counts receives rfl nofun hb hpace (if_pos hst) rfl

/-! ## The chunks of BLK_WRITE before the one that fails -/

/-- BS inside `BLK_WRITE` when `m` chunks have been acknowledged and chunk `m` comes next. -/
def atChunk (m : Nat) (checksum : Half) (t0 : Word) (b : BsUnit) : BsUnit :=
  { b with checksum := checksum, chunkIdx := BitVec.ofNat 32 m, deadlineT0 := t0, point := .sendChunk m }

/-- Chunk `m` of `BLK_WRITE`, not the block's last, is acknowledged: the next one comes (R203, R206). -/
theorem afterChunk_next {m : Nat} {b : BsUnit} (e : Env) (checksum : Half) (t0 : Word) (pt : BsPoint) (hc : b.cmd = 0x12)
    (hm : m + 1 < chunkCount b) (hw : chunkCount b < 2 ^ 32) :
    afterChunk m ({ atChunk m checksum t0 b with point := pt }, e) = (atChunk (m + 1) checksum t0 b, e) := by
  have hidx : BitVec.ofNat 32 m + 1 = BitVec.ofNat 32 (m + 1) := (BitVec.ofNat_add m 1).symm
  have hlast : ¬(BitVec.ofNat 32 m + 1).toNat = chunkCount b := by rw [hidx, BitVec.toNat_ofNat]; omega
  refine (afterChunk_more (.inl hc) hm).trans (Prod.ext ?_ rfl)
  refine (congrArg (fun st => { atChunk m checksum t0 b with
    chunkIdx := BitVec.ofNat 32 m + 1, state := st, point := .sendChunk (m + 1) }) (if_neg hlast)).trans ?_
  rw [hidx]
  rfl

/-- What chunk `m` of `BLK_WRITE` sends, and for which ACK (R203, R206). -/
def chunkRequest (p : Params) (b : BsUnit) (data : List Byte) (m : Nat) : Event × Half :=
  (requestEvent p b p.typeBlockData (chunkSlice data b.chunkSize.toNat m), p.typeBlockDataAck)

/-- The requests for the first `m + 1` chunks are those for the first `m`, and one more. -/
theorem take_blockDataRequests {p : Params} {b : BsUnit} {data : List Byte} {m : Nat}
    (hm : m < (blockDataRequests p b data).length) :
    (blockDataRequests p b data).take (m + 1) = (blockDataRequests p b data).take m ++ [chunkRequest p b data m] := by
  rw [List.take_succ_eq_append_getElem hm]
  simp [blockDataRequests, blockChunks, chunkRequest]

/-- A node that agrees with a list of requests answers the last of them after the others. -/
theorem agrees_concat {e : Env} {p : Params} {b : BsUnit} {q : Event × Half} {reqs : List (Event × Half)}
    {sends : List PortStatus} {counts : List (PortStatus × Word)} {receives : List (PortStatus × Event)}
    (h : e.agrees p b (reqs ++ [q]) sends counts receives) :
    ∃ cs rs, e.agrees p b reqs (.ok :: sends) cs rs ∧
      ∀ f : Env, f.sendStatus = .ok :: sends → f.counts = cs → f.receives = rs →
        ∃ ev, f.oneAnswer p b.sGuid q.2 ev sends counts receives := by
  obtain ⟨cs, rs, hfirst, hlast⟩ := agrees_append h
  refine ⟨cs, rs, hfirst, fun f hs hc hr => ?_⟩
  obtain ⟨ev, cs', rs', hans, hrest⟩ := agrees_cons (hlast f hs hc hr)
  obtain ⟨-, rfl, rfl⟩ := agrees_nil (hrest { f with sendStatus := sends, counts := cs', receives := rs' } rfl rfl rfl)
  exact ⟨ev, hans⟩

/-- The block that `BLK_WRITE` finds in FWB (R206). -/
def stagedBlock (fwb : Memory) (b : BsUnit) : List Byte := memRead .fwb fwb b.src.toNat b.blockSize.toNat

theorem stagedRequests_length (p : Params) (fwb : Memory) (b : BsUnit) :
    (blockDataRequests p b (stagedBlock fwb b)).length = chunkCount b := by
  rw [blockDataRequests_length, stagedBlock, memRead_length, chunkCount]

section
variable {b : BsUnit} (hb : b.flags.busy = true) (hc : b.cmd = 0x12) (hw : chunkCount b < 2 ^ 32)
include hb hc hw

/-- The exchange for a chunk of `BLK_WRITE` that is not the block's last. -/
theorem blkWrite_chunk (p : Params) (fwb img : Memory) {m : Nat} (n : Nat) (e : Env) (checksum : Half) (t0 : Word)
    {ev : Event} {sends : List PortStatus} {counts : List (PortStatus × Word)} {receives : List (PortStatus × Event)}
    (hm : m + 1 < chunkCount b) (h : e.oneAnswer p b.sGuid p.typeBlockDataAck ev sends counts receives) :
    bsRun p fwb img (n + 2) (atChunk m checksum t0 b, e) = bsRun p fwb img n
      (atChunk (m + 1) (crc16Bytes checksum (chunkSlice (stagedBlock fwb b) b.chunkSize.toNat m)) e.now.1 b,
        e.afterExchange (chunkRequest p b (stagedBlock fwb b) m).1 sends counts receives) :=
  (chunk_exchange p fwb img n m (atChunk m checksum t0 b) e _ hb rfl (chunkData_blkWrite p fwb img hc m)
    (chunkSlice_length _ _ _) h).trans
    (congrArg (bsRun p fwb img n) (afterChunk_next _ (crc16Bytes checksum _) e.now.1 (.wait (.blockData m)) hc hm hw))

/-- The first `m` chunks of `BLK_WRITE`, not the last among them, with a node that acknowledges each. -/
theorem blkWrite_chunks (p : Params) (fwb img : Memory) {m : Nat} (n : Nat) (e : Env) (checksum : Half) (t0 : Word)
    {sends : List PortStatus} {counts : List (PortStatus × Word)} {receives : List (PortStatus × Event)}
    (hm : m < chunkCount b)
    (ha : e.agrees p b ((blockDataRequests p b (stagedBlock fwb b)).take m) sends counts receives) :
    ∃ checksum' t0' tm ticks draws, bsRun p fwb img (n + 2 * m) (atChunk 0 checksum t0 b, e) =
      bsRun p fwb img n (atChunk m checksum' t0' b, e.exchanged tm ticks draws sends counts receives
        (((blockDataRequests p b (stagedBlock fwb b)).take m).map fun q => q.1)) := by
  induction m generalizing n sends counts receives with
  | zero =>
    obtain ⟨rfl, rfl, rfl⟩ := agrees_nil ha
    refine ⟨checksum, t0, e.timer, e.ticks, e.draws, ?_⟩
    rw [List.take_zero, List.map_nil, Env.exchanged, List.append_nil]
    rfl
  | succ m ih =>
    have hbefore : m < chunkCount b := Nat.lt_of_succ_lt hm
    rw [take_blockDataRequests (by rwa [stagedRequests_length])] at ha ⊢
    obtain ⟨cs, rs, hfirst, hlast⟩ := agrees_concat ha
    obtain ⟨checksum', t0', tm, ticks, draws, hrun⟩ := ih (n + 2) hbefore hfirst
    obtain ⟨ev, hans⟩ := hlast (e.exchanged tm ticks draws (.ok :: sends) cs rs _) rfl rfl rfl
    have hchunk := blkWrite_chunk hb hc hw p fwb img n _ checksum' t0' hm hans
    obtain ⟨tm', ticks', draws', henv⟩ := afterExchange_eq (e.exchanged tm ticks draws (.ok :: sends) cs rs _)
      (chunkRequest p b (stagedBlock fwb b) m).1 sends counts receives
    rw [henv, exchanged_exchanged] at hchunk
    rw [show n + 2 * (m + 1) = n + 2 + 2 * m by omega, List.map_append]
    exact ⟨_, _, tm', ticks', draws', hrun.trans hchunk⟩

end

/-- Settles O40: the chunks before it are acknowledged, and the send of chunk `n` raises `ERR_COMM`. -/
theorem blkWriteStopsAtFailure : Obligations.BlkWriteStopsAtFailure := by
  intro s n sends counts receives hb hst hidx hpos hle hrange data reqs hn hpace ha
  obtain ⟨hcount, hfits⟩ := chunkCount_bounds hpos hle
  have hlast : n < chunkCount s.bs := by rwa [← stagedRequests_length s.params s.fwb]
  obtain ⟨k, hk⟩ : ∃ k, s.pace = k + 1 + 2 * n + 1 := ⟨s.pace - (2 * n + 2), by omega⟩
  have hstart : commandAt 0x12 s.bs (.sendChunk 0) = atChunk 0 s.bs.checksum s.bs.deadlineT0 (s.bs.accept 0x12) :=
    congrArg (fun i => { commandAt 0x12 s.bs (.sendChunk 0) with chunkIdx := i }) hidx
  obtain ⟨checksum, t0, tm, ticks, draws, hrun⟩ := blkWrite_chunks (b := s.bs.accept 0x12) rfl rfl hfits s.params
    s.fwb s.img (k + 1) s.env s.bs.checksum s.bs.deadlineT0 hlast ha
  have hrequest := bsStep_sendChunk (p := s.params) (img := s.img) (b := atChunk n checksum t0 (s.bs.accept 0x12))
    (s.env.exchanged tm ticks draws (.failed :: sends) counts receives ((reqs.take n).map fun q => q.1)) rfl
    (chunkData_blkWrite _ s.fwb _ rfl n) (chunkSlice_length _ _ _)
  rw [← hstart] at hrun
  refine ⟨_, exec_bs_passed rfl nofun hb hk (blkWriteChecks_passed s.env hst hidx hcount hrange)
    (hrun.trans (run_sendFailed k rfl rfl hrequest rfl)), rfl, rfl, rfl, ?_, rfl, ?_⟩
  · exact (BitVec.toNat_ofNat n 32).trans (Nat.mod_eq_of_lt (by omega))
  · rw [take_blockDataRequests hn, List.map_append, ← List.append_assoc]
    rfl

end Sys2Proof.Machine
end

section
/-!
SUPPORT. The session state: in which state each bootloader command may start, and where a step of one may lead (R220 to R223).
Settles O33 and O49.
-/

namespace Sys2Proof.Machine

/-! ## The guards -/

/-- A command whose checks, its one step, leave it under way. -/
theorem exec_bs_underWay {s : State} {i : Instr} (hs : soloLapse i = .lapseBs) (hne : i ≠ .devInit)
    (hb : s.bs.flags.busy = false) (hpace : s.pace = 1) {y : BsWorld}
    (hchecks : bsChecks s.params (startAtChecks (s.bs.accept (codeOf i)), s.env) = y) (hy : y.1.flags.busy = true) :
    ∃ t, exec i s = .next t ∧ t.bs.flags.busy = true :=
  ⟨_, exec_bs_checks hs hne hb hpace, (congrArg (fun z : BsWorld => z.1.flags.busy) hchecks).trans hy⟩

/-- Settles O33: a guard's failing branch refuses, its passing branch keeps `BUSY`, and `DEV_INIT` has no guard. -/
theorem stateGuards : Obligations.StateGuards := by
  intro s hb
  refine ⟨fun hpace => ⟨fun hconf hprog => ?_, fun hst => ?_, fun hst => ?_, fun hst => ?_, fun hst => ?_⟩,
    fun hpace => ⟨fun hst => ?_, fun hst => ?_, fun hst => ?_⟩, fun hpace => ?_⟩
  · exact exec_bs_refused rfl nofun hb hpace nofun (if_neg (not_or_intro hconf hprog))
  · exact exec_bs_refused rfl nofun hb hpace nofun (if_pos hst)
  · exact exec_bs_refused rfl nofun hb hpace nofun (if_pos hst)
  · exact exec_bs_refused rfl nofun hb hpace nofun (if_neg hst)
  · exact exec_bs_refused rfl nofun hb hpace nofun (if_neg hst)
  · exact exec_bs_underWay rfl nofun hb hpace (if_pos hst) rfl
  · exact exec_bs_underWay rfl nofun hb hpace (if_pos hst) rfl
  · exact exec_bs_underWay rfl nofun hb hpace (if_pos hst) rfl
  · exact ⟨_, exec_devInit hb (congrArg (fun n => bsRun s.params s.fwb s.img n _) hpace), rfl, rfl⟩

/-! ## The transition table -/

/-- Settles O49: a run of one step is `bsStep`, which the case analysis `bsStep_inv` covers place by place. -/
theorem transitionTable : Obligations.TransitionTable := by
  intro p fwb img b e hinv hb
  rw [bsRun_succ p fwb img 0 (b, e) hb]
  exact (bsStep_inv p fwb img (b, e) hinv hb).2

end Sys2Proof.Machine
end

section
/-!
SUPPORT. A machine at rest: a step with no HOST move pending is a lapse of time, which leaves idle units as they are (R276).
Settles O54.
-/

namespace Sys2Proof.Machine

/-- With no move pending, time passes. -/
theorem step_noMove {s : State} (h : s.moves = []) : step s = .next (lapse s) := by
  simp [step, h, fetch]

/-- Time passing changes nothing while every unit is idle. -/
theorem lapse_idle {s : State} (hc : ∀ u ∈ s.ces, u.flags.busy = false) (hb : s.bs.flags.busy = false) :
    lapse s = s :=
  calc lapse s
    _ = s.onBs (bsRun s.params s.fwb s.img 1) := lapses_bs 1 hc
    _ = s := by rw [State.onBs, bsRun_idle _ _ _ _ _ hb]

/-- Settles O54: the step is a lapse, and a lapse takes steps of busy units alone. -/
theorem idleMachineKeepsState : Obligations.IdleMachineKeepsState := fun _ hm hc hb =>
  (step_noMove hm).trans (congrArg _ (lapse_idle hc hb))

end Sys2Proof.Machine
end
